-- ==== Sys2Proof/Word.lean ====
section
/-! DEFINITION. The bit-vector types of HBRW, at the widths of `00_scope.md` rule R5. -/

namespace Sys2Proof

/-- A register, command, tree or table word (`WORDW = 32`, R5, R61). -/
abbrev Word := BitVec 32

/-- An item of a byte port (R36). -/
abbrev Byte := BitVec 8

/-- A symbol (`SYMW = 8`, R5): the item of a symbol port and the index of a table entry. -/
abbrev Symbol := BitVec 8

/-- A word address of the register space (`AW = 16`, R5, R60). -/
abbrev RegAddr := BitVec 16

/-- The index of a tree node (`IDXW = 9`, R5). -/
abbrev NodeIdx := BitVec 9

/-- A bit counter or the bit limit (`CNTW = 64`, R5). -/
abbrev Count := BitVec 64

end Sys2Proof
end

