-- ==== Sys2Proof/Syntax.lean ====
section
/-! DEFINITION. The commands of HBRW: one constructor per row of `spec/opcode_table.json` (R104). -/

namespace Sys2Proof

/-- A command. The operands have exactly the widths of their fields (R101, R102): the bit `b` of format B is a
`Bool` (1 is `true`), the symbol `s` of format S is eight bits, so every term of this type is a command the host can
write. Which WORDS are well formed is `Sys2Proof/WellFormed.lean`. -/
inductive Instr where
  /-- `NOP`, R211. -/
  | nop
  /-- `SRST`, R212. -/
  | srst
  /-- `BW.OPEN`, R132. -/
  | bwOpen
  /-- `BW.WRITEBIT b`, R134. -/
  | bwWritebit (b : Bool)
  /-- `BW.CLOSE`, R136. -/
  | bwClose
  /-- `BR.OPEN`, R154. -/
  | brOpen
  /-- `BR.HASNEXT`, R155. -/
  | brHasnext
  /-- `BR.READBIT`, R157. -/
  | brReadbit
  /-- `BR.CLOSE`, R158. -/
  | brClose
  /-- `ENC.SYM s`, R174. -/
  | encSym (s : Symbol)
  /-- `ENC.RUN`, R176. -/
  | encRun
  /-- `DEC.START`, R191. -/
  | decStart
  /-- `DEC.BIT`, R193. -/
  | decBit
  /-- `DEC.END`, R196. -/
  | decEnd
  /-- `DEC.RUN`, R203. -/
  | decRun
  deriving DecidableEq, Repr

end Sys2Proof
end

