-- ==== Sys2Proof/Decode.lean ====
section
/-! DEFINITION. The decoder of command words, total on every word and rejecting by name (R100 to R105), and the
encoder. -/

namespace Sys2Proof

/-- Why a word is no command: all of these raise `IllegalCommand` (R105, R255), which does not tell them apart. -/
inductive Reject where
  /-- A bit of `RSV` is set (R100, R103 (a)). -/
  | reservedNotZero
  /-- `OPC` is not in R104 (R103 (b), R105). -/
  | unknownOpcode (opc : BitVec 8)
  /-- `ARG` breaks the constraint of the command's format (R101, R103 (c)). -/
  | argOutOfFormat (arg : BitVec 8)
  deriving DecidableEq, Repr

/-- `OPC`, bits [7:0] (R100). -/
def fieldOpc (w : Word) : BitVec 8 := w.extractLsb' 0 8

/-- `ARG`, bits [15:8] (R100). -/
def fieldArg (w : Word) : BitVec 8 := w.extractLsb' 8 8

/-- `RSV`, bits [31:16] (R100). -/
def fieldRsv (w : Word) : BitVec 16 := w.extractLsb' 16 16

/-- Format N (R101): `ARG` must be 0. -/
def decodeN (arg : BitVec 8) (i : Instr) : Except Reject Instr :=
  if arg = 0 then .ok i else .error (.argOutOfFormat arg)

/-- Format B (R101, R102): the operand is bit [8] of the word, the bits above it in `ARG` must be 0. -/
def decodeB (arg : BitVec 8) (f : Bool → Instr) : Except Reject Instr :=
  if arg.extractLsb' 1 7 = 0 then .ok (f (arg.getLsbD 0)) else .error (.argOutOfFormat arg)

/-- The opcode map (R104). -/
def decodeOpc (opc arg : BitVec 8) : Except Reject Instr :=
  if opc = 0x00 then decodeN arg .nop
  else if opc = 0x01 then decodeN arg .srst
  else if opc = 0x10 then decodeN arg .bwOpen
  else if opc = 0x11 then decodeB arg .bwWritebit
  else if opc = 0x12 then decodeN arg .bwClose
  else if opc = 0x20 then decodeN arg .brOpen
  else if opc = 0x21 then decodeN arg .brHasnext
  else if opc = 0x22 then decodeN arg .brReadbit
  else if opc = 0x23 then decodeN arg .brClose
  else if opc = 0x30 then .ok (.encSym arg)
  else if opc = 0x31 then decodeN arg .encRun
  else if opc = 0x40 then decodeN arg .decStart
  else if opc = 0x41 then decodeN arg .decBit
  else if opc = 0x42 then decodeN arg .decEnd
  else if opc = 0x43 then decodeN arg .decRun
  else .error (.unknownOpcode opc)

/-- The command a word encodes, or why it is illegal (R103). -/
def decode (w : Word) : Except Reject Instr :=
  if fieldRsv w = 0 then decodeOpc (fieldOpc w) (fieldArg w) else .error .reservedNotZero

/-- A command word from its two live fields; `RSV` is 0 (R100, R111: `OPC | (operand << 8)`). -/
def commandWord (opc arg : BitVec 8) : Word := (0 : BitVec 16) ++ arg ++ opc

/-- The word of a command (R104). -/
def encode : Instr → Word
  | .nop => commandWord 0x00 0
  | .srst => commandWord 0x01 0
  | .bwOpen => commandWord 0x10 0
  | .bwWritebit b => commandWord 0x11 (if b then 1 else 0)
  | .bwClose => commandWord 0x12 0
  | .brOpen => commandWord 0x20 0
  | .brHasnext => commandWord 0x21 0
  | .brReadbit => commandWord 0x22 0
  | .brClose => commandWord 0x23 0
  | .encSym s => commandWord 0x30 s
  | .encRun => commandWord 0x31 0
  | .decStart => commandWord 0x40 0
  | .decBit => commandWord 0x41 0
  | .decEnd => commandWord 0x42 0
  | .decRun => commandWord 0x43 0

/-- The command whose bits are `w` in the numbering of `spec/opcode_table.json`. A command is one 32-bit word (R100)
and bit 0 is its least significant bit, so the table's number is the word itself; the bits above `nbits` are 0. -/
def decodeTableWord (nbits w : Nat) : Option Instr :=
  match decode (BitVec.ofNat 32 (w % 2 ^ nbits)) with
  | .ok i => some i
  | .error _ => none

end Sys2Proof
end

