-- ==== Sys2Proof/Config.lean ====
section
/-! DEFINITION. What is fixed for the machine (the parameters of R5; log 12) and the free values: what the spec leaves
open, as constants without a body, of which nothing can be proved. -/

namespace Sys2Proof

/-- `NSYM` (R5): number of table entries. -/
def Config.nsym : Nat := 256

/-- `NNODE` (R5): number of words of tree memory. -/
def Config.nnode : Nat := 512

/-- `MAXLEN` (R5): the longest codeword the table can hold. -/
def Config.maxlen : Nat := 255

/-- The constant the register `ID` reads (R45). -/
def Config.idWord : Word := 0x48554601

/-- FREE VALUE (U12, R9; log 2): whether the environment answers `fail` to a port operation. The argument is how
many port operations it has answered before, `answered` of the state. -/
opaque Config.portFails : Nat → Bool

/-- FREE VALUE (U1, R36, R294; log 3): the content of a sink after a `Put` to it has failed. The argument is the
fresh number `freeIdx` of the state. -/
opaque Config.sinkAfterFailure : Nat → List Byte

/-- FREE VALUE (U2, R66; log 4): what a host read of a `TREE` word never written since reset answers. The arguments
are the number `freeIdx` of the state and the index. -/
opaque Config.unwrittenTree : Nat → Nat → Word

/-- FREE VALUE (U2, R70; log 4): what a host read of a `CTAB` word never written since reset answers. The arguments
are the number `freeIdx` of the state and the offset of the word in the window. -/
opaque Config.unwrittenCtab : Nat → Nat → Word

end Sys2Proof
end

