-- ==== Sys2Proof/Machine/State.lean ====
section
/-! DEFINITION. The state of HBRW (R20), grouped as the table of R20 groups it, as plain data; the host's actions;
the reasons a step can stop; the state after reset (R49). -/

namespace Sys2Proof.Machine

/-- The bit writer's registers (R21 to R24). -/
structure Writer where
  /-- `WR_OPEN` (R21). -/
  isOpen : Bool
  /-- `WR_ACC` (R22). -/
  acc : Byte
  /-- `WR_CNT` (R23). -/
  cnt : BitVec 3
  /-- `WR_TOTAL` (R24). -/
  total : Count
  deriving DecidableEq, Repr

/-- The bit reader's registers (R25 to R27). -/
structure Reader where
  /-- `RD_OPEN` (R25). -/
  isOpen : Bool
  /-- `RD_BYTE` (R26). -/
  byte : Byte
  /-- `RD_CNT` (R26). -/
  cnt : BitVec 4
  /-- `RD_TOTAL` (R27). -/
  total : Count
  deriving DecidableEq, Repr

/-- The decoder's registers (R29). -/
structure Decoder where
  /-- `DEC_ACTIVE`. -/
  active : Bool
  /-- `DEC_NODE`. -/
  node : NodeIdx
  deriving DecidableEq, Repr

/-- The configuration registers (R33 to R35), each at its used width: bits not named read 0 and ignore writes. -/
structure ConfigRegs where
  /-- `TREECFG` (R33): `ROOT` [8:0], `PRESENT` [9]. -/
  treecfg : BitVec 10
  /-- `RDCTL` (R34): `LIMEN` [0]. -/
  rdctl : BitVec 1
  /-- `RDLIMIT` (R35). -/
  rdlimit : Count
  deriving DecidableEq, Repr

/-- The result registers (R38 to R40). -/
structure ResultRegs where
  /-- `RESULT` (R38). -/
  result : Word
  /-- `ERRINFO` (R39). -/
  errinfo : Word
  /-- `ERRLOG` (R40). -/
  errlog : Word
  deriving DecidableEq, Repr

/-- A sink port (R36). -/
structure Sink where
  held : Bool
  /-- The items put since the last successful `Acquire`, oldest first; free while `bad` (log 3). -/
  data : List (BitVec 8)
  bad : Bool
  deriving DecidableEq, Repr

/-- A source port (R36). -/
structure Source where
  held : Bool
  /-- The items not yet taken, next one first. -/
  data : List (BitVec 8)
  deriving DecidableEq, Repr

/-- The source ports, `BSRC` and `SSRC` (R36). -/
inductive SourcePort where
  | bsrc
  | ssrc
  deriving DecidableEq, Repr

/-- The sink ports, `BSINK` and `SSINK` (R36). -/
inductive SinkPort where
  | bsink
  | ssink
  deriving DecidableEq, Repr

/-- One action of the host between commands (R113, R296). -/
inductive HostAction where
  /-- Write a word to a register-space address; address 0 is `CMD`, whose write executes a command (R37). -/
  | write (a : RegAddr) (v : Word)
  /-- Read a register-space address. -/
  | read (a : RegAddr)
  /-- Set the `data` of a source port that is not held. -/
  | load (p : SourcePort) (items : List (BitVec 8))
  /-- Assert the hard reset (R280). -/
  | hardReset
  deriving DecidableEq, Repr

/-- What is outside the block, as far as a run needs it: the MODEL'S OWN fields, not the spec's state
(logs 1, 2, 9). -/
structure Environment where
  /-- The host's actions still to come, next one first (log 1). -/
  script : List HostAction
  /-- The environment's next answers to port operations, `true` for `fail`; past the end of the list the answers are
  free (log 2). -/
  draws : List Bool
  /-- How many port operations the environment has answered: the number its free answers are applied to (log 2). -/
  answered : Nat
  /-- The fresh number the other free values are applied to (logs 3, 4). -/
  freeIdx : Nat
  /-- What the host's last register read returned (log 9). -/
  readData : Word
  deriving DecidableEq, Repr

/-- Words by index, strictly rising; an index not listed has not been written since reset (R50; log 10). -/
abbrev Mem := List (Nat × Word)

/-- The state of the block (R20) and, in `env`, of what it runs against. -/
structure State where
  bw : Writer
  br : Reader
  dec : Decoder
  cfg : ConfigRegs
  res : ResultRegs
  /-- `TREE[i]` at `i` (R46). -/
  tree : Mem
  /-- Word `k` of entry `s` of `CTAB` at `16 * s + k`, its offset in the window (R47, R70). -/
  ctab : Mem
  bsink : Sink
  bsrc : Source
  ssink : Sink
  ssrc : Source
  env : Environment
  deriving DecidableEq, Repr

/-- Why the model stops. -/
inductive Fault where
  /-- Raised by `DEC.BIT` and `DEC.RUN` when they read `TREE[i]`, never written since reset: R50 and U2 ask for a
  fault of the model. SAFE (log 5): the hardware goes on with a value no claim may use. -/
  | unwrittenTree (i : Nat)
  /-- Raised by `ENC.SYM` and `ENC.RUN` when they read word `k` of `CTAB` entry `s`, never written since reset
  (R50, U2). SAFE (log 5). -/
  | unwrittenCtab (s k : Nat)
  deriving DecidableEq, Repr

/-- What the model has no meaning for. -/
inductive Refusal where
  /-- Raised by an arm of `exec` for an instruction without a meaning: none is left. SAFE. -/
  | notModelled (mnemonic : String)
  /-- Raised by `step` for a load of a source port the block holds: R291 and U11 give the environment no such move.
  UNSAFE where a real host makes it (log 7): that the host never does is an assumption that errs toward proving (R291,
  R296). -/
  | sourceHeld (p : SourcePort)
  deriving DecidableEq, Repr

/-- The state after reset (R49). Where R49 gives no value (the data of the sources and all of `env`) the values are
those of log 8. -/
def State.reset : State where
  bw := { isOpen := false, acc := 0, cnt := 0, total := 0 }
  br := { isOpen := false, byte := 0, cnt := 0, total := 0 }
  dec := { active := false, node := 0 }
  cfg := { treecfg := 0, rdctl := 0, rdlimit := 0 }
  res := { result := 0, errinfo := 0, errlog := 0 }
  tree := []
  ctab := []
  bsink := { held := false, data := [], bad := false }
  bsrc := { held := false, data := [] }
  ssink := { held := false, data := [], bad := false }
  ssrc := { held := false, data := [] }
  env := { script := [], draws := [], answered := 0, freeIdx := 0, readData := 0 }

end Sys2Proof.Machine
end

