-- ==== Sys2Proof/Machine/Ops.lean ====
section
/-! DEFINITION. The named operations over the state: the memories, the draws, the four ports (R9), and the two ways a
command ends, `done` and `raise` (R10). `raise` is the block's only exception entry (R260); there is no return from it,
because nothing is entered (R264). -/

namespace Sys2Proof.Machine

/-! ### Memories -/

/-- The word at an index, if one has been written since reset (R50). -/
def Mem.read : Mem → Nat → Option Word
  | [], _ => none
  | (b, w) :: m, a => if a = b then some w else Mem.read m a

/-- Replace the word at an index (R66, R70), keeping the list strictly rising. -/
def Mem.write : Mem → Nat → Word → Mem
  | [], a, v => [(a, v)]
  | (b, w) :: m, a, v =>
    if a < b then (a, v) :: (b, w) :: m
    else if a = b then (a, v) :: m
    else (b, w) :: Mem.write m a v

/-- The canonical form of a memory: indices strictly rising. -/
abbrev Mem.rising (m : Mem) : Prop := m.Pairwise fun x y => x.1 < y.1

/-- The canonical form of `TREE`: rising, indices 0 to 511 (R46). -/
abbrev Mem.treeWf (m : Mem) : Prop := Mem.rising m ∧ ∀ c ∈ m, c.1 < 512

/-- The canonical form of `CTAB`: rising, and only words 0 to 8 of the 256 entries exist (R47, R74). -/
abbrev Mem.ctabWf (m : Mem) : Prop := Mem.rising m ∧ ∀ c ∈ m, c.1 < 4096 ∧ c.1 % 16 ≤ 8

/-- The canonical form of both memories. -/
abbrev State.memWf (s : State) : Prop := Mem.treeWf s.tree ∧ Mem.ctabWf s.ctab

/-- `MemRead(TREE, n, 1)` (R8), `none` for a word never written since reset. -/
def State.treeAt (s : State) (n : NodeIdx) : Option Word := Mem.read s.tree n.toNat

/-- The offset of word `k` of entry `x` in the `CTAB` window (R70). -/
def ctabOffset (x : Symbol) (k : Nat) : Nat := 16 * x.toNat + k

/-- `MemRead(CTAB, x, k)` (R8), `none` for a word never written since reset. -/
def State.ctabAt (s : State) (x : Symbol) (k : Nat) : Option Word := Mem.read s.ctab (ctabOffset x k)

/-! ### Draws (R9, U12; log 2) -/

/-- Whether the environment answers `fail` to the next port operation: the next answer it has fixed, else a free
value. -/
def Environment.fails (e : Environment) : Bool :=
  match e.draws with
  | d :: _ => d
  | [] => Config.portFails e.answered

/-- The environment after its next answer. -/
def Environment.advance (e : Environment) : Environment :=
  { e with draws := e.draws.tail, answered := e.answered + 1 }

/-- The next draw of a state. -/
def State.drawFails (s : State) : Bool := s.env.fails

/-- A state after its next draw. -/
def State.afterDraw (s : State) : State := { s with env := s.env.advance }

/-! ### Ports (R9, R36) -/

/-- The sink behind a sink port. -/
def State.sink (s : State) : SinkPort → Sink
  | .bsink => s.bsink
  | .ssink => s.ssink

/-- Replace the sink behind a sink port. -/
def State.setSink (s : State) (p : SinkPort) (k : Sink) : State :=
  match p with
  | .bsink => { s with bsink := k }
  | .ssink => { s with ssink := k }

/-- The source behind a source port. -/
def State.source (s : State) : SourcePort → Source
  | .bsrc => s.bsrc
  | .ssrc => s.ssrc

/-- Replace the source behind a source port. -/
def State.setSource (s : State) (p : SourcePort) (k : Source) : State :=
  match p with
  | .bsrc => { s with bsrc := k }
  | .ssrc => { s with ssrc := k }

/-- `Acquire` of a sink: `true` for `ok`, and then the port is held, its content empty and `bad` clear (R9, R36). -/
def State.acquireSink (s : State) (p : SinkPort) : Bool × State :=
  if s.drawFails then (false, s.afterDraw)
  else (true, s.afterDraw.setSink p { held := true, data := [], bad := false })

/-- `Release` of a sink: not held; it changes no content (R9). -/
def State.releaseSink (s : State) (p : SinkPort) : State :=
  s.setSink p { s.sink p with held := false }

/-- `Put`: `true` for `ok`, and then the item is appended; on `fail` the sink is `bad` and its content free (R9, R36,
U1; log 3). -/
def State.put (s : State) (p : SinkPort) (v : BitVec 8) : Bool × State :=
  if s.drawFails then
    let t := s.afterDraw
    (false, { t.setSink p { t.sink p with data := Config.sinkAfterFailure t.env.freeIdx, bad := true } with
      env := { t.env with freeIdx := t.env.freeIdx + 1 } })
  else (true, s.afterDraw.setSink p { s.sink p with data := (s.sink p).data ++ [v] })

/-- `Acquire` of a source: `true` for `ok`, and then the port is held (R9). -/
def State.acquireSource (s : State) (p : SourcePort) : Bool × State :=
  if s.drawFails then (false, s.afterDraw)
  else (true, s.afterDraw.setSource p { s.source p with held := true })

/-- `Release` of a source: not held; it changes no content (R9). -/
def State.releaseSource (s : State) (p : SourcePort) : State :=
  s.setSource p { s.source p with held := false }

/-- The answers of `Get` (R9). -/
inductive Got where
  | item (v : BitVec 8)
  | eof
  | fail
  deriving DecidableEq, Repr

/-- `Get`: the first remaining item, which is removed; `eof` exactly when none remains and the environment does not
answer `fail`; `eof` and `fail` remove nothing (R9). -/
def State.get (s : State) (p : SourcePort) : Got × State :=
  if s.drawFails then (.fail, s.afterDraw)
  else
    match (s.source p).data with
    | [] => (.eof, s.afterDraw)
    | v :: vs => (.item v, s.afterDraw.setSource p { s.source p with data := vs })

/-! ### The end of a command (R10) -/

/-- The failures of R250, each with the fields of `ERRINFO` it uses (R39). -/
inductive Failure where
  /-- `IoFailure` with `PORT` = 1 or 3 (R251). -/
  | ioSink (p : SinkPort)
  /-- `IoFailure` with `PORT` = 2 or 4 (R251). -/
  | ioSource (p : SourcePort)
  /-- `UnknownSymbol` (R252). -/
  | unknownSymbol (x : Symbol)
  /-- `MalformedStream`, cause 1 (R253). -/
  | absentChild (node : NodeIdx) (b : Bool)
  /-- `MalformedStream`, cause 2 (R253). -/
  | midCode (node : NodeIdx)
  /-- `IllegalCommand` (R255). -/
  | illegalCommand
  /-- `BadState` (R256). -/
  | badState
  /-- `EndOfStream` (R257). -/
  | endOfStream
  deriving DecidableEq, Repr

/-- The result code of a failure (R250). -/
def Failure.code : Failure → BitVec 4
  | .ioSink _ => 1
  | .ioSource _ => 1
  | .unknownSymbol _ => 2
  | .absentChild _ _ => 3
  | .midCode _ => 3
  | .illegalCommand => 4
  | .badState => 5
  | .endOfStream => 6

/-- The layout of `ERRINFO` (R39): `PORT` [22:20], `CAUSE` [19:18], `BIT` [17], `NODE` [16:8], `SYM` [7:0]. -/
def errinfoWord (port : BitVec 3) (cause : BitVec 2) (b : Bool) (node : NodeIdx) (sym : Symbol) : Word :=
  (0 : BitVec 9) ++ port ++ cause ++ BitVec.ofBool b ++ node ++ sym

/-- What a failure writes to `ERRINFO`; fields it does not use are 0 (R39, R250). -/
def Failure.info : Failure → Word
  | .ioSink .bsink => errinfoWord 1 0 false 0 0
  | .ioSource .bsrc => errinfoWord 2 0 false 0 0
  | .ioSink .ssink => errinfoWord 3 0 false 0 0
  | .ioSource .ssrc => errinfoWord 4 0 false 0 0
  | .unknownSymbol x => errinfoWord 0 0 false 0 x
  | .absentChild n b => errinfoWord 0 1 b n 0
  | .midCode n => errinfoWord 0 2 false n 0
  | .illegalCommand => 0
  | .badState => 0
  | .endOfStream => 0

/-- The layout of `RESULT` (R38): `OPC` [31:24], `SYM` [23:16], `EMIT` [9], `VAL` [8], `CODE` [3:0]. -/
def resultWord (opc : BitVec 8) (sym : Symbol) (emit val : Bool) (code : BitVec 4) : Word :=
  opc ++ sym ++ (0 : BitVec 6) ++ BitVec.ofBool emit ++ BitVec.ofBool val ++ (0 : BitVec 4) ++ code

/-- The bit of `ERRLOG` that records a result code (R40). -/
def logBit (code : BitVec 4) : Word := 1 <<< code.toNat

/-- The arguments of `done` (R10); omitted ones are 0. -/
structure Reply where
  val : Bool := false
  emit : Bool := false
  sym : Symbol := 0
  deriving DecidableEq, Repr

/-- `done(val, emit, sym)` (R10): `ERRINFO` and `ERRLOG` keep their values. -/
def State.done (s : State) (opc : BitVec 8) (r : Reply) : State :=
  { s with res := { s.res with result := resultWord opc r.sym r.emit r.val 0 } }

/-- `raise E(info)` (R10, R260): the one way a command records a failure. -/
def State.raise (s : State) (opc : BitVec 8) (e : Failure) : State :=
  { s with res := { result := resultWord opc 0 false false e.code, errinfo := e.info,
                    errlog := s.res.errlog ||| logBit e.code } }

/-- `note E` (R10, R262): only the bit of `ERRLOG`. -/
def State.note (s : State) (e : Failure) : State :=
  { s with res := { s.res with errlog := s.res.errlog ||| logBit e.code } }

/-- How a procedure ends: with a value, or with a `raise` that ends the whole command (R8). What the pseudocode did
before the `raise` stands in the state; the record itself is made once, by `State.finish` (log 13). -/
inductive Res (α : Type) where
  | ok (a : α) (s : State)
  | raised (e : Failure) (s : State)
  deriving Repr

/-- Go on after a procedure that returned; a `raise` ends the command. -/
def Res.andThen {α β : Type} (r : Res α) (f : α → State → Res β) : Res β :=
  match r with
  | .ok a s => f a s
  | .raised e s => .raised e s

/-- The end of a command: `done` or `raise` (R10). -/
def State.finish (opc : BitVec 8) (r : Res Reply) : State :=
  match r with
  | .ok a s => s.done opc a
  | .raised e s => s.raise opc e

/-- The end of a command that reads `TREE` or `CTAB`: the model stops where it read an unwritten word (R50, log 5). -/
def finishRead (opc : BitVec 8) (r : Except Fault (Res Reply)) : Host.Outcome State Fault Refusal :=
  match r with
  | .ok a => .next (State.finish opc a)
  | .error f => .fault f

/-- A write to `CMD` of a word that is no command (R255): `IllegalCommand` and nothing else. -/
def execIllegal (w : Word) (s : State) : Host.Outcome State Fault Refusal :=
  .next (s.raise (fieldOpc w) .illegalCommand)

end Sys2Proof.Machine
end

