-- ==== Sys2Proof/Machine/Flags.lean ====
section
/-! DEFINITION. The predicates and the live status of the block: the fields of the configuration registers, `HasNext()`
(R31), the lock (R76) and `STATUS` (R41). There are no other flags (R31, R32). -/

namespace Sys2Proof.Machine

/-- `TREECFG.ROOT` (R33). -/
def State.treeRoot (s : State) : NodeIdx := s.cfg.treecfg.extractLsb' 0 9

/-- `TREECFG.PRESENT` (R33). -/
def State.treePresent (s : State) : Bool := s.cfg.treecfg.getLsbD 9

/-- `RDCTL.LIMEN` (R34). -/
def State.limited (s : State) : Bool := s.cfg.rdctl.getLsbD 0

/-- `HasNext()` (R31). -/
def State.hasNext (s : State) : Bool :=
  s.br.isOpen && decide (0 < s.br.cnt.toNat) &&
    (!s.limited || decide (s.br.total.toNat < s.cfg.rdlimit.toNat))

/-- The lock (R76). -/
def State.locked (s : State) : Bool := s.bw.isOpen || s.br.isOpen || s.dec.active

/-- `STATUS` (R41). -/
def State.status (s : State) : Word :=
  s.br.byte ++ s.bw.acc ++ (0 : BitVec 4) ++ s.br.cnt ++ (0 : BitVec 1) ++ s.bw.cnt ++
    BitVec.ofBool s.hasNext ++ BitVec.ofBool s.dec.active ++ BitVec.ofBool s.br.isOpen ++
    BitVec.ofBool s.bw.isOpen

end Sys2Proof.Machine
end

