-- ==== Sys2Proof/Machine/Bus.lean ====
section
/-! DEFINITION. The host's side: the register map (R62, R63), host reads and writes (R75), the lock (R76), loading a
source port (R296) and the hard reset (R280). -/

namespace Sys2Proof.Machine

/-- What a register-space address names (R62). -/
inductive Loc where
  | cmd
  | result
  | errinfo
  | errlog
  | status
  | treecfg
  | rdctl
  | rdlimitLo
  | rdlimitHi
  | wrtotalLo
  | wrtotalHi
  | rdtotalLo
  | rdtotalHi
  | decnode
  | ident
  /-- `TREE[i]` (R66). -/
  | tree (i : Nat)
  /-- Word `off % 16` of entry `off / 16` of `CTAB` (R70). -/
  | ctab (off : Nat)
  /-- Reserved (R63, R74). -/
  | reserved
  deriving DecidableEq, Repr

/-- The registers below 0x0010 (R62); 0x0007 is reserved. -/
def locateReg : Nat → Loc
  | 0x0 => .cmd
  | 0x1 => .result
  | 0x2 => .errinfo
  | 0x3 => .errlog
  | 0x4 => .status
  | 0x5 => .treecfg
  | 0x6 => .rdctl
  | 0x8 => .rdlimitLo
  | 0x9 => .rdlimitHi
  | 0xA => .wrtotalLo
  | 0xB => .wrtotalHi
  | 0xC => .rdtotalLo
  | 0xD => .rdtotalHi
  | 0xE => .decnode
  | 0xF => .ident
  | _ => .reserved

/-- The register map (R62, R63, R66, R70, R74). -/
def locate (a : RegAddr) : Loc :=
  if a.toNat < 0x10 then locateReg a.toNat
  else if 0x800 ≤ a.toNat ∧ a.toNat < 0xA00 then .tree (a.toNat - 0x800)
  else if 0x1000 ≤ a.toNat ∧ a.toNat < 0x2000 ∧ a.toNat % 16 ≤ 8 then .ctab (a.toNat - 0x1000)
  else .reserved

/-- The low half of a counter (R35, R42, R43). -/
def lowHalf (c : Count) : Word := c.extractLsb' 0 32

/-- The high half of a counter (R35, R42, R43). -/
def highHalf (c : Count) : Word := c.extractLsb' 32 32

/-- What a host read answers (R37 to R45, R63, R66, R70); a memory word never written since reset answers a free value
(U2; log 4). -/
def State.readLoc (s : State) : Loc → Word
  | .cmd => 0
  | .result => s.res.result
  | .errinfo => s.res.errinfo
  | .errlog => s.res.errlog
  | .status => s.status
  | .treecfg => s.cfg.treecfg.setWidth 32
  | .rdctl => s.cfg.rdctl.setWidth 32
  | .rdlimitLo => lowHalf s.cfg.rdlimit
  | .rdlimitHi => highHalf s.cfg.rdlimit
  | .wrtotalLo => lowHalf s.bw.total
  | .wrtotalHi => highHalf s.bw.total
  | .rdtotalLo => lowHalf s.br.total
  | .rdtotalHi => highHalf s.br.total
  | .decnode => s.dec.node.setWidth 32
  | .ident => Config.idWord
  | .tree i => (Mem.read s.tree i).getD (Config.unwrittenTree s.env.freeIdx i)
  | .ctab off => (Mem.read s.ctab off).getD (Config.unwrittenCtab s.env.freeIdx off)
  | .reserved => 0

/-- The locations the lock protects (R76). -/
def Loc.lockable : Loc → Bool
  | .treecfg | .rdctl | .rdlimitLo | .rdlimitHi | .tree _ | .ctab _ => true
  | .cmd | .result | .errinfo | .errlog | .status | .wrtotalLo | .wrtotalHi | .rdtotalLo | .rdtotalHi | .decnode
  | .ident | .reserved => false

/-- A write that takes effect: the value is stored at a writable location; read-only and reserved locations ignore it
(R33 to R35, R63, R66, R70). `CMD` is not written here: its write executes a command (R37). -/
def State.storeLoc (s : State) (v : Word) : Loc → State
  | .treecfg => { s with cfg := { s.cfg with treecfg := v.setWidth 10 } }
  | .rdctl => { s with cfg := { s.cfg with rdctl := v.setWidth 1 } }
  | .rdlimitLo => { s with cfg := { s.cfg with rdlimit := highHalf s.cfg.rdlimit ++ v } }
  | .rdlimitHi => { s with cfg := { s.cfg with rdlimit := v ++ lowHalf s.cfg.rdlimit } }
  | .tree i => { s with tree := Mem.write s.tree i v }
  | .ctab off => { s with ctab := Mem.write s.ctab off v }
  | .cmd | .result | .errinfo | .errlog | .status | .wrtotalLo | .wrtotalHi | .rdtotalLo | .rdtotalHi | .decnode
  | .ident | .reserved => s

/-- `ERRLOG.LOCKVIOL <- 1` (R40, R76). -/
def State.noteLock (s : State) : State :=
  { s with res := { s.res with errlog := s.res.errlog ||| 0x100 } }

/-- A host write to a location other than `CMD` (R76). -/
def State.writeLoc (s : State) (v : Word) (l : Loc) : State :=
  if l.lockable && s.locked then s.noteLock else s.storeLoc v l

/-- A host read: the answer goes to the host and no state of the block changes (R75; log 9). -/
def State.hostRead (s : State) (a : RegAddr) : State :=
  { s with env := { s.env with readData := s.readLoc (locate a) } }

/-- The host sets the content of a source port (R36, R296). A load while the port is held is no move of the environment
(R291, U11; log 7). -/
def loadSource (p : SourcePort) (items : List (BitVec 8)) (s : State) : Host.Outcome State Fault Refusal :=
  if (s.source p).held then .refused (.sourceHeld p)
  else .next (s.setSource p { held := false, data := items })

/-- The hard reset (R280, R49): every piece of state at its reset value but the data of the source ports, which reset
does not change. What is outside the block (`env`) stays. -/
def State.hardReset (s : State) : State :=
  { State.reset with
    bsrc := { held := false, data := s.bsrc.data }
    ssrc := { held := false, data := s.ssrc.data }
    env := s.env }

/-- The host's next action is taken: a read leaves the free values as they are, so that reading twice in a row answers
the same (R75); after any other action they are fresh (log 4). -/
def Environment.take (e : Environment) (a : HostAction) (rest : List HostAction) : Environment :=
  match a with
  | .read _ => { e with script := rest }
  | .write _ _ | .load _ _ | .hardReset => { e with script := rest, freeIdx := e.freeIdx + 1 }

/-- The state in which an action of the host is carried out. -/
def State.take (s : State) (a : HostAction) (rest : List HostAction) : State :=
  { s with env := s.env.take a rest }

end Sys2Proof.Machine
end

