-- ==== Sys2Proof/Machine/BitWriter.lean ====
section
/-! DEFINITION. The bit writer: `OpenWriter`, `WriteBit`, `CloseWriter` (R131, R133, R135) and the commands
`BW.OPEN`, `BW.WRITEBIT`, `BW.CLOSE` (R132, R134, R136). -/

namespace Sys2Proof.Machine

/-- `v[i] <- b` in a byte: no other bit changes. -/
def setByteBit (v : Byte) (i : Nat) (b : Bool) : Byte :=
  if b then v ||| ((1 : Byte) <<< i) else v &&& ~~~((1 : Byte) <<< i)

/-- `WR_ACC <- 0; WR_CNT <- 0`. -/
def State.clearAcc (s : State) : State := { s with bw := { s.bw with acc := 0, cnt := 0 } }

/-- `Release(BSINK); WR_OPEN <- 0`. -/
def State.dropWriter (s : State) : State :=
  let t := s.releaseSink .bsink
  { t with bw := { t.bw with isOpen := false } }

/-- The registers of a writer just opened (R131). -/
def State.startWriter (s : State) : State :=
  { s with bw := { isOpen := true, acc := 0, cnt := 0, total := 0 } }

/-- `OpenWriter()` (R131). -/
def openWriter (s : State) : Res Unit :=
  match s.acquireSink .bsink with
  | (false, t) => .raised (.ioSink .bsink) t
  | (true, t) => .ok () t.startWriter

/-- The first two lines of `WriteBit` (R133): the bit goes to place `7 - WR_CNT`, and it is counted. -/
def State.placeBit (s : State) (b : Bool) : State :=
  { s with bw := { s.bw with acc := setByteBit s.bw.acc (7 - s.bw.cnt.toNat) b, total := s.bw.total + 1 } }

/-- `WriteBit(b)` (R133). -/
def writeBit (b : Bool) (s : State) : Res Unit :=
  let t := s.placeBit b
  if s.bw.cnt.toNat < 7 then .ok () { t with bw := { t.bw with cnt := t.bw.cnt + 1 } }
  else
    match t.put .bsink t.bw.acc with
    | (true, u) => .ok () u.clearAcc
    | (false, u) => .raised (.ioSink .bsink) u.clearAcc.dropWriter

/-- `CloseWriter()` (R135): `true` for `ok`. -/
def closeWriter (s : State) : Bool × State :=
  if 0 < s.bw.cnt.toNat then
    match s.put .bsink s.bw.acc with
    | (r, t) => (r, t.clearAcc.dropWriter)
  else (true, s.clearAcc.dropWriter)

/-- `BW.OPEN` (R132). -/
def execBwOpen (s : State) : Host.Outcome State Fault Refusal :=
  .next <| State.finish 0x10 <|
    if s.bw.isOpen then .raised .badState s
    else (openWriter s).andThen fun _ t => .ok {} t

/-- `BW.WRITEBIT b` (R134). -/
def execBwWritebit (b : Bool) (s : State) : Host.Outcome State Fault Refusal :=
  .next <| State.finish 0x11 <|
    if s.bw.isOpen then (writeBit b s).andThen fun _ t => .ok {} t
    else .raised .badState s

/-- `BW.CLOSE` (R136). -/
def execBwClose (s : State) : Host.Outcome State Fault Refusal :=
  .next <| State.finish 0x12 <|
    if s.bw.isOpen then
      match closeWriter s with
      | (true, t) => .ok {} t
      | (false, t) => .raised (.ioSink .bsink) t
    else .raised .badState s

end Sys2Proof.Machine
end

