-- ==== Sys2Proof/Machine/Operands.lean ====
section
/-! DEFINITION. The operands a command takes from memory: the node word of `TREE` (R67, R68) and the entry of `CTAB`
(R71 to R73). The operand a command word itself carries is taken apart by the decoder (R102). -/

namespace Sys2Proof.Machine

/-- `IsLeaf(w)` (R68). -/
def nodeIsLeaf (w : Word) : Bool := w.getLsbD 31

/-- `HasChild(w, b)` (R68): `LV` is bit 30, `RV` bit 29, and a leaf word has no children. -/
def nodeHasChild (w : Word) (b : Bool) : Bool :=
  !nodeIsLeaf w && (if b then w.getLsbD 29 else w.getLsbD 30)

/-- `Child(w, b)` (R68): `LEFT` is [26:18], `RIGHT` is [17:9]. -/
def nodeChild (w : Word) (b : Bool) : NodeIdx :=
  if b then w.extractLsb' 9 9 else w.extractLsb' 18 9

/-- `SYM` of a leaf word (R67). -/
def nodeSym (w : Word) : Symbol := w.extractLsb' 0 8

/-- `VALID` of an entry's header (R71). -/
def entryValid (h : Word) : Bool := h.getLsbD 31

/-- `LEN` of an entry's header (R71). -/
def entryLen (h : Word) : Nat := (h.extractLsb' 0 8).toNat

/-- The word of an entry that holds code bit `i` (R73). -/
def codeBitWord (i : Nat) : Nat := 1 + i / 32

/-- The place of code bit `i` in its word (R73). -/
def codeBitPlace (i : Nat) : Nat := 31 - i % 32

/-- Read a `TREE` word for a command (R50, log 5). -/
def State.readNode (s : State) (n : NodeIdx) : Except Fault Word :=
  match s.treeAt n with
  | some w => .ok w
  | none => .error (.unwrittenTree n.toNat)

/-- Read a `CTAB` word for a command (R50, log 5). -/
def State.readEntry (s : State) (x : Symbol) (k : Nat) : Except Fault Word :=
  match s.ctabAt x k with
  | some w => .ok w
  | none => .error (.unwrittenCtab x.toNat k)

/-- `CodeBit(x, i)` (R73). -/
def State.codeBit (s : State) (x : Symbol) (i : Nat) : Except Fault Bool :=
  match s.readEntry x (codeBitWord i) with
  | .ok w => .ok (w.getLsbD (codeBitPlace i))
  | .error f => .error f

end Sys2Proof.Machine
end

