-- ==== Sys2Proof/Machine/Encoder.lean ====
section
/-! DEFINITION. The static-table encoder: `EncSym` (R172) and the commands `ENC.SYM`, `ENC.RUN` (R174, R176). -/

namespace Sys2Proof.Machine

/-- The loop of `EncSym` (R172): the `n` code bits of symbol `x` from bit `i` on. A code word is read when its first
bit is written (log 6). -/
def encBits (x : Symbol) : Nat → Nat → State → Except Fault (Res Unit)
  | _, 0, s => .ok (.ok () s)
  | i, n + 1, s =>
    match s.codeBit x i with
    | .error f => .error f
    | .ok b =>
      match writeBit b s with
      | .raised e t => .ok (.raised e t)
      | .ok _ t => encBits x (i + 1) n t

/-- `CloseWriter` as a clean-up after a first failure: a failure of its own is only noted (R262). -/
def closeNoting (s : State) : State :=
  match closeWriter s with
  | (true, t) => t
  | (false, t) => t.note (.ioSink .bsink)

/-- `EncSym(x)` (R172). -/
def encSym (x : Symbol) (s : State) : Except Fault (Res Unit) :=
  match s.readEntry x 0 with
  | .error f => .error f
  | .ok h =>
    if entryValid h then encBits x 0 (entryLen h) s
    else .ok (.raised (.unknownSymbol x) (closeNoting s))

/-- `ENC.SYM x` (R174). -/
def execEncSym (x : Symbol) (s : State) : Host.Outcome State Fault Refusal :=
  finishRead 0x30 <|
    if s.bw.isOpen then
      match encSym x s with
      | .error f => .error f
      | .ok r => .ok (r.andThen fun _ t => .ok { sym := x } t)
    else .ok (.raised .badState s)

/-- The loop of `ENC.RUN` (R176). The number bounds the turns: every turn but the last takes an item of `SSRC`, so
as many turns as `SSRC` has items are enough (log 14). -/
def encLoop : Nat → State → Except Fault (Res Unit)
  | n, s =>
    match s.get .ssrc with
    | (.eof, t) => .ok (.ok () t)
    | (.fail, t) => .ok (.raised (.ioSource .ssrc) ((closeNoting t).releaseSource .ssrc))
    | (.item x, t) =>
      match encSym x t with
      | .error f => .error f
      | .ok (.raised e u) => .ok (.raised e (u.releaseSource .ssrc))
      | .ok (.ok _ u) =>
        match n with
        | 0 => .ok (.ok () u)
        | m + 1 => encLoop m u

/-- The close step of `ENC.RUN` (R176). -/
def encClose (s : State) : Res Reply :=
  match closeWriter s with
  | (true, t) => .ok {} (t.releaseSource .ssrc)
  | (false, t) => .raised (.ioSink .bsink) (t.releaseSource .ssrc)

/-- The body of `ENC.RUN` once both ports are held and the writer is open (R176). -/
def encBody (s : State) : Except Fault (Res Reply) :=
  match encLoop s.ssrc.data.length s with
  | .error f => .error f
  | .ok r => .ok (r.andThen fun _ t => encClose t)

/-- `ENC.RUN` (R176). -/
def execEncRun (s : State) : Host.Outcome State Fault Refusal :=
  finishRead 0x31 <|
    if s.bw.isOpen then .ok (.raised .badState s)
    else
      match s.acquireSource .ssrc with
      | (false, t) => .ok (.raised (.ioSource .ssrc) t)
      | (true, t) =>
        match openWriter t with
        | .raised e u => .ok (.raised e (u.releaseSource .ssrc))
        | .ok _ u => encBody u

end Sys2Proof.Machine
end

