-- ==== Sys2Proof/Machine/SystemUnit.lean ====
section
/-! DEFINITION. The system commands `NOP` and `SRST` (R211, R212). -/

namespace Sys2Proof.Machine

/-- `NOP` (R211). -/
def execNop (s : State) : Host.Outcome State Fault Refusal :=
  .next <| State.finish 0x00 <| .ok {} s

/-- What `SRST` clears (R212): the unit registers, the counters, `DEC_NODE`, `ERRINFO`, `ERRLOG` and every `held`.
Configuration, memories and the content of the ports stay; a pending partial byte is lost. -/
def State.softReset (s : State) : State :=
  { s with
    bw := { isOpen := false, acc := 0, cnt := 0, total := 0 }
    br := { isOpen := false, byte := 0, cnt := 0, total := 0 }
    dec := { active := false, node := 0 }
    res := { s.res with errinfo := 0, errlog := 0 }
    bsink := { s.bsink with held := false }
    bsrc := { s.bsrc with held := false }
    ssink := { s.ssink with held := false }
    ssrc := { s.ssrc with held := false } }

/-- `SRST` (R212). -/
def execSrst (s : State) : Host.Outcome State Fault Refusal :=
  .next <| State.finish 0x01 <| .ok {} s.softReset

end Sys2Proof.Machine
end

