-- ==== Sys2Proof/Machine/BitReader.lean ====
section
/-! DEFINITION. The bit reader: `Refill`, `OpenReader`, `ReadBit`, `CloseReader` (R152, R151, R153, R156) and the
commands `BR.OPEN`, `BR.HASNEXT`, `BR.READBIT`, `BR.CLOSE` (R154, R155, R157, R158). -/

namespace Sys2Proof.Machine

/-- `RD_BYTE <- v; RD_CNT <- n`. -/
def State.setRead (s : State) (v : Byte) (n : BitVec 4) : State :=
  { s with br := { s.br with byte := v, cnt := n } }

/-- `Refill()` (R152): `true` for `ok`. -/
def refill (s : State) : Bool × State :=
  match s.get .bsrc with
  | (.item v, t) => (true, t.setRead v 8)
  | (.eof, t) => (true, t.setRead 0 0)
  | (.fail, t) => (false, t.setRead 0 0)

/-- `Release(BSRC); RD_OPEN <- 0`. -/
def State.dropReader (s : State) : State :=
  let t := s.releaseSource .bsrc
  { t with br := { t.br with isOpen := false } }

/-- `OpenReader()` (R151). -/
def openReader (s : State) : Res Unit :=
  match s.acquireSource .bsrc with
  | (false, t) => .raised (.ioSource .bsrc) t
  | (true, t) =>
    match refill { t with br := { t.br with total := 0 } } with
    | (false, u) => .raised (.ioSource .bsrc) (u.releaseSource .bsrc)
    | (true, u) => .ok () { u with br := { u.br with isOpen := true } }

/-- `ReadBit()` (R153). A failed read-ahead takes the bit with it. -/
def readBit (s : State) : Res Bool :=
  let b := s.br.byte.getLsbD (s.br.cnt.toNat - 1)
  let t := { s with br := { s.br with cnt := s.br.cnt - 1, total := s.br.total + 1 } }
  if t.br.cnt = 0 then
    match refill t with
    | (false, u) => .raised (.ioSource .bsrc) u.dropReader
    | (true, u) => .ok b u
  else .ok b t

/-- `CloseReader()` (R156). -/
def closeReader (s : State) : State := (s.setRead 0 0).dropReader

/-- `BR.OPEN` (R154). -/
def execBrOpen (s : State) : Host.Outcome State Fault Refusal :=
  .next <| State.finish 0x20 <|
    if s.br.isOpen then .raised .badState s
    else (openReader s).andThen fun _ t => .ok {} t

/-- `BR.HASNEXT` (R155). -/
def execBrHasnext (s : State) : Host.Outcome State Fault Refusal :=
  .next <| State.finish 0x21 <|
    if s.br.isOpen then .ok { val := s.hasNext } s
    else .raised .badState s

/-- `BR.READBIT` (R157). -/
def execBrReadbit (s : State) : Host.Outcome State Fault Refusal :=
  .next <| State.finish 0x22 <|
    if s.br.isOpen then
      if s.hasNext then (readBit s).andThen fun b t => .ok { val := b } t
      else .raised .endOfStream s
    else .raised .badState s

/-- `BR.CLOSE` (R158). -/
def execBrClose (s : State) : Host.Outcome State Fault Refusal :=
  .next <| State.finish 0x23 <|
    if s.br.isOpen then .ok {} (closeReader s)
    else .raised .badState s

end Sys2Proof.Machine
end

