-- ==== Sys2Proof/Machine/TreeDecoder.lean ====
section
/-! DEFINITION. The static-tree decoder: `StartDecode`, `AbortDecode`, `DecBit`, `EndDecode` (R190, R195, R192, R194)
and the commands `DEC.START`, `DEC.BIT`, `DEC.END`, `DEC.RUN` (R191, R193, R196, R203). -/

namespace Sys2Proof.Machine

/-- `DEC_NODE <- n`. -/
def State.setNode (s : State) (n : NodeIdx) : State := { s with dec := { s.dec with node := n } }

/-- `DEC_NODE <- TREECFG.ROOT; DEC_ACTIVE <- 1`. -/
def State.startNode (s : State) : State := { s with dec := { active := true, node := s.treeRoot } }

/-- `Release(SSINK); DEC_ACTIVE <- 0`. -/
def State.dropDecode (s : State) : State :=
  let t := s.releaseSink .ssink
  { t with dec := { t.dec with active := false } }

/-- `StartDecode()` (R190). -/
def startDecode (s : State) : Res Unit :=
  match s.acquireSink .ssink with
  | (false, t) => .raised (.ioSink .ssink) t
  | (true, t) => .ok () t.startNode

/-- `AbortDecode()` (R195). -/
def abortDecode (s : State) : State :=
  let t := s.dropDecode
  if t.br.isOpen then closeReader t else t

/-- What `DecBit` does at a leaf it has arrived at (R192): emit the symbol and go back to the root. -/
def emitLeaf (b : Bool) (w : Word) (s : State) : Res Reply :=
  match s.put .ssink (nodeSym w) with
  | (false, t) => .raised (.ioSink .ssink) (abortDecode t)
  | (true, t) => .ok { val := b, emit := true, sym := nodeSym w } (t.setNode t.treeRoot)

/-- `DecBit()` from the bit on (R192): follow the edge `b` of the current node. -/
def followEdge (b : Bool) (s : State) : Except Fault (Res Reply) :=
  match s.readNode s.dec.node with
  | .error f => .error f
  | .ok w =>
    if nodeHasChild w b then
      match s.readNode (nodeChild w b) with
      | .error f => .error f
      | .ok w2 =>
        if nodeIsLeaf w2 then .ok (emitLeaf b w2 s)
        else .ok (.ok { val := b } (s.setNode (nodeChild w b)))
    else .ok (.raised (.absentChild s.dec.node b) (abortDecode s))

/-- `DecBit()` (R192). When `ReadBit` raises it has closed the reader already; the decode session ends too. -/
def decBit (s : State) : Except Fault (Res Reply) :=
  match readBit s with
  | .raised e t => .ok (.raised e t.dropDecode)
  | .ok b t => followEdge b t

/-- `EndDecode()` (R194). -/
def endDecode (s : State) : Res Unit :=
  if s.dec.node = s.treeRoot then .ok () s.dropDecode
  else .raised (.midCode s.dec.node) (abortDecode s)

/-- `DEC.START` (R191). -/
def execDecStart (s : State) : Host.Outcome State Fault Refusal :=
  .next <| State.finish 0x40 <|
    if s.dec.active || !s.treePresent then .raised .badState s
    else (startDecode s).andThen fun _ t => .ok {} t

/-- `DEC.BIT` (R193). -/
def execDecBit (s : State) : Host.Outcome State Fault Refusal :=
  finishRead 0x41 <|
    if !s.dec.active || !s.br.isOpen then .ok (.raised .badState s)
    else if s.hasNext then decBit s
    else .ok (.raised .endOfStream s)

/-- `DEC.END` (R196). -/
def execDecEnd (s : State) : Host.Outcome State Fault Refusal :=
  .next <| State.finish 0x42 <|
    if s.dec.active then (endDecode s).andThen fun _ t => .ok {} t
    else .raised .badState s

/-- The number of bits the reader can still hand out: those of `RD_BYTE` and those of the bytes of `BSRC`. Every
`ReadBit` takes one of them, so it bounds the turns of `DEC.RUN` (R203, R299; log 14). -/
def State.bitsLeft (s : State) : Nat := s.br.cnt.toNat + 8 * s.bsrc.data.length

/-- The loop of `DEC.RUN` (R203): `DecBit` while `HasNext()`. -/
def decLoop : Nat → State → Except Fault (Res Unit)
  | 0, s => .ok (.ok () s)
  | n + 1, s =>
    if s.hasNext then
      match decBit s with
      | .error f => .error f
      | .ok (.raised e t) => .ok (.raised e t)
      | .ok (.ok _ t) => decLoop n t
    else .ok (.ok () s)

/-- The end of `DEC.RUN` after its loop (R203). -/
def decClose (s : State) : Res Reply :=
  (endDecode s).andThen fun _ t => .ok {} (closeReader t)

/-- The body of `DEC.RUN` once the reader is open (R203). -/
def decBody (s : State) : Except Fault (Res Reply) :=
  match startDecode s with
  | .raised e t => .ok (.raised e (closeReader t))
  | .ok _ t =>
    match decLoop t.bitsLeft t with
    | .error f => .error f
    | .ok r => .ok (r.andThen fun _ u => decClose u)

/-- `DEC.RUN` (R203). With the tree absent it touches no port. -/
def execDecRun (s : State) : Host.Outcome State Fault Refusal :=
  finishRead 0x43 <|
    if s.dec.active || s.br.isOpen then .ok (.raised .badState s)
    else if s.treePresent then
      match openReader s with
      | .raised e t => .ok (.raised e t)
      | .ok _ t => decBody t
    else .ok (.ok {} s)

end Sys2Proof.Machine
end

