-- ==== Sys2Proof/Machine/Dispatch.lean ====
section
/-! DEFINITION. One arm per command (R104). -/

namespace Sys2Proof.Machine

def exec (i : Instr) (s : State) : Host.Outcome State Fault Refusal :=
  match i with
  | .nop => Sys2Proof.Machine.execNop s
  | .srst => Sys2Proof.Machine.execSrst s
  | .bwOpen => Sys2Proof.Machine.execBwOpen s
  | .bwWritebit b => Sys2Proof.Machine.execBwWritebit b s
  | .bwClose => Sys2Proof.Machine.execBwClose s
  | .brOpen => Sys2Proof.Machine.execBrOpen s
  | .brHasnext => Sys2Proof.Machine.execBrHasnext s
  | .brReadbit => Sys2Proof.Machine.execBrReadbit s
  | .brClose => Sys2Proof.Machine.execBrClose s
  | .encSym x => Sys2Proof.Machine.execEncSym x s
  | .encRun => Sys2Proof.Machine.execEncRun s
  | .decStart => Sys2Proof.Machine.execDecStart s
  | .decBit => Sys2Proof.Machine.execDecBit s
  | .decEnd => Sys2Proof.Machine.execDecEnd s
  | .decRun => Sys2Proof.Machine.execDecRun s

end Sys2Proof.Machine
end

