-- ==== Sys2Proof/Machine/Step.lean ====
section
/-! DEFINITION. One step: the host's next action (R6, R79, R113, R296; log 1). -/

namespace Sys2Proof.Machine

/-- A write to `CMD` (R37): the command the word encodes, or `IllegalCommand` (R103, R255). -/
def command (w : Word) (s : State) : Host.Outcome State Fault Refusal :=
  match decode w with
  | .ok i => exec i s
  | .error _ => execIllegal w s

/-- A host write (R62, R75). -/
def hostWrite (a : RegAddr) (v : Word) (s : State) : Host.Outcome State Fault Refusal :=
  match locate a with
  | .cmd => command v s
  | l => .next (s.writeLoc v l)

/-- What an action of the host does (R296). -/
def act (a : HostAction) (s : State) : Host.Outcome State Fault Refusal :=
  match a with
  | .write a v => hostWrite a v s
  | .read a => .next (s.hostRead a)
  | .load p items => loadSource p items s
  | .hardReset => .next s.hardReset

/-- One step: the host's next action is taken and carried out. With none left the block is idle and waits for the host:
nothing changes (R280, R298; log 1). -/
def step (s : State) : Host.Outcome State Fault Refusal :=
  match s.env.script with
  | [] => .next s
  | a :: rest => act a (s.take a rest)

/-- The state whose next host action writes the command word `w` to `CMD`: a command stands nowhere in the block, the
host issues it (R6, R28; log 1). The bits above `nbits` are 0. -/
def State.withFetchWord (s : State) (nbits w : Nat) : State :=
  { s with env := { s.env with
      script := .write 0 (BitVec.ofNat 32 (w % 2 ^ nbits)) :: s.env.script } }

end Sys2Proof.Machine
end

