-- ==== Sys2Proof/Machine/Reference.lean ====
section
/-! DEFINITION. The reference functions of `45_reference_functions.md`: the tree held in memory as paths (R220), the
host's TreeBuilder (R224, R226, R227) and CodeTableBuilder (R228), and the compressed stream `Pack`, `Unpack` (R106,
R159). No command calls them: claims about the commands are stated through them. -/

namespace Sys2Proof.Machine

/-! ### The tree held in memory (R220) -/

/-- The child of the node at `i` by bit `b`, if the word is written and the child present. -/
def State.childAt (s : State) (i : NodeIdx) (b : Bool) : Option NodeIdx :=
  match s.treeAt i with
  | some w => if nodeHasChild w b then some (nodeChild w b) else none
  | none => none

/-- The symbol of the node at `i`, if it is a leaf. -/
def State.leafAt (s : State) (i : NodeIdx) : Option Symbol :=
  match s.treeAt i with
  | some w => if nodeIsLeaf w then some (nodeSym w) else none
  | none => none

/-- The end of the path `p` from the node at `i`. -/
def State.walk (s : State) : NodeIdx → List Bool → Option NodeIdx
  | i, [] => some i
  | i, b :: p =>
    match s.childAt i b with
    | some j => s.walk j p
    | none => none

/-- The code bits `i` to `i + n - 1` of an entry, if the words that hold them are written (R72, R73). -/
def State.codeBits (s : State) (x : Symbol) : Nat → Nat → Option (List Bool)
  | _, 0 => some []
  | i, n + 1 =>
    match s.codeBit x i, s.codeBits x (i + 1) n with
    | .ok b, some bs => some (b :: bs)
    | _, _ => none

/-- The code an entry of `CTAB` gives its symbol (R72): none if the entry is invalid, or a word of it unwritten. -/
def State.entryCode (s : State) (x : Symbol) : Option (List Bool) :=
  match s.ctabAt x 0 with
  | some h => if entryValid h then s.codeBits x 0 (entryLen h) else none
  | none => none

/-- The concatenation of the codes of a symbol sequence (R106), if every symbol has one. -/
def State.encodeBits (s : State) : List Symbol → Option (List Bool)
  | [] => some []
  | x :: xs =>
    match s.entryCode x, s.encodeBits xs with
    | some c, some cs => some (c ++ cs)
    | _, _ => none

/-! ### The compressed stream (R106, R107, R159) -/

/-- One byte of the stream: bit `7 - k` is bit `k` of the sequence, 0 past its end. -/
def packByte (l : List Bool) : Byte :=
  BitVec.ofBool (l.getD 0 false) ++ BitVec.ofBool (l.getD 1 false) ++ BitVec.ofBool (l.getD 2 false) ++
    BitVec.ofBool (l.getD 3 false) ++ BitVec.ofBool (l.getD 4 false) ++ BitVec.ofBool (l.getD 5 false) ++
    BitVec.ofBool (l.getD 6 false) ++ BitVec.ofBool (l.getD 7 false)

/-- `Pack(B)` (R106): `ceil(n / 8)` bytes, byte `j` made of the bits `8j` to `8j + 7`. -/
def pack (l : List Bool) : List Byte :=
  (List.range ((l.length + 7) / 8)).map fun j => packByte ((l.drop (8 * j)).take 8)

/-- The bits of a byte in the order they are handed out (R26). -/
def unpackByte (v : Byte) : List Bool := (List.range 8).map fun k => v.getLsbD (7 - k)

/-- `Unpack(y)` (R159). -/
def unpack (l : List Byte) : List Bool := l.flatMap unpackByte

/-! ### The host's builders -/

/-- The host's code tree (R226): a leaf, an internal node with both children, or the root of the single-symbol tree,
whose right child is absent (R224). Every node carries its frequency, which the hardware does not store (R4 (e)). -/
inductive CodeTree where
  | leaf (x : Symbol) (freq : Nat)
  | both (freq : Nat) (l r : CodeTree)
  | leftOnly (freq : Nat) (l : CodeTree)
  deriving DecidableEq, Repr

/-- The frequency of a tree. -/
def CodeTree.freq : CodeTree → Nat
  | .leaf _ f => f
  | .both f _ _ => f
  | .leftOnly f _ => f

/-- Whether a tree newly put into the collection goes before another: the smaller frequency first; among equal ones as
`tieBreak` says (R226, R227, D35; log 11). `tieBreak := fun _ _ => false` is "stable insertion order". -/
def goesBefore (tieBreak : CodeTree → CodeTree → Bool) (t u : CodeTree) : Bool :=
  t.freq < u.freq || (t.freq == u.freq && tieBreak t u)

/-- Put a tree into the min-priority collection (R226), kept with the next tree to extract first. -/
def insertTree (tieBreak : CodeTree → CodeTree → Bool) (t : CodeTree) : List CodeTree → List CodeTree
  | [] => [t]
  | u :: us => if goesBefore tieBreak t u then t :: u :: us else u :: insertTree tieBreak t us

/-- The merge loop of TreeBuilder (R226): the tree extracted first becomes the left child. Each turn shortens the
collection by one, so its length bounds the turns (log 14). -/
def mergeTrees (tieBreak : CodeTree → CodeTree → Bool) : Nat → List CodeTree → Option CodeTree
  | n + 1, t1 :: t2 :: ts =>
    mergeTrees tieBreak n (insertTree tieBreak (.both (t1.freq + t2.freq) t1 t2) ts)
  | _, t :: _ => some t
  | _, [] => none

/-- TreeBuilder (R226) on a frequency table given in insertion order: no tree, the single-symbol tree (R224), or the
merge of the singleton leaves. -/
def buildTree (tieBreak : CodeTree → CodeTree → Bool) : List (Symbol × Nat) → Option CodeTree
  | [] => none
  | [(x, f)] => some (.leftOnly f (.leaf x f))
  | fs => mergeTrees tieBreak fs.length
      (fs.foldl (fun ts e => insertTree tieBreak (.leaf e.1 e.2) ts) [])

/-- The depth-first walk of CodeTableBuilder (R228): "0" when descending left, "1" when descending right, the path
recorded at a leaf. -/
def CodeTree.codesFrom : List Bool → CodeTree → List (Symbol × List Bool)
  | p, .leaf x _ => [(x, p)]
  | p, .both _ l r => l.codesFrom (p ++ [false]) ++ r.codesFrom (p ++ [true])
  | p, .leftOnly _ l => l.codesFrom (p ++ [false])

/-- CodeTableBuilder (R228): the empty mapping if the tree is absent. -/
def buildTable : Option CodeTree → List (Symbol × List Bool)
  | none => []
  | some t => t.codesFrom []

/-- A tree of the host placed in `TREE` at a node index (R235): the word at the index says what the node is, and its
children are placed at the indices the word names. -/
def State.Placed (s : State) : NodeIdx → CodeTree → Prop
  | i, .leaf x _ => s.leafAt i = some x
  | i, .both _ l r => s.leafAt i = none ∧
      (∃ j, s.childAt i false = some j ∧ s.Placed j l) ∧ (∃ j, s.childAt i true = some j ∧ s.Placed j r)
  | i, .leftOnly _ l => s.leafAt i = none ∧
      (∃ j, s.childAt i false = some j ∧ s.Placed j l) ∧ s.childAt i true = none

end Sys2Proof.Machine
end

