-- ==== Sys2Proof/Machine/Reads.lean ====
section
/-! DEFINITION. Which memory words a command reads, as R172 and R192 list them: what the premise `Written(run)` of R297
speaks of. No command calls these. -/

namespace Sys2Proof.Machine

/-- Whether a location holds a value: a register always does, a memory word once it has been written since reset
(R50). -/
def State.holds (s : State) : Loc → Bool
  | .tree i => (Mem.read s.tree i).isSome
  | .ctab off => (Mem.read s.ctab off).isSome
  | .cmd | .result | .errinfo | .errlog | .status | .treecfg | .rdctl | .rdlimitLo | .rdlimitHi | .wrtotalLo
  | .wrtotalHi | .rdtotalLo | .rdtotalHi | .decnode | .ident | .reserved => true

/-- The words `EncSym(x)` reads (R172): word 0 of the entry; if it is valid, words 1 to `ceil(LEN / 32)`. -/
def State.entryReads (s : State) (x : Symbol) : List Loc :=
  .ctab (ctabOffset x 0) ::
    match s.ctabAt x 0 with
    | some h =>
      if entryValid h then (List.range ((entryLen h + 31) / 32)).map fun k => .ctab (ctabOffset x (k + 1)) else []
    | none => []

/-- The words the loop of `ENC.RUN` reads (R176), along `encLoop`. -/
def encReads : Nat → State → List Loc
  | n, s =>
    match s.get .ssrc with
    | (.eof, _) => []
    | (.fail, _) => []
    | (.item x, t) =>
      t.entryReads x ++
        match encSym x t with
        | .error _ => []
        | .ok (.raised _ _) => []
        | .ok (.ok _ u) =>
          match n with
          | 0 => []
          | m + 1 => encReads m u

/-- The words `DecBit()` reads once it has its bit (R192): the node it stands at and, if it is present, the child. -/
def State.edgeReads (s : State) (b : Bool) : List Loc :=
  .tree s.dec.node.toNat ::
    match s.childAt s.dec.node b with
    | some n => [.tree n.toNat]
    | none => []

/-- The words `DecBit()` reads (R192): none if `ReadBit` raises. -/
def State.bitReads (s : State) : List Loc :=
  match readBit s with
  | .raised _ _ => []
  | .ok b t => t.edgeReads b

/-- The words the loop of `DEC.RUN` reads (R203), along `decLoop`. -/
def decReads : Nat → State → List Loc
  | 0, _ => []
  | n + 1, s =>
    if s.hasNext then
      s.bitReads ++
        match decBit s with
        | .error _ => []
        | .ok (.raised _ _) => []
        | .ok (.ok _ t) => decReads n t
    else []

/-- The words `ENC.RUN` reads (R176). -/
def State.encRunReads (s : State) : List Loc :=
  if s.bw.isOpen then []
  else
    match s.acquireSource .ssrc with
    | (false, _) => []
    | (true, t) =>
      match openWriter t with
      | .raised _ _ => []
      | .ok _ u => encReads u.ssrc.data.length u

/-- The words `DEC.RUN` reads (R203). -/
def State.decRunReads (s : State) : List Loc :=
  if s.dec.active || s.br.isOpen then []
  else if s.treePresent then
    match openReader s with
    | .raised _ _ => []
    | .ok _ t =>
      match startDecode t with
      | .raised _ _ => []
      | .ok _ u => decReads u.bitsLeft u
  else []

/-- The memory words a command reads in a state (R172, R192): only the encoder and the decoder read any. -/
def readsOf : Instr → State → List Loc
  | .nop, _ | .srst, _ | .bwOpen, _ | .bwWritebit _, _ | .bwClose, _ | .brOpen, _ | .brHasnext, _ | .brReadbit, _
  | .brClose, _ | .decStart, _ | .decEnd, _ => []
  | .encSym x, s => if s.bw.isOpen then s.entryReads x else []
  | .encRun, s => s.encRunReads
  | .decBit, s => if s.dec.active && s.br.isOpen && s.hasNext then s.bitReads else []
  | .decRun, s => s.decRunReads

/-- Every memory word the command reads has been written since reset. -/
def State.writtenFor (s : State) (i : Instr) : Bool := (readsOf i s).all s.holds

end Sys2Proof.Machine
end

