-- ==== Sys2Proof/Safety.lean ====
section
/-! DEFINITION. What claims are stated with: the launch premises (R297), the well-formed tree and table (R222, R225),
what must be written (R282, R283), the invariants (R29, R30), the `BadState` table (R256), runs and their ends (R298). -/

namespace Sys2Proof.Machine

/-! ### Draws -/

/-- The environment after `n` answers. -/
def Environment.advanceN : Nat → Environment → Environment
  | 0, e => e
  | n + 1, e => Environment.advanceN n e.advance

/-- `NoIoFail` (R251, R297) for the next `n` port operations, over one command or over many: none of them answers `fail`.
No action of the host uses up an answer, only a port operation does (log 2). -/
def Environment.NoFail : Nat → Environment → Prop
  | 0, _ => True
  | n + 1, e => e.fails = false ∧ Environment.NoFail n e.advance

/-- How many port operations were answered between two environments. -/
def Environment.answersUntil (e f : Environment) : Nat := f.answered - e.answered

/-- The environment after a `Put` that failed: one answer and one free value are used up (logs 2, 3). -/
def Environment.afterFailedPut (e : Environment) : Environment :=
  { e.advance with freeIdx := e.advance.freeIdx + 1 }

/-! ### Launch premises (R297) -/

/-- `Idle` (R297): no session open and no port held. The end of a run is *final* when it holds (R298). -/
structure State.Idle (s : State) : Prop where
  writer : s.bw.isOpen = false
  reader : s.br.isOpen = false
  decoder : s.dec.active = false
  bsink : s.bsink.held = false
  bsrc : s.bsrc.held = false
  ssink : s.ssink.held = false
  ssrc : s.ssrc.held = false

/-- `CleanLog` (R297). -/
def State.CleanLog (s : State) : Prop := s.res.errlog = 0

/-- The end `t` of a run from `s` is *clean* (R298): it is final and, in addition, `ERRLOG` has no bit set that was not
set at the start. -/
structure State.CleanSince (s t : State) : Prop where
  final : t.Idle
  log : t.res.errlog &&& ~~~s.res.errlog = 0

/-- `Limit(n)` (R297). -/
def State.Limit (s : State) (n : Count) : Prop := s.limited = true ∧ s.cfg.rdlimit = n

/-- A node index that a path from the root ends at (R221). -/
def State.Reach (s : State) (i : NodeIdx) : Prop := ∃ p, s.walk s.treeRoot p = some i

/-- `p` is the code of the symbol `x` in the tree (R223): the path from the root to a leaf that carries `x`. -/
def State.TreeCode (s : State) (x : Symbol) (p : List Bool) : Prop :=
  ∃ i, s.walk s.treeRoot p = some i ∧ s.leafAt i = some x

/-- The *general* shape (R222 (e)): every internal node has both children, and there are at least two leaves. -/
def State.GeneralShape (s : State) : Prop :=
  (∀ i, s.Reach i → s.leafAt i = none → ∀ b, (s.childAt i b).isSome) ∧
    ∃ i j, i ≠ j ∧ s.Reach i ∧ s.Reach j ∧ (s.leafAt i).isSome ∧ (s.leafAt j).isSome

/-- The *single-symbol* shape (R222 (e), R224). -/
def State.SingleShape (s : State) : Prop :=
  (∃ j, s.childAt s.treeRoot false = some j ∧ (s.leafAt j).isSome) ∧ s.childAt s.treeRoot true = none

/-- `WF_TREE` (R222), which is `TreeLoaded` of R297. -/
structure State.WfTree (s : State) : Prop where
  /-- (a) -/
  present : s.treePresent = true
  /-- (b) -/
  written : ∀ i, s.Reach i → (s.treeAt i).isSome
  /-- (c), R221. -/
  isTree : ∀ p q i, s.walk s.treeRoot p = some i → s.walk s.treeRoot q = some i → p = q
  /-- (d) -/
  rootInternal : s.leafAt s.treeRoot = none
  /-- (e) -/
  shape : s.GeneralShape ∨ s.SingleShape
  /-- (f) -/
  symbols : ∀ i j x, s.Reach i → s.Reach j → s.leafAt i = some x → s.leafAt j = some x → i = j

/-- `WF_TABLE` (R225), which is `TableLoaded` of R297: with a tree present, every entry is the code of its symbol or
invalid; with the tree absent, every entry is invalid. -/
def State.WfTable (s : State) : Prop :=
  ∀ x, ∃ h, s.ctabAt x 0 = some h ∧
    (∀ p, s.treePresent = true → s.TreeCode x p → s.entryCode x = some p ∧ entryLen h = p.length) ∧
    ((s.treePresent = false ∨ ¬ ∃ p, s.TreeCode x p) → entryValid h = false)

/-- What R282 asks the host to have written before any encode, which is more than one encode reads: every header, and
of every valid entry the words that hold its code. -/
def State.TableWritten (s : State) : Prop :=
  ∀ x, ∃ h, s.ctabAt x 0 = some h ∧
    (entryValid h = true → ∀ k, 1 ≤ k → k ≤ (entryLen h + 31) / 32 → (s.ctabAt x k).isSome)

/-- Word `k` of the entry of `x` is the first that an encode of `x` finds unwritten, once it has written the bits `code`
(R71, R73, R172; log 6): the header, or the word that holds the bit after them. -/
def State.FirstMissing (s : State) (x : Symbol) (code : List Bool) (k : Nat) : Prop :=
  s.ctabAt x k = none ∧
    (k = 0 ∧ code = [] ∨
      k = 1 + code.length / 32 ∧ ∃ h, s.ctabAt x 0 = some h ∧ h.getLsbD 31 = true ∧
        code.length < (h.extractLsb' 0 8).toNat ∧
        ∀ i b, code[i]? = some b → ∃ w, s.ctabAt x (1 + i / 32) = some w ∧ w.getLsbD (31 - i % 32) = b)

/-- What R283 asks the host to have written before any decode: every word reachable from the root. -/
def State.TreeWritten (s : State) : Prop := ∀ i, s.Reach i → (s.treeAt i).isSome

/-! ### Invariants -/

/-- The invariants of R30, with the bound of R26 on `RD_CNT`. -/
structure State.UnitInv (s : State) : Prop where
  /-- (a): the places of `WR_ACC` not yet written are zero. -/
  accLow : ∀ i, i < 8 - s.bw.cnt.toNat → s.bw.acc.getLsbD i = false
  /-- (b) -/
  writerClosed : s.bw.isOpen = false → s.bw.acc = 0 ∧ s.bw.cnt = 0
  /-- (c) -/
  readerClosed : s.br.isOpen = false → s.br.byte = 0 ∧ s.br.cnt = 0
  /-- (d) -/
  bsinkHeld : s.bsink.held = s.bw.isOpen
  bsrcHeld : s.bsrc.held = s.br.isOpen
  ssinkHeld : s.ssink.held = s.dec.active
  ssrcHeld : s.ssrc.held = false
  /-- (e); a wrap of `WR_TOTAL` does not disturb it, since 8 divides `2^64`. -/
  writerCount : s.bw.isOpen = true → s.bw.total.toNat % 8 = s.bw.cnt.toNat
  /-- (f) -/
  readerCount : s.br.isOpen = true → 0 < s.br.cnt.toNat → s.br.total.toNat % 8 = (8 - s.br.cnt.toNat) % 8
  /-- R26: `RD_CNT` has the values 0 to 8. -/
  readCntLe : s.br.cnt.toNat ≤ 8

/-- R29: while a decode session is open, the node the pointer stands at is no leaf unless it is the root. -/
def State.PointerInv (s : State) : Prop :=
  s.dec.active = true → s.dec.node ≠ s.treeRoot → ∃ w, s.treeAt s.dec.node = some w ∧ nodeIsLeaf w = false

/-- The reserved bits of the result registers read 0 (R38, R39, R40), and no code above 6 is produced (R250). -/
structure ResultRegs.Wf (r : ResultRegs) : Prop where
  code : (r.result.extractLsb' 0 4).toNat ≤ 6
  resultReserved : r.result &&& 0x0000FCF0 = 0
  errinfoReserved : r.errinfo &&& 0xFF800000 = 0
  errlogReserved : r.errlog &&& 0xFFFFFE81 = 0

/-! ### The `BadState` table (R256) -/

/-- The opcode of a command (R104). -/
def opcodeOf (i : Instr) : BitVec 8 := (encode i).extractLsb' 0 8

/-- When a legal command is refused with `BadState` (R256). -/
def badStateWhen : Instr → State → Bool
  | .nop, _ => false
  | .srst, _ => false
  | .bwOpen, s => s.bw.isOpen
  | .bwWritebit _, s => !s.bw.isOpen
  | .bwClose, s => !s.bw.isOpen
  | .encSym _, s => !s.bw.isOpen
  | .encRun, s => s.bw.isOpen
  | .brOpen, s => s.br.isOpen
  | .brHasnext, s => !s.br.isOpen
  | .brReadbit, s => !s.br.isOpen
  | .brClose, s => !s.br.isOpen
  | .decStart, s => s.dec.active || !s.treePresent
  | .decBit, s => !s.dec.active || !s.br.isOpen
  | .decEnd, s => !s.dec.active
  | .decRun, s => s.dec.active || s.br.isOpen

/-! ### Runs -/

/-- The state after a sequence of commands, if none of them stops the model. -/
def runCommands : List Instr → State → Option State
  | [], s => some s
  | i :: is, s =>
    match exec i s with
    | .next t => runCommands is t
    | .fault _ => none
    | .refused _ => none

/-- The state after a sequence of commands, if each of them ends OK. -/
def runOk : List Instr → State → Option State
  | [], s => some s
  | i :: is, s =>
    match exec i s with
    | .next t => if t.res.result.extractLsb' 0 4 = 0 then runOk is t else none
    | .fault _ => none
    | .refused _ => none

/-- A run (R298): so many of the host's actions, up to the first that stops the model. -/
def runSteps : Nat → State → Host.Outcome State Fault Refusal
  | 0, s => .next s
  | n + 1, s =>
    match step s with
    | .next t => runSteps n t
    | .fault f => .fault f
    | .refused r => .refused r

/-- What the host's next action reads: the memory words of the command it issues, or what a host read names. -/
def State.stepReads (s : State) : List Loc :=
  match s.env.script with
  | .write a w :: rest =>
    match locate a, decode w with
    | .cmd, .ok i => readsOf i (s.take (.write a w) rest)
    | _, _ => []
  | .read a :: _ => [locate a]
  | .load _ _ :: _ => []
  | .hardReset :: _ => []
  | [] => []

/-- `Written(run)` (R297), for the run of the host's next `n` actions: every `TREE` and `CTAB` word that it reads has
been written since reset. -/
def State.writtenRun : Nat → State → Bool
  | 0, _ => true
  | n + 1, s =>
    s.stepReads.all s.holds &&
      match step s with
      | .next t => State.writtenRun n t
      | .fault _ => true
      | .refused _ => true

/-- `NoIoFail` (R297), for the run of the host's next `n` actions: no port operation of it answers `fail`. Where an action
stops the model (R50) there is no further run. -/
def State.NoIoFailRun (n : Nat) (s : State) : Prop :=
  ∀ m ≤ n, ∀ t, runSteps m s = .next t → s.env.NoFail (s.env.answersUntil t.env)

end Sys2Proof.Machine
end

