-- ==== Sys2Proof/WellFormed.lean ====
section
/-! DEFINITION. Which command words are well formed: R103, in both forms the rule gives. The decoder does not use
these; statements hold it against them. -/

namespace Sys2Proof

/-- Check (a) of R103: `cmd[31:16] = 0`. -/
def rsvClear (w : Word) : Bool := w.extractLsb' 16 16 == 0

/-- The opcodes of format N (R101, R104). -/
def opcodesN : List (BitVec 8) :=
  [0x00, 0x01, 0x10, 0x12, 0x20, 0x21, 0x22, 0x23, 0x31, 0x40, 0x41, 0x42, 0x43]

/-- The opcodes of format B (R101, R104): `BW.WRITEBIT`. -/
def opcodesB : List (BitVec 8) := [0x11]

/-- The opcodes of format S (R101, R104): `ENC.SYM`. -/
def opcodesS : List (BitVec 8) := [0x30]

/-- Check (b) of R103: `cmd[7:0]` is one of the fifteen opcodes. -/
def opcDefined (w : Word) : Bool :=
  (opcodesN ++ opcodesB ++ opcodesS).contains (w.extractLsb' 0 8)

/-- Check (c) of R103: format N has `cmd[15:8] = 0`, format B has `cmd[15:9] = 0`, format S has no constraint. -/
def argFits (w : Word) : Bool :=
  (!opcodesN.contains (w.extractLsb' 0 8) || w.extractLsb' 8 8 == 0) &&
    (!opcodesB.contains (w.extractLsb' 0 8) || w.extractLsb' 9 7 == 0)

/-- R103: a command word is legal if and only if the three checks hold. -/
def legalWord (w : Word) : Bool := rsvClear w && opcDefined w && argFits w

/-- The `match` and `mask` columns of R104, which are those of `spec/opcode_table.json`. -/
def opcodeRows : List (Word × Word) :=
  [(0x00000000, 0xFFFFFFFF), (0x00000001, 0xFFFFFFFF), (0x00000010, 0xFFFFFFFF), (0x00000011, 0xFFFFFEFF),
   (0x00000012, 0xFFFFFFFF), (0x00000020, 0xFFFFFFFF), (0x00000021, 0xFFFFFFFF), (0x00000022, 0xFFFFFFFF),
   (0x00000023, 0xFFFFFFFF), (0x00000030, 0xFFFF00FF), (0x00000031, 0xFFFFFFFF), (0x00000040, 0xFFFFFFFF),
   (0x00000041, 0xFFFFFFFF), (0x00000042, 0xFFFFFFFF), (0x00000043, 0xFFFFFFFF)]

/-- The second form of R103: `(cmd and mask) = match` for a row of the table. -/
def matchesRow (w : Word) : Bool := opcodeRows.any fun r => w &&& r.2 == r.1

end Sys2Proof
end

