-- ==== Sys2Proof/Certificates/Slice0/Obligations.lean ====
section
/-! DEFINITION. The statements for the provers, each a numbered rule of spec/ or derived from several. -/

open Sys2Proof Sys2Proof.Machine

/-! ### Encoding -/

/-- R100 to R104, R110: the decoder reads a command out of a word exactly when the encoder writes that word for it. No
bit of any encoding is dropped, and no word has two meanings. -/
def Obligations.DecodeExactlyInvertsEncode : Prop :=
  ∀ (w : Word) (i : Instr), decode w = .ok i ↔ encode i = w

/-- R103: the three checks hold exactly of the words the decoder accepts, and they are the second form of the rule, a
match with one row of the table. -/
def Obligations.LegalExactlyWhenDecoded : Prop :=
  ∀ w : Word, (legalWord w = true ↔ ∃ i, decode w = .ok i) ∧ legalWord w = matchesRow w

/-- R104, R111 and `95_test_vectors.md` section 3.1: words written out from the spec decode to their commands. -/
def Obligations.SpecWordsDecode : Prop :=
  decode 0x00000000 = .ok .nop ∧ decode 0x00000001 = .ok .srst ∧ decode 0x00000111 = .ok (.bwWritebit true) ∧
    decode 0x00000011 = .ok (.bwWritebit false) ∧ decode 0x00000022 = .ok .brReadbit ∧
    decode 0x00006130 = .ok (.encSym 0x61) ∧ decode 0x00000031 = .ok .encRun ∧ decode 0x00000043 = .ok .decRun

/-! ### Steps, the host's accesses, reset -/

/-- R6, R37, R79: when the host's next action writes a word that decodes to `i` to `CMD`, the step is `exec i`, on the
state with that action taken off the script and the free-value counter of the model (logs 1, 4) advanced. -/
def Obligations.StepRunsDecodedCommand : Prop :=
  ∀ (s : State) (w : Word) (i : Instr) (rest : List HostAction),
    s.env.script = .write 0x0000 w :: rest → decode w = .ok i →
      step s = exec i { s with env := { s.env with script := rest, freeIdx := s.env.freeIdx + 1 } }

/-- R79, R296 (log 1): a step is the host's next action, whichever it is, carried out on the state with that action taken
off the script; with no action left nothing changes (R280: the block waits for the host). The free-value counter of the
model advances for every action but a read (log 4). A load replaces the data of a source the block does not hold; of
one it holds the model refuses it (R291, log 7). A host read changes no state of the block, and two reads of one
address in a row answer the same (R75), be the word written or not (an unwritten word answers a free value, log 4). -/
def Obligations.StepTakesNextAction : Prop :=
  (∀ s : State, s.env.script = [] → step s = .next s) ∧
  (∀ (s : State) (a : HostAction) (rest : List HostAction), s.env.script = a :: rest →
    ((∃ r, a = .read r) → step s = act a { s with env := { s.env with script := rest } }) ∧
    ((∀ r, a ≠ .read r) →
      step s = act a { s with env := { s.env with script := rest, freeIdx := s.env.freeIdx + 1 } })) ∧
  (∀ (s : State) (items : List (BitVec 8)),
    (s.bsrc.held = false → act (.load .bsrc items) s = .next { s with bsrc := { held := false, data := items } }) ∧
    (s.ssrc.held = false → act (.load .ssrc items) s = .next { s with ssrc := { held := false, data := items } }) ∧
    (s.bsrc.held = true → act (.load .bsrc items) s = .refused (.sourceHeld .bsrc)) ∧
    (s.ssrc.held = true → act (.load .ssrc items) s = .refused (.sourceHeld .ssrc))) ∧
  ∀ (s : State) (a : RegAddr) (rest : List HostAction), s.env.script = .read a :: .read a :: rest →
    ∃ v : Word,
      step s = .next { s with env := { s.env with script := .read a :: rest, readData := v } } ∧
      step { s with env := { s.env with script := .read a :: rest, readData := v } } =
        .next { s with env := { s.env with script := rest, readData := v } }

/-- R255 (R103, R105): a word that is not legal raises `IllegalCommand`: `RESULT.OPC` is its low byte, `ERRINFO` is 0,
`ERRLOG` bit 4 is set, and nothing else changes. -/
def Obligations.IllegalWordOnlyRecords : Prop :=
  ∀ (s : State) (w : Word) (rest : List HostAction),
    s.env.script = .write 0x0000 w :: rest → legalWord w = false →
      step s = .next { s with
        res := { result := w.extractLsb' 0 8 ++ (0x000004 : BitVec 24), errinfo := 0
                 errlog := s.res.errlog ||| 0x10 }
        env := { s.env with script := rest, freeIdx := s.env.freeIdx + 1 } }

/-- What a host read answers in every state, locked or not (R62, R75, R76): the result registers (R38 to R40), the
configuration with 0 in the bits not named (R33 to R35), every field of `STATUS` (R41, with R31 for `HASNEXT`), the two
halves of both counters (R42, R43), `DECNODE` (R44) and `ID` (R45). A read has no side effect, it only answers the host; a
write of one of the read-only registers among them is ignored. -/
def Obligations.RegistersReadLive : Prop :=
  ∀ s : State, let v := s.readLoc (locate 0x0004)
    v.getLsbD 0 = s.bw.isOpen ∧ v.getLsbD 1 = s.br.isOpen ∧ v.getLsbD 2 = s.dec.active ∧
    (v.getLsbD 3 = true ↔ s.br.isOpen = true ∧ 0 < s.br.cnt.toNat ∧
      (s.cfg.rdctl = 0 ∨ s.br.total.toNat < s.cfg.rdlimit.toNat)) ∧
    v.extractLsb' 4 3 = s.bw.cnt ∧ v.getLsbD 7 = false ∧ v.extractLsb' 8 4 = s.br.cnt ∧ v.extractLsb' 12 4 = 0 ∧
    v.extractLsb' 16 8 = s.bw.acc ∧ v.extractLsb' 24 8 = s.br.byte ∧
    s.readLoc (locate 0x000B) ++ s.readLoc (locate 0x000A) = s.bw.total ∧
    s.readLoc (locate 0x000D) ++ s.readLoc (locate 0x000C) = s.br.total ∧
    s.readLoc (locate 0x000E) = (0 : BitVec 23) ++ s.dec.node ∧ s.readLoc (locate 0x000F) = 0x48554601 ∧
    s.readLoc (locate 0x0001) = s.res.result ∧ s.readLoc (locate 0x0002) = s.res.errinfo ∧
    s.readLoc (locate 0x0003) = s.res.errlog ∧
    s.readLoc (locate 0x0005) = (0 : BitVec 22) ++ s.cfg.treecfg ∧
    s.readLoc (locate 0x0006) = (0 : BitVec 31) ++ s.cfg.rdctl ∧
    s.readLoc (locate 0x0009) ++ s.readLoc (locate 0x0008) = s.cfg.rdlimit ∧
    (∀ a : RegAddr, act (.read a) s = .next { s with env := { s.env with readData := s.readLoc (locate a) } }) ∧
    ∀ (a : RegAddr) (x : Word), a ∈ [0x0001, 0x0002, 0x0003, 0x0004, 0x000A, 0x000B, 0x000C, 0x000D, 0x000E, 0x000F] →
      act (.write a x) s = .next s

/-- R63 (and R74): a reserved address reads 0 and ignores writes, a read-only register ignores writes, `CMD` reads 0;
none of these records anything or changes any state. -/
def Obligations.ReservedAddressesAreInert : Prop :=
  ∀ (s : State) (a : RegAddr) (v : Word),
    ((a = 0x0007 ∨ (0x0010 ≤ a.toNat ∧ a.toNat ≤ 0x07FF) ∨ (0x0A00 ≤ a.toNat ∧ a.toNat ≤ 0x0FFF) ∨
        0x2000 ≤ a.toNat ∨ (0x1000 ≤ a.toNat ∧ a.toNat < 0x2000 ∧ 9 ≤ a.toNat % 16)) →
      act (.write a v) s = .next s ∧ act (.read a) s = .next { s with env := { s.env with readData := 0 } }) ∧
    (a ∈ [0x0001, 0x0002, 0x0003, 0x0004, 0x000A, 0x000B, 0x000C, 0x000D, 0x000E, 0x000F] →
      act (.write a v) s = .next s) ∧
    act (.read 0x0000) s = .next { s with env := { s.env with readData := 0 } }

/-- R66: the `TREE` window. A write while no session is open replaces the word at its index and nothing else; while one
is open it only records `LOCKVIOL`; a read answers the word last written, or a value the spec does not fix (log 4). -/
def Obligations.TreeWindow : Prop :=
  ∀ (s : State) (i : NodeIdx) (v : Word), let a : RegAddr := 0x0800 + i.setWidth 16
    (s.locked = false → ∃ m, act (.write a v) s = .next { s with tree := m } ∧
      ∀ j, Mem.read m j = if j = i.toNat then some v else Mem.read s.tree j) ∧
    (s.locked = true → act (.write a v) s = .next { s with res := { s.res with errlog := s.res.errlog ||| 0x100 } }) ∧
    (∀ w, s.treeAt i = some w → act (.read a) s = .next { s with env := { s.env with readData := w } }) ∧
    (s.treeAt i = none → ∃ w, act (.read a) s = .next { s with env := { s.env with readData := w } })

/-- R70 (and R74): the `CTAB` window, words 0 to 8 of an entry as R66 for `TREE`; words 9 to 15 are reserved. -/
def Obligations.CtabWindow : Prop :=
  (∀ (s : State) (x : Symbol) (k : Nat) (v : Word), k ≤ 8 →
    let a : RegAddr := BitVec.ofNat 16 (0x1000 + 16 * x.toNat + k)
    (s.locked = false → ∃ m, act (.write a v) s = .next { s with ctab := m } ∧
      ∀ j, Mem.read m j = if j = 16 * x.toNat + k then some v else Mem.read s.ctab j) ∧
    (s.locked = true → act (.write a v) s = .next { s with res := { s.res with errlog := s.res.errlog ||| 0x100 } }) ∧
    (∀ w, s.ctabAt x k = some w → act (.read a) s = .next { s with env := { s.env with readData := w } }) ∧
    (s.ctabAt x k = none → ∃ w, act (.read a) s = .next { s with env := { s.env with readData := w } })) ∧
  ∀ (s : State) (x : Symbol) (k : Nat) (v : Word), 9 ≤ k → k ≤ 15 →
    let a : RegAddr := BitVec.ofNat 16 (0x1000 + 16 * x.toNat + k)
    act (.write a v) s = .next s ∧ act (.read a) s = .next { s with env := { s.env with readData := 0 } }

/-- R33, R34, R35: a write to a configuration register while no session is open stores the fields that exist, and they
read back; bits not named read 0. -/
def Obligations.ConfigRegisterWrites : Prop :=
  ∀ (s : State) (v : Word), s.locked = false →
    (∃ t, act (.write 0x0005 v) s = .next t ∧
      t = { s with cfg := { s.cfg with treecfg := v.extractLsb' 0 10 } } ∧
      t.readLoc (locate 0x0005) = v &&& 0x000003FF ∧ t.treeRoot = v.extractLsb' 0 9 ∧ t.treePresent = v.getLsbD 9) ∧
    (∃ t, act (.write 0x0006 v) s = .next t ∧
      t = { s with cfg := { s.cfg with rdctl := v.extractLsb' 0 1 } } ∧
      t.readLoc (locate 0x0006) = v &&& 0x00000001 ∧ t.limited = v.getLsbD 0) ∧
    (∃ t, act (.write 0x0008 v) s = .next t ∧
      t = { s with cfg := { s.cfg with rdlimit := s.cfg.rdlimit.extractLsb' 32 32 ++ v } } ∧
      t.readLoc (locate 0x0008) = v) ∧
    (∃ t, act (.write 0x0009 v) s = .next t ∧
      t = { s with cfg := { s.cfg with rdlimit := v ++ s.cfg.rdlimit.extractLsb' 0 32 } } ∧
      t.readLoc (locate 0x0009) = v)

/-- R76: while a session is open, a write to `TREECFG`, `RDCTL`, `RDLIMIT_LO`, `RDLIMIT_HI`, a `TREE` word or one of the
words 0 to 8 of a `CTAB` entry is ignored and sets `ERRLOG` bit 8. -/
def Obligations.LockedWriteOnlyRecords : Prop :=
  ∀ (s : State) (a : RegAddr) (v : Word),
    (s.bw.isOpen = true ∨ s.br.isOpen = true ∨ s.dec.active = true) →
    (a = 0x0005 ∨ a = 0x0006 ∨ a = 0x0008 ∨ a = 0x0009 ∨ (0x0800 ≤ a.toNat ∧ a.toNat ≤ 0x09FF) ∨
      (0x1000 ≤ a.toNat ∧ a.toNat ≤ 0x1FFF ∧ a.toNat % 16 ≤ 8)) →
    act (.write a v) s = .next { s with res := { s.res with errlog := s.res.errlog ||| 0x100 } }

/-- R76, R82: no action of the host but the hard reset changes the tree, the table or the reader's limit while any unit
is open: neither a write nor a command. -/
def Obligations.OpenSessionKeepsConfiguration : Prop :=
  ∀ s t : State, step s = .next t → s.locked = true → (∀ rest, s.env.script ≠ .hardReset :: rest) →
    t.tree = s.tree ∧ t.ctab = s.ctab ∧ t.cfg = s.cfg

/-- R49, R280: what a reset leaves. `State.reset` reads as the spec says, with every word of both memories unwritten; the
data of its source ports and the fields of `env` are the model's choice (log 8) and are not spoken of. The hard reset
puts every piece of state there and keeps the data of the source ports; nothing is put to any port. -/
def Obligations.ResetLeavesSpecValues : Prop :=
  (∀ a ∈ ([0x0001, 0x0002, 0x0003, 0x0004, 0x0005, 0x0006, 0x0008, 0x0009, 0x000A, 0x000B, 0x000C, 0x000D, 0x000E] :
      List RegAddr), State.reset.readLoc (locate a) = 0) ∧
    State.reset.readLoc (locate 0x000F) = 0x48554601 ∧ State.reset.Idle ∧ State.reset.CleanLog ∧
    (∀ n, State.reset.treeAt n = none) ∧ (∀ x k, State.reset.ctabAt x k = none) ∧
    State.reset.bsink.data = [] ∧ State.reset.bsink.bad = false ∧
    State.reset.ssink.data = [] ∧ State.reset.ssink.bad = false ∧
  ∀ (s : State) (rest : List HostAction), s.env.script = .hardReset :: rest →
    step s = .next {
      bw := { isOpen := false, acc := 0, cnt := 0, total := 0 }
      br := { isOpen := false, byte := 0, cnt := 0, total := 0 }
      dec := { active := false, node := 0 }
      cfg := { treecfg := 0, rdctl := 0, rdlimit := 0 }
      res := { result := 0, errinfo := 0, errlog := 0 }
      tree := [], ctab := []
      bsink := { held := false, data := [], bad := false }
      bsrc := { held := false, data := s.bsrc.data }
      ssink := { held := false, data := [], bad := false }
      ssrc := { held := false, data := s.ssrc.data }
      env := { s.env with script := rest, freeIdx := s.env.freeIdx + 1 } }

/-! ### Invariants -/

/-- R30, R29, R38 to R40, log 10: the invariants of the statements below hold at reset. -/
def Obligations.InvariantsHoldAtReset : Prop :=
  State.reset.UnitInv ∧ State.reset.PointerInv ∧ State.reset.memWf ∧ State.reset.res.Wf

/-- R30 (with the range of `RD_CNT`, R26): every step keeps the invariants between the units' registers and the ports. -/
def Obligations.StepKeepsUnitInvariants : Prop :=
  ∀ s t : State, s.UnitInv → step s = .next t → t.UnitInv

/-- R29: every step keeps the decoder's pointer off the leaves. -/
def Obligations.StepKeepsPointerOffLeaves : Prop :=
  ∀ s t : State, s.PointerInv → step s = .next t → t.PointerInv

/-- R46, R47, R74, log 10: every step keeps both memories in canonical form, with no word outside `TREE[0..511]` and
words 0 to 8 of the `CTAB` entries. -/
def Obligations.StepKeepsMemoryCanonical : Prop :=
  ∀ s t : State, s.memWf → step s = .next t → t.memWf

/-- R38, R39, R40, R250: every step keeps the reserved bits of the result registers at 0 and produces no code above 6. -/
def Obligations.StepKeepsResultRegistersWellFormed : Prop :=
  ∀ s t : State, s.res.Wf → step s = .next t → t.res.Wf

/-- R40: no step clears a bit of `ERRLOG` but `SRST` and the hard reset. -/
def Obligations.ErrlogIsSticky : Prop :=
  ∀ s t : State, step s = .next t → (∀ rest, s.env.script ≠ .hardReset :: rest) →
    (∀ rest, s.env.script ≠ .write 0x0000 0x00000001 :: rest) → s.res.errlog &&& t.res.errlog = s.res.errlog

/-! ### Rules over all commands -/

/-- R256: the complete list of conditions for `BadState`, in both directions; nothing changes but `RESULT`,
`ERRINFO` and `ERRLOG` bit 5. -/
def Obligations.BadStateTable : Prop :=
  ∀ (i : Instr) (s : State),
    (badStateWhen i s = true → exec i s = .next { s with
      res := { result := opcodeOf i ++ (0x000005 : BitVec 24), errinfo := 0, errlog := s.res.errlog ||| 0x20 } }) ∧
    (badStateWhen i s = false → ∀ t, exec i s = .next t → t.res.result.extractLsb' 0 4 ≠ 5)

/-- R257: `BR.READBIT` and `DEC.BIT` with the reader open and no bit available change nothing but `RESULT`, `ERRINFO` and
`ERRLOG` bit 6; the sessions stay open. -/
def Obligations.EndOfStreamOnlyRecords : Prop :=
  ∀ s : State, s.br.isOpen = true →
    ¬ (0 < s.br.cnt.toNat ∧ (s.cfg.rdctl = 0 ∨ s.br.total.toNat < s.cfg.rdlimit.toNat)) →
    exec .brReadbit s = .next { s with
      res := { result := 0x22000006, errinfo := 0, errlog := s.res.errlog ||| 0x40 } } ∧
    (s.dec.active = true → exec .decBit s = .next { s with
      res := { result := 0x41000006, errinfo := 0, errlog := s.res.errlog ||| 0x40 } })

/-- R10, R38, R260, R262: every command that ends writes its opcode to `RESULT`; one that ends OK keeps `ERRINFO` and
`ERRLOG` (`SRST` apart); one that fails leaves `VAL`, `EMIT` and `SYM` 0 and sets the bit of its code in `ERRLOG`, and
no other but the `IoFailure` bit of a noted second failure. -/
def Obligations.EveryCommandWritesResult : Prop :=
  ∀ (i : Instr) (s t : State), exec i s = .next t → let code := t.res.result.extractLsb' 0 4
    t.res.result.extractLsb' 24 8 = opcodeOf i ∧
    (code = 0 → i ≠ .srst → t.res.errinfo = s.res.errinfo ∧ t.res.errlog = s.res.errlog) ∧
    (code ≠ 0 → t.res.result.getLsbD 8 = false ∧ t.res.result.getLsbD 9 = false ∧
      t.res.result.extractLsb' 16 8 = 0 ∧ (t.res.errlog = s.res.errlog ||| (1 <<< code.toNat) ∨
        t.res.errlog = s.res.errlog ||| 0x2 ||| (1 <<< code.toNat)))

/-- R2, R46, R47: no command writes the tree, the table or the configuration, and none acts on the host's script or on
what the host has read. -/
def Obligations.CommandsKeepConfiguration : Prop :=
  ∀ (i : Instr) (s t : State), exec i s = .next t →
    (∀ n, t.treeAt n = s.treeAt n) ∧ (∀ x k, t.ctabAt x k = s.ctabAt x k) ∧ t.tree = s.tree ∧ t.ctab = s.ctab ∧
    t.cfg = s.cfg ∧ t.env.script = s.env.script ∧ t.env.readData = s.env.readData

/-- The frame of `BW.OPEN`, `BW.WRITEBIT`, `BW.CLOSE`, `ENC.SYM` and `ENC.RUN` (R131 to R136, R172, R174, R176, R261: an
encode never touches the reader or the decoder): what they may change is the writer, `BSINK`, the result registers and
the draws; `ENC.RUN` also `SSRC`. No word of memory changes. -/
def Obligations.WriterFrame : Prop :=
  ∀ (i : Instr) (s t : State), (i ∈ [.bwOpen, .bwClose, .encRun] ∨ (∃ b, i = .bwWritebit b) ∨ ∃ x, i = .encSym x) →
    exec i s = .next t →
    t = { s with bw := t.bw, bsink := t.bsink, res := t.res, env := t.env, ssrc := t.ssrc } ∧
    (i ≠ .encRun → t.ssrc = s.ssrc) ∧ (∀ n, t.treeAt n = s.treeAt n) ∧ (∀ x k, t.ctabAt x k = s.ctabAt x k)

/-- The frame of `BR.OPEN`, `BR.HASNEXT`, `BR.READBIT` and `BR.CLOSE` (R151 to R158, R261): what they may change is the
reader, `BSRC`, the result registers and the draws; `BR.HASNEXT` only the result registers. No word of memory changes. -/
def Obligations.ReaderFrame : Prop :=
  ∀ (i : Instr) (s t : State), i ∈ [.brOpen, .brHasnext, .brReadbit, .brClose] → exec i s = .next t →
    t = { s with br := t.br, bsrc := t.bsrc, res := t.res, env := t.env } ∧
    (i = .brHasnext → t = { s with res := t.res }) ∧
    (∀ n, t.treeAt n = s.treeAt n) ∧ (∀ x k, t.ctabAt x k = s.ctabAt x k)

/-- The frame of `DEC.START`, `DEC.BIT`, `DEC.END` and `DEC.RUN` (R190 to R196, R203, R261: a decode never touches the
writer): what they may change is the decoder, `SSINK`, the reader, `BSRC`, the result registers and the draws;
`DEC.START` neither the reader nor `BSRC`. No word of memory changes. -/
def Obligations.DecoderFrame : Prop :=
  ∀ (i : Instr) (s t : State), i ∈ [.decStart, .decBit, .decEnd, .decRun] → exec i s = .next t →
    t = { s with dec := t.dec, ssink := t.ssink, br := t.br, bsrc := t.bsrc, res := t.res, env := t.env } ∧
    (i = .decStart → t.br = s.br ∧ t.bsrc = s.bsrc) ∧
    (∀ n, t.treeAt n = s.treeAt n) ∧ (∀ x k, t.ctabAt x k = s.ctabAt x k)

/-- R173, R192, R290: the encoder reads only `CTAB`, the decoder only `TREE` and the configuration: with another tree
and another configuration an encode does the same, and with another table a decode does the same. -/
def Obligations.EncoderIgnoresTreeDecoderIgnoresTable : Prop :=
  (∀ (i : Instr) (s t : State) (m : Mem) (c : ConfigRegs), (i = .encRun ∨ ∃ x, i = .encSym x) →
    exec i s = .next t → exec i { s with tree := m, cfg := c } = .next { t with tree := m, cfg := c }) ∧
  (∀ (i : Instr) (s t : State) (m : Mem), i ∈ [.decStart, .decBit, .decEnd, .decRun] →
    exec i s = .next t → exec i { s with ctab := m } = .next { t with ctab := m })

/-- R50, U2 (log 5): a command is never refused, and it stops exactly by reading a word never written since reset. It
stops only so: at a `TREE` word read by `DEC.BIT` or `DEC.RUN`, or at a word of an entry read by `ENC.SYM` (of its own
symbol) or `ENC.RUN`. And it does stop: `DEC.BIT` that gets its bit, at the current node or at the present child
(R67, R68, R192); `ENC.SYM` with the writer open, at the first unwritten word of the entry if no `Put` before it fails
(R172, log 6); `ENC.RUN` at that word of its next symbol (R176); `DEC.RUN` as the `DEC.BIT` it comes to (R203). -/
def Obligations.UnwrittenWordsStop : Prop :=
  (∀ (i : Instr) (s : State), (∀ r, exec i s ≠ .refused r) ∧
    ∀ f, exec i s = .fault f →
      (∃ n : NodeIdx, f = .unwrittenTree n.toNat ∧ s.treeAt n = none ∧ i ∈ [.decBit, .decRun]) ∨
      (∃ (x : Symbol) (k : Nat), f = .unwrittenCtab x.toNat k ∧ k ≤ 8 ∧ s.ctabAt x k = none ∧
        (i = .encSym x ∨ i = .encRun))) ∧
  (∀ s : State, s.dec.active = true → s.br.isOpen = true → s.hasNext = true →
    (s.br.cnt = 1 → s.env.fails = false) →
    let b := s.br.byte.getLsbD (s.br.cnt.toNat - 1)
    (s.treeAt s.dec.node = none → exec .decBit s = .fault (.unwrittenTree s.dec.node.toNat)) ∧
    ∀ w : Word, s.treeAt s.dec.node = some w → w.getLsbD 31 = false →
      (if b then w.getLsbD 29 else w.getLsbD 30) = true →
      let child : NodeIdx := if b then w.extractLsb' 9 9 else w.extractLsb' 18 9
      s.treeAt child = none → exec .decBit s = .fault (.unwrittenTree child.toNat)) ∧
  (∀ (s u : State) (n : Nat) (f : Fault), s.dec.active = false → s.br.isOpen = false →
    s.cfg.treecfg.getLsbD 9 = true → runOk (.brOpen :: .decStart :: List.replicate n .decBit) s = some u →
    u.hasNext = true → exec .decBit u = .fault f → exec .decRun s = .fault f) ∧
  (∀ (s : State) (x : Symbol) (code : List Bool) (k : Nat), s.bw.isOpen = true → s.FirstMissing x code k →
    s.env.NoFail ((s.bw.cnt.toNat + code.length) / 8) → exec (.encSym x) s = .fault (.unwrittenCtab x.toNat k)) ∧
  ∀ (s : State) (pre : List Symbol) (x : Symbol) (rest : List Symbol) (bits code : List Bool) (k : Nat),
    s.bw.isOpen = false → s.ssrc.data = pre ++ x :: rest → s.encodeBits pre = some bits → s.FirstMissing x code k →
    s.env.NoFail (3 + pre.length + (bits.length + code.length) / 8) →
    exec .encRun s = .fault (.unwrittenCtab x.toNat k)

/-- R299, R297, R282, R283, R292: every command answers a next state, in every state, if the words it reads have been
written (`Written`), and a run of which `Written(run)` holds does not stop there. What R282 and R283 ask the host to
write is enough for that: nothing for the commands that read no memory, the table for `ENC.SYM` and `ENC.RUN`, the words
reachable from the root for `DEC.RUN`, and for `DEC.BIT` these with the pointer on one of them. -/
def Obligations.WrittenCommandsComplete : Prop :=
  (∀ (i : Instr) (s : State), s.writtenFor i = true → ∃ t, exec i s = .next t) ∧
  (∀ (n : Nat) (s : State), s.writtenRun n = true → ∀ f, runSteps n s ≠ .fault f) ∧
  ∀ (i : Instr) (s : State),
    ((i = .encRun ∨ ∃ x, i = .encSym x) → s.TableWritten) → (i = .decRun → s.TreeWritten) →
    (i = .decBit → s.TreeWritten ∧ s.Reach s.dec.node) → s.writtenFor i = true ∧ ∃ t, exec i s = .next t

/-- R9, R251, R297 (log 2): only a command uses up answers of the environment, in their order, whatever lies between two
commands; so `NoIoFail` of a run is about its port operations and no others. A run of which it holds records no
`IoFailure` and leaves no sink `bad` that was not (R36, R262). -/
def Obligations.NoIoFailRunRecordsNoIoFailure : Prop :=
  (∀ s t : State, step s = .next t → ∃ k, t.env.draws = s.env.draws.drop k ∧
    t.env.answered = s.env.answered + k ∧ ((∀ w rest, s.env.script ≠ .write 0x0000 w :: rest) → k = 0)) ∧
  ∀ (n : Nat) (s t : State), s.NoIoFailRun n → runSteps n s = .next t →
    (t.res.errlog.getLsbD 1 = true → s.res.errlog.getLsbD 1 = true) ∧
    (t.bsink.bad = true → s.bsink.bad = true) ∧ (t.ssink.bad = true → s.ssink.bad = true)

/-- R176, R203, R261, R267: from an idle state, `ENC.RUN` and `DEC.RUN` leave every unit closed and every port released
on every exit, OK or failed, so that their end is final; one that ends OK is clean (R298). -/
def Obligations.RunsReleaseEverything : Prop :=
  ∀ (i : Instr) (s t : State), i ∈ [.encRun, .decRun] → s.Idle → exec i s = .next t →
    t.Idle ∧ (t.res.result.extractLsb' 0 4 = 0 → s.CleanSince t)

/-! ### System commands -/

/-- R211: `NOP` is the word 0 and no other with `OPC` 0; it is accepted in every state and writes `RESULT` only. -/
def Obligations.NopOnlyWritesResult : Prop :=
  decode 0x00000000 = .ok .nop ∧
    (∀ w : Word, w.extractLsb' 0 8 = 0x00 → w ≠ 0x00000000 → legalWord w = false ∧ ∃ e, decode w = .error e) ∧
    ∀ s : State, exec .nop s = .next { s with res := { s.res with result := 0x00000000 } }

/-- R212: `SRST` is the word 1 and no other with `OPC` 1; it is accepted in every state, clears the unit registers, the
counters, `ERRINFO` and `ERRLOG`, releases every port, and keeps the configuration, the memories and the content of the
ports; a pending partial byte is lost. Afterwards `STATUS` reads 0 and the lock is lifted. No other command clears a bit
of `ERRLOG`. -/
def Obligations.SoftResetEffect : Prop :=
  decode 0x00000001 = .ok .srst ∧
    (∀ w : Word, w.extractLsb' 0 8 = 0x01 → w ≠ 0x00000001 → legalWord w = false ∧ ∃ e, decode w = .error e) ∧
    (∀ (i : Instr) (s t : State), i ≠ .srst → exec i s = .next t → s.res.errlog &&& t.res.errlog = s.res.errlog) ∧
    ∀ s : State, ∃ t, exec .srst s = .next t ∧ t.readLoc (locate 0x0004) = 0 ∧ t.locked = false ∧ t = { s with
      bw := { isOpen := false, acc := 0, cnt := 0, total := 0 }
      br := { isOpen := false, byte := 0, cnt := 0, total := 0 }
      dec := { active := false, node := 0 }
      res := { result := 0x01000000, errinfo := 0, errlog := 0 }
      bsink := { s.bsink with held := false }
      bsrc := { s.bsrc with held := false }
      ssink := { s.ssink with held := false }
      ssrc := { s.ssrc with held := false } }

/-! ### The bit writer -/

/-- R131 (`BW.OPEN`, R132): with the writer closed, the sink is acquired, emptied and its `bad` flag cleared, and the
writer starts at zero; if the acquisition fails nothing changes but the record of `IoFailure`, port 1. -/
def Obligations.BwOpenStartsWriter : Prop :=
  ∀ s : State, s.bw.isOpen = false →
    (s.env.fails = false → exec .bwOpen s = .next { s with
      bw := { isOpen := true, acc := 0, cnt := 0, total := 0 }
      bsink := { held := true, data := [], bad := false }
      env := s.env.advance
      res := { s.res with result := 0x10000000 } }) ∧
    (s.env.fails = true → exec .bwOpen s = .next { s with
      env := s.env.advance
      res := { result := 0x10000001, errinfo := 0x00100000, errlog := s.res.errlog ||| 0x2 } })

/-- R133 (`BW.WRITEBIT`, R134). A bit that does not fill the byte goes to place `7 - WR_CNT`, no other bit of `WR_ACC`
changes, and it is counted. The eighth bit goes to place 0 and the byte is put to the sink in the same command, the
accumulator starting again at zero; if the `Put` fails the session is over, the sink is released and `bad`, its data free
(log 3), and the bit is counted all the same. -/
def Obligations.BwWritebitPlacesBit : Prop :=
  ∀ (s : State) (b : Bool), s.bw.isOpen = true →
    (s.bw.cnt.toNat < 7 → ∃ acc : Byte,
      (∀ k, k < 8 → acc.getLsbD k = if k = 7 - s.bw.cnt.toNat then b else s.bw.acc.getLsbD k) ∧
      exec (.bwWritebit b) s = .next { s with
        bw := { isOpen := true, acc := acc, cnt := s.bw.cnt + 1, total := s.bw.total + 1 }
        res := { s.res with result := 0x11000000 } }) ∧
    (s.bw.cnt = 7 → s.env.fails = false → exec (.bwWritebit b) s = .next { s with
      bw := { isOpen := true, acc := 0, cnt := 0, total := s.bw.total + 1 }
      bsink := { s.bsink with data := s.bsink.data ++ [(s.bw.acc &&& 0xFE) ||| (if b then 0x01 else 0x00)] }
      env := s.env.advance
      res := { s.res with result := 0x11000000 } }) ∧
    (s.bw.cnt = 7 → s.env.fails = true → ∃ data : List Byte, exec (.bwWritebit b) s = .next { s with
      bw := { isOpen := false, acc := 0, cnt := 0, total := s.bw.total + 1 }
      bsink := { held := false, data := data, bad := true }
      env := { s.env.advance with freeIdx := s.env.advance.freeIdx + 1 }
      res := { result := 0x11000001, errinfo := 0x00100000, errlog := s.res.errlog ||| 0x2 } })

/-- R135 (`BW.CLOSE`, R136): a partial byte is put as it stands, zero-padded; without one nothing is put; the sink is
released and the writer closed whether or not the `Put` fails; `WR_TOTAL` is kept. -/
def Obligations.BwCloseFlushesPartialByte : Prop :=
  ∀ s : State, s.bw.isOpen = true →
    (s.bw.cnt = 0 → exec .bwClose s = .next { s with
      bw := { s.bw with isOpen := false, acc := 0, cnt := 0 }
      bsink := { s.bsink with held := false }
      res := { s.res with result := 0x12000000 } }) ∧
    (s.bw.cnt ≠ 0 → s.env.fails = false → exec .bwClose s = .next { s with
      bw := { s.bw with isOpen := false, acc := 0, cnt := 0 }
      bsink := { s.bsink with held := false, data := s.bsink.data ++ [s.bw.acc] }
      env := s.env.advance
      res := { s.res with result := 0x12000000 } }) ∧
    (s.bw.cnt ≠ 0 → s.env.fails = true → ∃ data : List Byte, exec .bwClose s = .next { s with
      bw := { s.bw with isOpen := false, acc := 0, cnt := 0 }
      bsink := { held := false, data := data, bad := true }
      env := { s.env.advance with freeIdx := s.env.advance.freeIdx + 1 }
      res := { result := 0x12000001, errinfo := 0x00100000, errlog := s.res.errlog ||| 0x2 } })

/-- R137, the output law of the writer: after `k` bits of a session without failure, `BSINK` holds the first `k div 8`
bytes of `Pack`, `WR_CNT` is `k mod 8`, `WR_ACC` the byte begun; after the close `BSINK` holds `Pack` of all the bits and
`WR_TOTAL` their number. -/
def Obligations.WriterOutputLaw : Prop :=
  ∀ (s : State) (bits : List Bool), s.bw.isOpen = false → bits.length < 2 ^ 64 →
    s.env.NoFail (1 + (bits.length + 7) / 8) →
    (∀ k, k ≤ bits.length → ∃ u, runCommands (.bwOpen :: (bits.take k).map .bwWritebit) s = some u ∧
      u.bsink.data = (pack bits).take (k / 8) ∧ u.bw.cnt.toNat = k % 8 ∧ u.bw.total.toNat = k ∧
      (k % 8 = 0 → u.bw.acc = 0) ∧ (k % 8 ≠ 0 → (pack (bits.take k))[k / 8]? = some u.bw.acc)) ∧
    ∃ t, runCommands (.bwOpen :: bits.map .bwWritebit ++ [.bwClose]) s = some t ∧ t.bsink.data = pack bits ∧
      t.bsink.data.length = (bits.length + 7) / 8 ∧ t.bw.total.toNat = bits.length ∧ t.bw.isOpen = false ∧
      t.bsink.held = false ∧ t.res.result = 0x12000000

/-! ### The bit reader -/

/-- R151, R152 (`BR.OPEN`, R154): with the reader closed, the source is acquired and its first byte read ahead; an empty
source opens with `RD_CNT = 0`; if the acquisition or the read-ahead fails the reader stays closed. -/
def Obligations.BrOpenReadsAhead : Prop :=
  ∀ s : State, s.br.isOpen = false →
    (s.env.fails = true → exec .brOpen s = .next { s with
      env := s.env.advance
      res := { result := 0x20000001, errinfo := 0x00200000, errlog := s.res.errlog ||| 0x2 } }) ∧
    (s.env.fails = false → s.env.advance.fails = true → exec .brOpen s = .next { s with
      br := { isOpen := false, byte := 0, cnt := 0, total := 0 }
      bsrc := { held := false, data := s.bsrc.data }
      env := s.env.advance.advance
      res := { result := 0x20000001, errinfo := 0x00200000, errlog := s.res.errlog ||| 0x2 } }) ∧
    (s.env.fails = false → s.env.advance.fails = false →
      (∀ v vs, s.bsrc.data = v :: vs → exec .brOpen s = .next { s with
        br := { isOpen := true, byte := v, cnt := 8, total := 0 }
        bsrc := { held := true, data := vs }
        env := s.env.advance.advance
        res := { s.res with result := 0x20000000 } }) ∧
      (s.bsrc.data = [] → exec .brOpen s = .next { s with
        br := { isOpen := true, byte := 0, cnt := 0, total := 0 }
        bsrc := { held := true, data := [] }
        env := s.env.advance.advance
        res := { s.res with result := 0x20000000 } }))

/-- R155 with R31: `BR.HASNEXT` answers whether an unread bit is available under the limit, and changes nothing else. -/
def Obligations.BrHasnextAnswers : Prop :=
  ∀ s : State, s.br.isOpen = true →
    ((0 < s.br.cnt.toNat ∧ (s.cfg.rdctl = 0 ∨ s.br.total.toNat < s.cfg.rdlimit.toNat)) →
      exec .brHasnext s = .next { s with res := { s.res with result := 0x21000100 } }) ∧
    (¬ (0 < s.br.cnt.toNat ∧ (s.cfg.rdctl = 0 ∨ s.br.total.toNat < s.cfg.rdlimit.toNat)) →
      exec .brHasnext s = .next { s with res := { s.res with result := 0x21000000 } })

/-- R153, R152 (`BR.READBIT`, R157): the bit `RD_BYTE[RD_CNT - 1]` is handed out and counted; after the last bit of a byte
the next byte is taken in the same command, or the end recorded; if that read-ahead fails the session is over and the
bit, though counted, is not delivered. -/
def Obligations.BrReadbitHandsOutBit : Prop :=
  ∀ s : State, s.br.isOpen = true → s.hasNext = true →
    let word : Word := if s.br.byte.getLsbD (s.br.cnt.toNat - 1) then 0x22000100 else 0x22000000
    (s.br.cnt ≠ 1 → exec .brReadbit s = .next { s with
      br := { s.br with cnt := s.br.cnt - 1, total := s.br.total + 1 }
      res := { s.res with result := word } }) ∧
    (s.br.cnt = 1 → s.env.fails = false → ∀ v vs, s.bsrc.data = v :: vs → exec .brReadbit s = .next { s with
      br := { isOpen := true, byte := v, cnt := 8, total := s.br.total + 1 }
      bsrc := { s.bsrc with data := vs }
      env := s.env.advance
      res := { s.res with result := word } }) ∧
    (s.br.cnt = 1 → s.env.fails = false → s.bsrc.data = [] → exec .brReadbit s = .next { s with
      br := { isOpen := true, byte := 0, cnt := 0, total := s.br.total + 1 }
      env := s.env.advance
      res := { s.res with result := word } }) ∧
    (s.br.cnt = 1 → s.env.fails = true → exec .brReadbit s = .next { s with
      br := { isOpen := false, byte := 0, cnt := 0, total := s.br.total + 1 }
      bsrc := { s.bsrc with held := false }
      env := s.env.advance
      res := { result := 0x22000001, errinfo := 0x00200000, errlog := s.res.errlog ||| 0x2 } })

/-- R156 (`BR.CLOSE`, R158): the source is released, the reader cleared, `RD_TOTAL` kept; the decoder is not touched. -/
def Obligations.BrCloseReleasesSource : Prop :=
  ∀ s : State, s.br.isOpen = true → exec .brClose s = .next { s with
    br := { s.br with isOpen := false, byte := 0, cnt := 0 }
    bsrc := { s.bsrc with held := false }
    res := { s.res with result := 0x23000000 } }

/-- R159, the output law of the reader, with R48: in a session without failure on the bytes `y`, after `i` bits
`HasNext()` is `(i < 8m) and (no limit or i < RDLIMIT)`, the `i`-th bit handed out is element `i` of `Unpack(y)`, and the
source stands one byte ahead of the bits. -/
def Obligations.ReaderOutputLaw : Prop :=
  ∀ (s : State) (i : Nat), s.br.isOpen = false → i ≤ 8 * s.bsrc.data.length → i < 2 ^ 64 →
    (s.limited = true → i ≤ s.cfg.rdlimit.toNat) → s.env.NoFail (2 + i / 8) →
    ∃ t, runCommands (.brOpen :: List.replicate i .brReadbit) s = some t ∧
      (t.hasNext = true ↔ i < 8 * s.bsrc.data.length ∧ (s.limited = false ∨ i < s.cfg.rdlimit.toNat)) ∧
      t.br.total.toNat = i ∧ t.bsrc.data = s.bsrc.data.drop (i / 8 + 1) ∧
      (∀ j b, i = j + 1 → (unpack s.bsrc.data)[j]? = some b →
        t.res.result = if b then 0x22000100 else 0x22000000)

/-- R160, the writer/reader guarantee: what `n` writes put in, `n` reads of the same bytes hand out, under every
configuration that lets them be read. With the limit set to `n` no bit is left after them; with no limit the pad bits
follow, all 0, up to the end of the last byte. -/
def Obligations.WriterReaderGuarantee : Prop :=
  ∀ (s t : State) (bits : List Bool), s.bw.isOpen = false → s.br.isOpen = false → bits.length < 2 ^ 64 →
    s.env.NoFail (1 + (bits.length + 7) / 8) →
    runCommands (.bwOpen :: bits.map .bwWritebit ++ [.bwClose]) s = some t →
    ∀ (u : State) (c : ConfigRegs), u = { t with bsrc := { t.bsrc with data := t.bsink.data }, cfg := c } →
    u.env.NoFail (2 + (bits.length + 7) / 8) →
    let pad := List.replicate ((8 - bits.length % 8) % 8) false
    ((c.rdctl = 0 ∨ bits.length ≤ c.rdlimit.toNat) → ∀ k, k ≤ bits.length →
      ∃ v, runCommands (.brOpen :: List.replicate k .brReadbit) u = some v ∧
        ∀ j b, k = j + 1 → bits[j]? = some b → v.res.result = if b then 0x22000100 else 0x22000000) ∧
    (c.rdctl = 1 → c.rdlimit = BitVec.ofNat 64 bits.length → ∀ k, k ≤ bits.length →
      ∃ v, runCommands (.brOpen :: List.replicate k .brReadbit) u = some v ∧ (v.hasNext = true ↔ k < bits.length)) ∧
    (c.rdctl = 0 → ∀ k, k ≤ (bits ++ pad).length →
      ∃ v, runCommands (.brOpen :: List.replicate k .brReadbit) u = some v ∧
        (v.hasNext = true ↔ k < (bits ++ pad).length) ∧
        ∀ j b, k = j + 1 → (bits ++ pad)[j]? = some b → v.res.result = if b then 0x22000100 else 0x22000000)

/-! ### The encoder -/

/-- R172, R174, R133, with the entry as R71 and R73 lay it out: bit 31 of word 0 is set, its bits 7 to 0 are the length
of the code `code`, and code bit `i` is bit `31 - i mod 32` of word `1 + i div 32`. With the writer open, the pending bits
and the code together make `full`. If no `Put` fails, its whole bytes go to the sink, the rest stays in `WR_ACC`, and
`WR_TOTAL` counts the code. If the `Put` after `j` bytes fails, the writer is closed, the sink released and `bad`, its
data free (log 3), and `WR_TOTAL` counts the bits up to that byte's last. The premise on `WR_ACC` is the invariant
R30 (a). -/
def Obligations.EncSymWritesCode : Prop :=
  ∀ (s : State) (x : Symbol) (h : Word) (code : List Bool), s.bw.isOpen = true →
    (∀ k, k < 8 - s.bw.cnt.toNat → s.bw.acc.getLsbD k = false) →
    s.ctabAt x 0 = some h → h.getLsbD 31 = true → code.length = (h.extractLsb' 0 8).toNat →
    (∀ i b, code[i]? = some b → ∃ w, s.ctabAt x (1 + i / 32) = some w ∧ w.getLsbD (31 - i % 32) = b) →
    let full := (unpackByte s.bw.acc).take s.bw.cnt.toNat ++ code
    let q := full.length / 8
    (s.env.NoFail q →
      exec (.encSym x) s = .next { s with
        bw := { isOpen := true, acc := packByte (full.drop (8 * q)), cnt := BitVec.ofNat 3 (full.length % 8)
                total := s.bw.total + BitVec.ofNat 64 code.length }
        bsink := { s.bsink with data := s.bsink.data ++ pack (full.take (8 * q)) }
        env := s.env.advanceN q
        res := { s.res with result := (0x30 : BitVec 8) ++ x ++ (0x0000 : BitVec 16) } }) ∧
    ∀ j, j < q → s.env.NoFail j → (s.env.advanceN j).fails = true → ∃ data : List Byte,
      exec (.encSym x) s = .next { s with
        bw := { isOpen := false, acc := 0, cnt := 0
                total := s.bw.total + BitVec.ofNat 64 (8 * (j + 1) - s.bw.cnt.toNat) }
        bsink := { held := false, data := data, bad := true }
        env := (s.env.advanceN j).afterFailedPut
        res := { result := 0x30000001, errinfo := 0x00100000, errlog := s.res.errlog ||| 0x2 } }

/-- R172, R252, R262: `ENC.SYM` of a symbol whose entry is not valid writes no bit of it, flushes the pending partial byte,
closes the writer and reports the symbol; a failure of that flush is only noted in `ERRLOG`. -/
def Obligations.EncSymUnknownSymbol : Prop :=
  ∀ (s : State) (x : Symbol) (h : Word), s.bw.isOpen = true → s.ctabAt x 0 = some h → h.getLsbD 31 = false →
    (s.bw.cnt = 0 → exec (.encSym x) s = .next { s with
      bw := { s.bw with isOpen := false, acc := 0, cnt := 0 }
      bsink := { s.bsink with held := false }
      res := { result := 0x30000002, errinfo := (0 : BitVec 24) ++ x, errlog := s.res.errlog ||| 0x4 } }) ∧
    (s.bw.cnt ≠ 0 → s.env.fails = false → exec (.encSym x) s = .next { s with
      bw := { s.bw with isOpen := false, acc := 0, cnt := 0 }
      bsink := { s.bsink with held := false, data := s.bsink.data ++ [s.bw.acc] }
      env := s.env.advance
      res := { result := 0x30000002, errinfo := (0 : BitVec 24) ++ x, errlog := s.res.errlog ||| 0x4 } }) ∧
    (s.bw.cnt ≠ 0 → s.env.fails = true → ∃ data : List Byte, exec (.encSym x) s = .next { s with
      bw := { s.bw with isOpen := false, acc := 0, cnt := 0 }
      bsink := { held := false, data := data, bad := true }
      env := { s.env.advance with freeIdx := s.env.advance.freeIdx + 1 }
      res := { result := 0x30000002, errinfo := (0 : BitVec 24) ++ x, errlog := s.res.errlog ||| 0x6 } })

/-- R177, the output law of the encoder (`ENC.RUN`, R176): when every symbol of `SSRC` has a code and no port operation
fails, the command ends OK, all of `SSRC` is taken, `BSINK` holds `Pack` of the codes in order, and `WR_TOTAL` their
length. The stepwise sequence of commands (`BW.OPEN`, one `ENC.SYM` per symbol, `BW.CLOSE`) puts the same bytes. -/
def Obligations.EncoderOutputLaw : Prop :=
  (∀ (s : State) (bits : List Bool), s.bw.isOpen = false → s.encodeBits s.ssrc.data = some bits →
    let ops := 2 + (s.ssrc.data.length + 1) + (bits.length + 7) / 8
    s.env.NoFail ops →
    exec .encRun s = .next { s with
      bw := { isOpen := false, acc := 0, cnt := 0, total := BitVec.ofNat 64 bits.length }
      bsink := { held := false, data := pack bits, bad := false }
      ssrc := { held := false, data := [] }
      env := s.env.advanceN ops
      res := { s.res with result := 0x31000000 } }) ∧
  ∀ (s : State) (xs : List Symbol) (bits : List Bool), s.bw.isOpen = false → s.encodeBits xs = some bits →
    s.env.NoFail (1 + (bits.length + 7) / 8) →
    ∃ t, runCommands (.bwOpen :: xs.map .encSym ++ [.bwClose]) s = some t ∧ t.bsink.data = pack bits ∧
      t.bw.total = BitVec.ofNat 64 bits.length ∧ t.bw.isOpen = false ∧ t.res.result = 0x12000000

/-- R176, R172, R262: every failing exit of `ENC.RUN` with the writer closed (open: R256). The two acquisitions; then, once
the symbols `pre` are encoded as `bits`: `Get` fails (port 4), the next symbol has no valid entry, a `Put` fails in the
middle of its code (port 1), or the `Put` of the close step fails (port 1). The clean-up after a failed `Get` and after an
unknown symbol flushes the pending bits, and a failure of that flush is only noted. Both ports are released, the symbols
not taken stay in `SSRC`; the data of a `bad` sink is free (log 3). -/
def Obligations.EncRunFailures : Prop :=
  ∀ s : State, s.bw.isOpen = false →
    (s.env.fails = true → exec .encRun s = .next { s with
      env := s.env.advance
      res := { result := 0x31000001, errinfo := 0x00400000, errlog := s.res.errlog ||| 0x2 } }) ∧
    (s.env.fails = false → s.env.advance.fails = true → exec .encRun s = .next { s with
      ssrc := { s.ssrc with held := false }
      env := s.env.advance.advance
      res := { result := 0x31000001, errinfo := 0x00100000, errlog := s.res.errlog ||| 0x2 } }) ∧
    ∀ (pre post : List Symbol) (bits : List Bool), s.ssrc.data = pre ++ post → s.encodeBits pre = some bits →
      let ops := 2 + pre.length + bits.length / 8
      s.env.NoFail ops →
      let e := s.env.advanceN ops
      let closed : Writer := { isOpen := false, acc := 0, cnt := 0, total := BitVec.ofNat 64 bits.length }
      (e.fails = true →
        let ended : State := { s with
          bw := closed
          bsink := { held := false, data := pack bits, bad := false }
          ssrc := { held := false, data := post }
          res := { result := 0x31000001, errinfo := 0x00400000, errlog := s.res.errlog ||| 0x2 } }
        (bits.length % 8 = 0 → exec .encRun s = .next { ended with env := e.advance }) ∧
        (bits.length % 8 ≠ 0 → e.advance.fails = false →
          exec .encRun s = .next { ended with env := e.advance.advance }) ∧
        (bits.length % 8 ≠ 0 → e.advance.fails = true → ∃ data : List Byte,
          exec .encRun s = .next { ended with
            bsink := { held := false, data := data, bad := true }
            env := e.advance.afterFailedPut })) ∧
      (post = [] → e.fails = false → bits.length % 8 ≠ 0 → e.advance.fails = true → ∃ data : List Byte,
        exec .encRun s = .next { s with
          bw := closed
          bsink := { held := false, data := data, bad := true }
          ssrc := { held := false, data := [] }
          env := e.advance.afterFailedPut
          res := { result := 0x31000001, errinfo := 0x00100000, errlog := s.res.errlog ||| 0x2 } }) ∧
      ∀ (x : Symbol) (rest : List Symbol), post = x :: rest → e.fails = false →
        (∀ h, s.ctabAt x 0 = some h → h.getLsbD 31 = false →
          let ended : State := { s with
            bw := closed
            bsink := { held := false, data := pack bits, bad := false }
            ssrc := { held := false, data := rest }
            res := { result := 0x31000002, errinfo := (0 : BitVec 24) ++ x, errlog := s.res.errlog ||| 0x4 } }
          (bits.length % 8 = 0 → exec .encRun s = .next { ended with env := e.advance }) ∧
          (bits.length % 8 ≠ 0 → e.advance.fails = false →
            exec .encRun s = .next { ended with env := e.advance.advance }) ∧
          (bits.length % 8 ≠ 0 → e.advance.fails = true → ∃ data : List Byte,
            exec .encRun s = .next { ended with
              bsink := { held := false, data := data, bad := true }
              env := e.advance.afterFailedPut
              res := { ended.res with errlog := s.res.errlog ||| 0x6 } })) ∧
        ∀ (c : List Bool) (j : Nat), s.entryCode x = some c → j < (bits.length % 8 + c.length) / 8 →
          e.advance.NoFail j → (e.advance.advanceN j).fails = true → ∃ data : List Byte,
            exec .encRun s = .next { s with
              bw := { closed with total := BitVec.ofNat 64 (8 * (bits.length / 8 + j + 1)) }
              bsink := { held := false, data := data, bad := true }
              ssrc := { held := false, data := rest }
              env := (e.advance.advanceN j).afterFailedPut
              res := { result := 0x31000001, errinfo := 0x00100000, errlog := s.res.errlog ||| 0x2 } }

/-! ### The decoder -/

/-- R190 (`DEC.START`, R191): with no session active and a tree present, the symbol sink is acquired and emptied and the
pointer put at the root; if the acquisition fails nothing changes but the record of `IoFailure`, port 3. -/
def Obligations.DecStartAtRoot : Prop :=
  ∀ s : State, s.dec.active = false → s.cfg.treecfg.getLsbD 9 = true →
    (s.env.fails = false → exec .decStart s = .next { s with
      dec := { active := true, node := s.cfg.treecfg.extractLsb' 0 9 }
      ssink := { held := true, data := [], bad := false }
      env := s.env.advance
      res := { s.res with result := 0x40000000 } }) ∧
    (s.env.fails = true → exec .decStart s = .next { s with
      env := s.env.advance
      res := { result := 0x40000001, errinfo := 0x00300000, errlog := s.res.errlog ||| 0x2 } })

/-- R192, R195 (`DEC.BIT`, R193), with the node word `w` as R67 and R68 lay it out: with bit 31 clear it has the left
child [26:18] if bit 30 is set and the right child [17:9] if bit 29 is; with bit 31 set it is a leaf and has none.
`DEC.BIT` hands out the bit exactly as `BR.READBIT` in the same state would, ending in `u`. With the child of that bit an
internal node, the pointer goes there; with it a leaf, its symbol [7:0] is put and the pointer goes to the root; with it
absent, `MalformedStream` cause 1 names the node and the bit and everything is closed. No draw is asked of the symbol
sink but in the leaf's case: an absent child wins over a sink that would fail (R259). -/
def Obligations.DecBitFollowsEdge : Prop :=
  ∀ (s : State) (w : Word), s.dec.active = true → s.br.isOpen = true → s.hasNext = true →
    (s.br.cnt = 1 → s.env.fails = false) → s.treeAt s.dec.node = some w →
    let b := s.br.byte.getLsbD (s.br.cnt.toNat - 1)
    let present := w.getLsbD 31 = false ∧ (if b then w.getLsbD 29 else w.getLsbD 30) = true
    let child : NodeIdx := if b then w.extractLsb' 9 9 else w.extractLsb' 18 9
    ∃ u, exec .brReadbit s = .next u ∧ u.env = (if s.br.cnt = 1 then s.env.advance else s.env) ∧
      (present → ∀ w2, s.treeAt child = some w2 →
        (w2.getLsbD 31 = false → exec .decBit s = .next { u with
          dec := { active := true, node := child }
          res := { s.res with result := if b then 0x41000100 else 0x41000000 } }) ∧
        (w2.getLsbD 31 = true → u.env.fails = false → exec .decBit s = .next { u with
          dec := { active := true, node := s.cfg.treecfg.extractLsb' 0 9 }
          ssink := { s.ssink with data := s.ssink.data ++ [w2.extractLsb' 0 8] }
          env := u.env.advance
          res := { s.res with
            result := (0x41 : BitVec 8) ++ w2.extractLsb' 0 8 ++ (if b then 0x0300 else 0x0200 : BitVec 16) } })) ∧
      (¬ present → exec .decBit s = .next { u with
        br := { isOpen := false, byte := 0, cnt := 0, total := s.br.total + 1 }
        bsrc := { u.bsrc with held := false }
        dec := { active := false, node := s.dec.node }
        ssink := { s.ssink with held := false }
        res := { result := 0x41000003
                 errinfo := (if b then 0x003 else 0x002 : BitVec 15) ++ s.dec.node ++ (0 : BitVec 8)
                 errlog := s.res.errlog ||| 0x8 } })

/-- R192, R259, R261: the two `IoFailure`s of `DEC.BIT`. A failed read-ahead is met before the tree is consulted (port 2),
and a failed `Put` of the symbol after it (port 3), be the bit the last of its byte or not; each closes the reader and
ends the session. The byte that a read-ahead took before the `Put` failed is not given back; the sink's data is free
(log 3). -/
def Obligations.DecBitIoFailures : Prop :=
  ∀ s : State, s.dec.active = true → s.br.isOpen = true → s.hasNext = true →
    (s.br.cnt = 1 → s.env.fails = true → exec .decBit s = .next { s with
      br := { isOpen := false, byte := 0, cnt := 0, total := s.br.total + 1 }
      bsrc := { s.bsrc with held := false }
      dec := { s.dec with active := false }
      ssink := { s.ssink with held := false }
      env := s.env.advance
      res := { result := 0x41000001, errinfo := 0x00200000, errlog := s.res.errlog ||| 0x2 } }) ∧
    ∀ w w2 : Word, s.treeAt s.dec.node = some w →
      let b := s.br.byte.getLsbD (s.br.cnt.toNat - 1)
      w.getLsbD 31 = false → (if b then w.getLsbD 29 else w.getLsbD 30) = true →
      s.treeAt (if b then w.extractLsb' 9 9 else w.extractLsb' 18 9) = some w2 → w2.getLsbD 31 = true →
      let ended : State := { s with
        br := { isOpen := false, byte := 0, cnt := 0, total := s.br.total + 1 }
        bsrc := { s.bsrc with held := false }
        dec := { s.dec with active := false }
        res := { result := 0x41000001, errinfo := 0x00300000, errlog := s.res.errlog ||| 0x2 } }
      (s.br.cnt ≠ 1 → s.env.fails = true → ∃ data : List Symbol, exec .decBit s = .next { ended with
        ssink := { held := false, data := data, bad := true }
        env := s.env.afterFailedPut }) ∧
      (s.br.cnt = 1 → s.env.fails = false → s.env.advance.fails = true → ∃ data : List Symbol,
        exec .decBit s = .next { ended with
          bsrc := { held := false, data := s.bsrc.data.drop 1 }
          ssink := { held := false, data := data, bad := true }
          env := s.env.advance.afterFailedPut })

/-- R194, R195 (`DEC.END`, R196): with the pointer at the root the session ends OK and the reader is left as it is; else
it ends with `MalformedStream` cause 2, which names the node, and the reader is closed if it is open. -/
def Obligations.DecEndChecksRoot : Prop :=
  ∀ s : State, s.dec.active = true →
    (s.dec.node = s.cfg.treecfg.extractLsb' 0 9 → exec .decEnd s = .next { s with
      dec := { s.dec with active := false }
      ssink := { s.ssink with held := false }
      res := { s.res with result := 0x42000000 } }) ∧
    (s.dec.node ≠ s.cfg.treecfg.extractLsb' 0 9 →
      (s.br.isOpen = false → exec .decEnd s = .next { s with
        dec := { s.dec with active := false }
        ssink := { s.ssink with held := false }
        res := { result := 0x42000003, errinfo := (0x004 : BitVec 15) ++ s.dec.node ++ (0 : BitVec 8)
                 errlog := s.res.errlog ||| 0x8 } }) ∧
      (s.br.isOpen = true → exec .decEnd s = .next { s with
        br := { s.br with isOpen := false, byte := 0, cnt := 0 }
        bsrc := { s.bsrc with held := false }
        dec := { s.dec with active := false }
        ssink := { s.ssink with held := false }
        res := { result := 0x42000003, errinfo := (0x004 : BitVec 15) ++ s.dec.node ++ (0 : BitVec 8)
                 errlog := s.res.errlog ||| 0x8 } }))

/-- R203: every exit of `DEC.RUN` with a tree present and both sessions closed (open: R256). The three draws before the
first bit: a failed `Acquire` of `BSRC` or a failed read-ahead is port 2, a failed `Acquire` of `SSINK` is port 3 and
closes the reader again. From there on it does what `BR.OPEN`, `DEC.START`, then `DEC.BIT` while `HasNext()` holds, then
`DEC.END` do: it ends as the first `DEC.BIT` that fails does, or as a `DEC.END` that fails does, with that failure under
its own opcode; and where `DEC.END` ends OK it closes the reader and ends OK. Where the `DEC.BIT` stops on an unwritten
word, so does it (log 5). After finitely many `DEC.BIT`s one of these ends is reached (R299). -/
def Obligations.DecRunFollowsSteps : Prop :=
  ∀ s : State, s.dec.active = false → s.br.isOpen = false → s.cfg.treecfg.getLsbD 9 = true →
    (s.env.fails = true → exec .decRun s = .next { s with
      env := s.env.advance
      res := { result := 0x43000001, errinfo := 0x00200000, errlog := s.res.errlog ||| 0x2 } }) ∧
    (s.env.fails = false → s.env.advance.fails = true → exec .decRun s = .next { s with
      br := { isOpen := false, byte := 0, cnt := 0, total := 0 }
      bsrc := { s.bsrc with held := false }
      env := s.env.advanceN 2
      res := { result := 0x43000001, errinfo := 0x00200000, errlog := s.res.errlog ||| 0x2 } }) ∧
    (s.env.NoFail 2 → (s.env.advanceN 2).fails = true → exec .decRun s = .next { s with
      br := { isOpen := false, byte := 0, cnt := 0, total := 0 }
      bsrc := { held := false, data := s.bsrc.data.drop 1 }
      env := s.env.advanceN 3
      res := { result := 0x43000001, errinfo := 0x00300000, errlog := s.res.errlog ||| 0x2 } }) ∧
    (s.env.NoFail 3 → ∃ (n : Nat) (u : State),
      runOk (.brOpen :: .decStart :: List.replicate n .decBit) s = some u ∧
      (u.hasNext = true → ∀ t, exec .decBit u = .next t → t.res.result.extractLsb' 0 4 ≠ 0)) ∧
    ∀ (n : Nat) (u : State), runOk (.brOpen :: .decStart :: List.replicate n .decBit) s = some u →
      let failsAs (t : State) : State :=
        { t with res := { t.res with result := (0x43 : BitVec 8) ++ t.res.result.extractLsb' 0 24 } }
      (u.hasNext = true →
        (∀ t, exec .decBit u = .next t → t.res.result.extractLsb' 0 4 ≠ 0 → exec .decRun s = .next (failsAs t)) ∧
        (∀ f, exec .decBit u = .fault f → exec .decRun s = .fault f)) ∧
      (u.hasNext = false → ∀ t, exec .decEnd u = .next t →
        (t.res.result.extractLsb' 0 4 ≠ 0 → exec .decRun s = .next (failsAs t)) ∧
        (t.res.result.extractLsb' 0 4 = 0 → exec .decRun s = .next { t with
          br := { t.br with isOpen := false, byte := 0, cnt := 0 }
          bsrc := { t.bsrc with held := false }
          res := { t.res with result := 0x43000000 } }))

/-- R204, the output law of the decoder (`DEC.RUN`, R203), for a well-formed tree: the packed codes of `xs`, read under
the limit of their length (or with no limit when they fill whole bytes), decode to `xs`, and the command ends OK with
everything taken and released. -/
def Obligations.DecoderOutputLaw : Prop :=
  ∀ (s : State) (xs : List Symbol) (codes : List (List Bool)), s.WfTree → s.dec.active = false →
    s.br.isOpen = false → List.Forall₂ s.TreeCode xs codes → codes.flatten.length < 2 ^ 64 →
    s.bsrc.data = pack codes.flatten →
    (s.Limit (BitVec.ofNat 64 codes.flatten.length) ∨ s.limited = false ∧ codes.flatten.length % 8 = 0) →
    let ops := 3 + xs.length + codes.flatten.length / 8
    s.env.NoFail ops →
    exec .decRun s = .next { s with
      br := { isOpen := false, byte := 0, cnt := 0, total := BitVec.ofNat 64 codes.flatten.length }
      bsrc := { held := false, data := [] }
      dec := { active := false, node := s.treeRoot }
      ssink := { held := false, data := xs, bad := false }
      env := s.env.advanceN ops
      res := { s.res with result := 0x43000000 } }

/-- R204, its second half, with R289: with no limit and a last byte that is not full, `DEC.RUN` on the packed codes of
`xs` goes on to decode the pad bits from the root. They put zero or more further symbols `ys`; the command ends OK if the
rest `r` of them is empty, and with `MalformedStream` cause 2 at the end of `r` if it is not. -/
def Obligations.UnlimitedDecodeReadsPadBits : Prop :=
  ∀ (s : State) (xs : List Symbol) (codes : List (List Bool)), s.WfTree → s.dec.active = false →
    s.br.isOpen = false → List.Forall₂ s.TreeCode xs codes → codes.flatten.length < 2 ^ 64 →
    0 < codes.flatten.length % 8 → s.bsrc.data = pack codes.flatten → s.limited = false →
    s.env.NoFail (10 + xs.length + (codes.flatten.length + 7) / 8) →
    ∃ (ys : List Symbol) (more : List (List Bool)) (r : List Bool) (j : NodeIdx) (t : State),
      List.Forall₂ s.TreeCode ys more ∧
      more.flatten ++ r = List.replicate (8 - codes.flatten.length % 8) false ∧
      s.walk s.treeRoot r = some j ∧ s.leafAt j = none ∧
      exec .decRun s = .next t ∧ t.ssink.data = xs ++ ys ∧ t.dec.active = false ∧ t.br.isOpen = false ∧
      (r = [] → t.res = { s.res with result := 0x43000000 }) ∧
      (r ≠ [] → t.res = { result := 0x43000003, errinfo := (0x004 : BitVec 15) ++ j ++ (0 : BitVec 8)
                          errlog := s.res.errlog ||| 0x8 })

/-- R254, R233, R176, R203: empty input is no failure. `DEC.RUN` with the tree absent touches no port; `ENC.RUN` with
no symbol in `SSRC` acquires and releases both ports and leaves an empty sink, whatever the table holds. -/
def Obligations.EmptyInputIsNoFailure : Prop :=
  ∀ s : State,
    (s.dec.active = false → s.br.isOpen = false → s.cfg.treecfg.getLsbD 9 = false →
      exec .decRun s = .next { s with res := { s.res with result := 0x43000000 } }) ∧
    (s.bw.isOpen = false → s.ssrc.data = [] → s.env.NoFail 3 → exec .encRun s = .next { s with
      bw := { isOpen := false, acc := 0, cnt := 0, total := 0 }
      bsink := { held := false, data := [], bad := false }
      ssrc := { held := false, data := [] }
      env := s.env.advanceN 3
      res := { s.res with result := 0x31000000 } })

/-- R205, R289: the single-symbol tree. Every 0 bit emits the symbol and leaves the pointer at the root; a 1 bit is
`MalformedStream` cause 1 at the root; and with no limit `DEC.RUN` on the encoding of `k` copies emits the copies of
whole bytes, pad bits included. -/
def Obligations.SingleSymbolTree : Prop :=
  ∀ (s : State) (x : Symbol) (j : NodeIdx), s.treePresent = true → s.leafAt s.treeRoot = none →
    s.childAt s.treeRoot false = some j → s.leafAt j = some x → s.childAt s.treeRoot true = none →
    (s.dec.active = true → s.br.isOpen = true → s.hasNext = true → s.dec.node = s.treeRoot → s.env.NoFail 2 →
      ∃ t, exec .decBit s = .next t ∧
        (s.br.byte.getLsbD (s.br.cnt.toNat - 1) = false →
          t.ssink.data = s.ssink.data ++ [x] ∧ t.dec.active = true ∧ t.dec.node = s.treeRoot ∧
          t.res.result = (0x41 : BitVec 8) ++ x ++ (0x0200 : BitVec 16)) ∧
        (s.br.byte.getLsbD (s.br.cnt.toNat - 1) = true → t.dec.active = false ∧ t.br.isOpen = false ∧
          t.res.result = 0x41000003 ∧ t.res.errinfo = (0x003 : BitVec 15) ++ s.treeRoot ++ (0 : BitVec 8))) ∧
    (∀ k, s.dec.active = false → s.br.isOpen = false → s.limited = false →
      s.bsrc.data = pack (List.replicate k false) → s.env.NoFail (3 + 9 * ((k + 7) / 8)) →
      ∃ t, exec .decRun s = .next t ∧ t.ssink.data = List.replicate (8 * ((k + 7) / 8)) x ∧
        t.res.result = 0x43000000)

/-- R230: under `WF_TREE` the codes of two different symbols are not prefixes of one another. -/
def Obligations.TreeCodesPrefixFree : Prop :=
  ∀ (s : State) (x y : Symbol) (p q : List Bool), s.WfTree → s.TreeCode x p → s.TreeCode y q → x ≠ y → ¬ p <+: q

/-- R231, the round trip over the hardware: with a well-formed tree and its table, `ENC.RUN` on the symbols in `SSRC`,
the bytes of `BSINK` moved to `BSRC`, the limit set to `WR_TOTAL`, then `DEC.RUN`: both commands end OK and `SSINK` holds
the symbols. -/
def Obligations.EncodeDecodeRoundTrip : Prop :=
  ∀ (s : State) (codes : List (List Bool)), s.Idle → s.WfTree → s.WfTable →
    List.Forall₂ s.TreeCode s.ssrc.data codes → codes.flatten.length < 2 ^ 64 →
    s.env.NoFail (6 + 2 * s.ssrc.data.length + (codes.flatten.length + 7) / 8 + codes.flatten.length / 8) →
    ∃ t, exec .encRun s = .next t ∧ t.res.result = 0x31000000 ∧
      ∀ u : State, u = { t with bsrc := { t.bsrc with data := t.bsink.data }
                                cfg := { t.cfg with rdctl := 1, rdlimit := t.bw.total } } →
        ∃ v, exec .decRun u = .next v ∧ v.res.result = 0x43000000 ∧ v.ssink.data = s.ssrc.data

/-! ### The host's builders -/

/-- R226 to R228, R230: the table of a built tree has one entry per symbol of the frequency table, no empty code, and no
code is a prefix of another's, whatever the tie-break. -/
def Obligations.BuiltTableIsPrefixFree : Prop :=
  ∀ (tieBreak : CodeTree → CodeTree → Bool) (fs : List (Symbol × Nat)), (fs.map Prod.fst).Nodup →
    ((buildTable (buildTree tieBreak fs)).map Prod.fst).Perm (fs.map Prod.fst) ∧
    (∀ e ∈ buildTable (buildTree tieBreak fs), e.2 ≠ []) ∧
    ∀ e ∈ buildTable (buildTree tieBreak fs), ∀ d ∈ buildTable (buildTree tieBreak fs), e.1 ≠ d.1 → ¬ e.2 <+: d.2
end

