-- ==== Sys2Proof/Laws/State.lean ====
section
/-! SUPPORT. The small lemmas of State: what each named update leaves in each field, so that no later proof unfolds a
record update. -/

namespace Sys2Proof.Machine

variable (s : State)

/-! ### `State.done` -/

@[simp] theorem State.done_bw (opc : BitVec 8) (r : Reply) : (s.done opc r).bw = s.bw := rfl
@[simp] theorem State.done_br (opc : BitVec 8) (r : Reply) : (s.done opc r).br = s.br := rfl
@[simp] theorem State.done_dec (opc : BitVec 8) (r : Reply) : (s.done opc r).dec = s.dec := rfl
@[simp] theorem State.done_cfg (opc : BitVec 8) (r : Reply) : (s.done opc r).cfg = s.cfg := rfl
@[simp] theorem State.done_res (opc : BitVec 8) (r : Reply) :
    (s.done opc r).res = { s.res with result := resultWord opc r.sym r.emit r.val 0 } := rfl
@[simp] theorem State.done_tree (opc : BitVec 8) (r : Reply) : (s.done opc r).tree = s.tree := rfl
@[simp] theorem State.done_ctab (opc : BitVec 8) (r : Reply) : (s.done opc r).ctab = s.ctab := rfl
@[simp] theorem State.done_bsink (opc : BitVec 8) (r : Reply) : (s.done opc r).bsink = s.bsink := rfl
@[simp] theorem State.done_bsrc (opc : BitVec 8) (r : Reply) : (s.done opc r).bsrc = s.bsrc := rfl
@[simp] theorem State.done_ssink (opc : BitVec 8) (r : Reply) : (s.done opc r).ssink = s.ssink := rfl
@[simp] theorem State.done_ssrc (opc : BitVec 8) (r : Reply) : (s.done opc r).ssrc = s.ssrc := rfl
@[simp] theorem State.done_env (opc : BitVec 8) (r : Reply) : (s.done opc r).env = s.env := rfl

/-! ### `State.raise` -/

@[simp] theorem State.raise_bw (opc : BitVec 8) (e : Failure) : (s.raise opc e).bw = s.bw := rfl
@[simp] theorem State.raise_br (opc : BitVec 8) (e : Failure) : (s.raise opc e).br = s.br := rfl
@[simp] theorem State.raise_dec (opc : BitVec 8) (e : Failure) : (s.raise opc e).dec = s.dec := rfl
@[simp] theorem State.raise_cfg (opc : BitVec 8) (e : Failure) : (s.raise opc e).cfg = s.cfg := rfl
@[simp] theorem State.raise_res (opc : BitVec 8) (e : Failure) :
    (s.raise opc e).res = { result := resultWord opc 0 false false e.code, errinfo := e.info, errlog := s.res.errlog ||| logBit e.code } := rfl
@[simp] theorem State.raise_tree (opc : BitVec 8) (e : Failure) : (s.raise opc e).tree = s.tree := rfl
@[simp] theorem State.raise_ctab (opc : BitVec 8) (e : Failure) : (s.raise opc e).ctab = s.ctab := rfl
@[simp] theorem State.raise_bsink (opc : BitVec 8) (e : Failure) : (s.raise opc e).bsink = s.bsink := rfl
@[simp] theorem State.raise_bsrc (opc : BitVec 8) (e : Failure) : (s.raise opc e).bsrc = s.bsrc := rfl
@[simp] theorem State.raise_ssink (opc : BitVec 8) (e : Failure) : (s.raise opc e).ssink = s.ssink := rfl
@[simp] theorem State.raise_ssrc (opc : BitVec 8) (e : Failure) : (s.raise opc e).ssrc = s.ssrc := rfl
@[simp] theorem State.raise_env (opc : BitVec 8) (e : Failure) : (s.raise opc e).env = s.env := rfl

/-! ### `State.note` -/

@[simp] theorem State.note_bw (e : Failure) : (s.note e).bw = s.bw := rfl
@[simp] theorem State.note_br (e : Failure) : (s.note e).br = s.br := rfl
@[simp] theorem State.note_dec (e : Failure) : (s.note e).dec = s.dec := rfl
@[simp] theorem State.note_cfg (e : Failure) : (s.note e).cfg = s.cfg := rfl
@[simp] theorem State.note_res (e : Failure) :
    (s.note e).res = { s.res with errlog := s.res.errlog ||| logBit e.code } := rfl
@[simp] theorem State.note_tree (e : Failure) : (s.note e).tree = s.tree := rfl
@[simp] theorem State.note_ctab (e : Failure) : (s.note e).ctab = s.ctab := rfl
@[simp] theorem State.note_bsink (e : Failure) : (s.note e).bsink = s.bsink := rfl
@[simp] theorem State.note_bsrc (e : Failure) : (s.note e).bsrc = s.bsrc := rfl
@[simp] theorem State.note_ssink (e : Failure) : (s.note e).ssink = s.ssink := rfl
@[simp] theorem State.note_ssrc (e : Failure) : (s.note e).ssrc = s.ssrc := rfl
@[simp] theorem State.note_env (e : Failure) : (s.note e).env = s.env := rfl

/-! ### `State.noteLock` -/

@[simp] theorem State.noteLock_bw : (s.noteLock).bw = s.bw := rfl
@[simp] theorem State.noteLock_br : (s.noteLock).br = s.br := rfl
@[simp] theorem State.noteLock_dec : (s.noteLock).dec = s.dec := rfl
@[simp] theorem State.noteLock_cfg : (s.noteLock).cfg = s.cfg := rfl
@[simp] theorem State.noteLock_res : (s.noteLock).res = { s.res with errlog := s.res.errlog ||| 0x100 } := rfl
@[simp] theorem State.noteLock_tree : (s.noteLock).tree = s.tree := rfl
@[simp] theorem State.noteLock_ctab : (s.noteLock).ctab = s.ctab := rfl
@[simp] theorem State.noteLock_bsink : (s.noteLock).bsink = s.bsink := rfl
@[simp] theorem State.noteLock_bsrc : (s.noteLock).bsrc = s.bsrc := rfl
@[simp] theorem State.noteLock_ssink : (s.noteLock).ssink = s.ssink := rfl
@[simp] theorem State.noteLock_ssrc : (s.noteLock).ssrc = s.ssrc := rfl
@[simp] theorem State.noteLock_env : (s.noteLock).env = s.env := rfl

/-! ### `State.afterDraw` -/

@[simp] theorem State.afterDraw_bw : (s.afterDraw).bw = s.bw := rfl
@[simp] theorem State.afterDraw_br : (s.afterDraw).br = s.br := rfl
@[simp] theorem State.afterDraw_dec : (s.afterDraw).dec = s.dec := rfl
@[simp] theorem State.afterDraw_cfg : (s.afterDraw).cfg = s.cfg := rfl
@[simp] theorem State.afterDraw_res : (s.afterDraw).res = s.res := rfl
@[simp] theorem State.afterDraw_tree : (s.afterDraw).tree = s.tree := rfl
@[simp] theorem State.afterDraw_ctab : (s.afterDraw).ctab = s.ctab := rfl
@[simp] theorem State.afterDraw_bsink : (s.afterDraw).bsink = s.bsink := rfl
@[simp] theorem State.afterDraw_bsrc : (s.afterDraw).bsrc = s.bsrc := rfl
@[simp] theorem State.afterDraw_ssink : (s.afterDraw).ssink = s.ssink := rfl
@[simp] theorem State.afterDraw_ssrc : (s.afterDraw).ssrc = s.ssrc := rfl
@[simp] theorem State.afterDraw_env : (s.afterDraw).env = s.env.advance := rfl

/-! ### `State.clearAcc` -/

@[simp] theorem State.clearAcc_bw : (s.clearAcc).bw = { s.bw with acc := 0, cnt := 0 } := rfl
@[simp] theorem State.clearAcc_br : (s.clearAcc).br = s.br := rfl
@[simp] theorem State.clearAcc_dec : (s.clearAcc).dec = s.dec := rfl
@[simp] theorem State.clearAcc_cfg : (s.clearAcc).cfg = s.cfg := rfl
@[simp] theorem State.clearAcc_res : (s.clearAcc).res = s.res := rfl
@[simp] theorem State.clearAcc_tree : (s.clearAcc).tree = s.tree := rfl
@[simp] theorem State.clearAcc_ctab : (s.clearAcc).ctab = s.ctab := rfl
@[simp] theorem State.clearAcc_bsink : (s.clearAcc).bsink = s.bsink := rfl
@[simp] theorem State.clearAcc_bsrc : (s.clearAcc).bsrc = s.bsrc := rfl
@[simp] theorem State.clearAcc_ssink : (s.clearAcc).ssink = s.ssink := rfl
@[simp] theorem State.clearAcc_ssrc : (s.clearAcc).ssrc = s.ssrc := rfl
@[simp] theorem State.clearAcc_env : (s.clearAcc).env = s.env := rfl

/-! ### `State.startWriter` -/

@[simp] theorem State.startWriter_bw : (s.startWriter).bw = { isOpen := true, acc := 0, cnt := 0, total := 0 } := rfl
@[simp] theorem State.startWriter_br : (s.startWriter).br = s.br := rfl
@[simp] theorem State.startWriter_dec : (s.startWriter).dec = s.dec := rfl
@[simp] theorem State.startWriter_cfg : (s.startWriter).cfg = s.cfg := rfl
@[simp] theorem State.startWriter_res : (s.startWriter).res = s.res := rfl
@[simp] theorem State.startWriter_tree : (s.startWriter).tree = s.tree := rfl
@[simp] theorem State.startWriter_ctab : (s.startWriter).ctab = s.ctab := rfl
@[simp] theorem State.startWriter_bsink : (s.startWriter).bsink = s.bsink := rfl
@[simp] theorem State.startWriter_bsrc : (s.startWriter).bsrc = s.bsrc := rfl
@[simp] theorem State.startWriter_ssink : (s.startWriter).ssink = s.ssink := rfl
@[simp] theorem State.startWriter_ssrc : (s.startWriter).ssrc = s.ssrc := rfl
@[simp] theorem State.startWriter_env : (s.startWriter).env = s.env := rfl

/-! ### `State.placeBit` -/

@[simp] theorem State.placeBit_bw (b : Bool) :
    (s.placeBit b).bw = { s.bw with acc := setByteBit s.bw.acc (7 - s.bw.cnt.toNat) b, total := s.bw.total + 1 } := rfl
@[simp] theorem State.placeBit_br (b : Bool) : (s.placeBit b).br = s.br := rfl
@[simp] theorem State.placeBit_dec (b : Bool) : (s.placeBit b).dec = s.dec := rfl
@[simp] theorem State.placeBit_cfg (b : Bool) : (s.placeBit b).cfg = s.cfg := rfl
@[simp] theorem State.placeBit_res (b : Bool) : (s.placeBit b).res = s.res := rfl
@[simp] theorem State.placeBit_tree (b : Bool) : (s.placeBit b).tree = s.tree := rfl
@[simp] theorem State.placeBit_ctab (b : Bool) : (s.placeBit b).ctab = s.ctab := rfl
@[simp] theorem State.placeBit_bsink (b : Bool) : (s.placeBit b).bsink = s.bsink := rfl
@[simp] theorem State.placeBit_bsrc (b : Bool) : (s.placeBit b).bsrc = s.bsrc := rfl
@[simp] theorem State.placeBit_ssink (b : Bool) : (s.placeBit b).ssink = s.ssink := rfl
@[simp] theorem State.placeBit_ssrc (b : Bool) : (s.placeBit b).ssrc = s.ssrc := rfl
@[simp] theorem State.placeBit_env (b : Bool) : (s.placeBit b).env = s.env := rfl

/-! ### `State.dropWriter` -/

@[simp] theorem State.dropWriter_bw : (s.dropWriter).bw = { s.bw with isOpen := false } := rfl
@[simp] theorem State.dropWriter_br : (s.dropWriter).br = s.br := rfl
@[simp] theorem State.dropWriter_dec : (s.dropWriter).dec = s.dec := rfl
@[simp] theorem State.dropWriter_cfg : (s.dropWriter).cfg = s.cfg := rfl
@[simp] theorem State.dropWriter_res : (s.dropWriter).res = s.res := rfl
@[simp] theorem State.dropWriter_tree : (s.dropWriter).tree = s.tree := rfl
@[simp] theorem State.dropWriter_ctab : (s.dropWriter).ctab = s.ctab := rfl
@[simp] theorem State.dropWriter_bsink : (s.dropWriter).bsink = { s.bsink with held := false } := rfl
@[simp] theorem State.dropWriter_bsrc : (s.dropWriter).bsrc = s.bsrc := rfl
@[simp] theorem State.dropWriter_ssink : (s.dropWriter).ssink = s.ssink := rfl
@[simp] theorem State.dropWriter_ssrc : (s.dropWriter).ssrc = s.ssrc := rfl
@[simp] theorem State.dropWriter_env : (s.dropWriter).env = s.env := rfl

/-! ### `State.setRead` -/

@[simp] theorem State.setRead_bw (v : Byte) (n : BitVec 4) : (s.setRead v n).bw = s.bw := rfl
@[simp] theorem State.setRead_br (v : Byte) (n : BitVec 4) :
    (s.setRead v n).br = { s.br with byte := v, cnt := n } := rfl
@[simp] theorem State.setRead_dec (v : Byte) (n : BitVec 4) : (s.setRead v n).dec = s.dec := rfl
@[simp] theorem State.setRead_cfg (v : Byte) (n : BitVec 4) : (s.setRead v n).cfg = s.cfg := rfl
@[simp] theorem State.setRead_res (v : Byte) (n : BitVec 4) : (s.setRead v n).res = s.res := rfl
@[simp] theorem State.setRead_tree (v : Byte) (n : BitVec 4) : (s.setRead v n).tree = s.tree := rfl
@[simp] theorem State.setRead_ctab (v : Byte) (n : BitVec 4) : (s.setRead v n).ctab = s.ctab := rfl
@[simp] theorem State.setRead_bsink (v : Byte) (n : BitVec 4) : (s.setRead v n).bsink = s.bsink := rfl
@[simp] theorem State.setRead_bsrc (v : Byte) (n : BitVec 4) : (s.setRead v n).bsrc = s.bsrc := rfl
@[simp] theorem State.setRead_ssink (v : Byte) (n : BitVec 4) : (s.setRead v n).ssink = s.ssink := rfl
@[simp] theorem State.setRead_ssrc (v : Byte) (n : BitVec 4) : (s.setRead v n).ssrc = s.ssrc := rfl
@[simp] theorem State.setRead_env (v : Byte) (n : BitVec 4) : (s.setRead v n).env = s.env := rfl

/-! ### `State.dropReader` -/

@[simp] theorem State.dropReader_bw : (s.dropReader).bw = s.bw := rfl
@[simp] theorem State.dropReader_br : (s.dropReader).br = { s.br with isOpen := false } := rfl
@[simp] theorem State.dropReader_dec : (s.dropReader).dec = s.dec := rfl
@[simp] theorem State.dropReader_cfg : (s.dropReader).cfg = s.cfg := rfl
@[simp] theorem State.dropReader_res : (s.dropReader).res = s.res := rfl
@[simp] theorem State.dropReader_tree : (s.dropReader).tree = s.tree := rfl
@[simp] theorem State.dropReader_ctab : (s.dropReader).ctab = s.ctab := rfl
@[simp] theorem State.dropReader_bsink : (s.dropReader).bsink = s.bsink := rfl
@[simp] theorem State.dropReader_bsrc : (s.dropReader).bsrc = { s.bsrc with held := false } := rfl
@[simp] theorem State.dropReader_ssink : (s.dropReader).ssink = s.ssink := rfl
@[simp] theorem State.dropReader_ssrc : (s.dropReader).ssrc = s.ssrc := rfl
@[simp] theorem State.dropReader_env : (s.dropReader).env = s.env := rfl

/-! ### `State.setNode` -/

@[simp] theorem State.setNode_bw (n : NodeIdx) : (s.setNode n).bw = s.bw := rfl
@[simp] theorem State.setNode_br (n : NodeIdx) : (s.setNode n).br = s.br := rfl
@[simp] theorem State.setNode_dec (n : NodeIdx) : (s.setNode n).dec = { s.dec with node := n } := rfl
@[simp] theorem State.setNode_cfg (n : NodeIdx) : (s.setNode n).cfg = s.cfg := rfl
@[simp] theorem State.setNode_res (n : NodeIdx) : (s.setNode n).res = s.res := rfl
@[simp] theorem State.setNode_tree (n : NodeIdx) : (s.setNode n).tree = s.tree := rfl
@[simp] theorem State.setNode_ctab (n : NodeIdx) : (s.setNode n).ctab = s.ctab := rfl
@[simp] theorem State.setNode_bsink (n : NodeIdx) : (s.setNode n).bsink = s.bsink := rfl
@[simp] theorem State.setNode_bsrc (n : NodeIdx) : (s.setNode n).bsrc = s.bsrc := rfl
@[simp] theorem State.setNode_ssink (n : NodeIdx) : (s.setNode n).ssink = s.ssink := rfl
@[simp] theorem State.setNode_ssrc (n : NodeIdx) : (s.setNode n).ssrc = s.ssrc := rfl
@[simp] theorem State.setNode_env (n : NodeIdx) : (s.setNode n).env = s.env := rfl

/-! ### `State.startNode` -/

@[simp] theorem State.startNode_bw : (s.startNode).bw = s.bw := rfl
@[simp] theorem State.startNode_br : (s.startNode).br = s.br := rfl
@[simp] theorem State.startNode_dec : (s.startNode).dec = { active := true, node := s.treeRoot } := rfl
@[simp] theorem State.startNode_cfg : (s.startNode).cfg = s.cfg := rfl
@[simp] theorem State.startNode_res : (s.startNode).res = s.res := rfl
@[simp] theorem State.startNode_tree : (s.startNode).tree = s.tree := rfl
@[simp] theorem State.startNode_ctab : (s.startNode).ctab = s.ctab := rfl
@[simp] theorem State.startNode_bsink : (s.startNode).bsink = s.bsink := rfl
@[simp] theorem State.startNode_bsrc : (s.startNode).bsrc = s.bsrc := rfl
@[simp] theorem State.startNode_ssink : (s.startNode).ssink = s.ssink := rfl
@[simp] theorem State.startNode_ssrc : (s.startNode).ssrc = s.ssrc := rfl
@[simp] theorem State.startNode_env : (s.startNode).env = s.env := rfl

/-! ### `State.dropDecode` -/

@[simp] theorem State.dropDecode_bw : (s.dropDecode).bw = s.bw := rfl
@[simp] theorem State.dropDecode_br : (s.dropDecode).br = s.br := rfl
@[simp] theorem State.dropDecode_dec : (s.dropDecode).dec = { s.dec with active := false } := rfl
@[simp] theorem State.dropDecode_cfg : (s.dropDecode).cfg = s.cfg := rfl
@[simp] theorem State.dropDecode_res : (s.dropDecode).res = s.res := rfl
@[simp] theorem State.dropDecode_tree : (s.dropDecode).tree = s.tree := rfl
@[simp] theorem State.dropDecode_ctab : (s.dropDecode).ctab = s.ctab := rfl
@[simp] theorem State.dropDecode_bsink : (s.dropDecode).bsink = s.bsink := rfl
@[simp] theorem State.dropDecode_bsrc : (s.dropDecode).bsrc = s.bsrc := rfl
@[simp] theorem State.dropDecode_ssink : (s.dropDecode).ssink = { s.ssink with held := false } := rfl
@[simp] theorem State.dropDecode_ssrc : (s.dropDecode).ssrc = s.ssrc := rfl
@[simp] theorem State.dropDecode_env : (s.dropDecode).env = s.env := rfl

/-! ### `State.hostRead` -/

@[simp] theorem State.hostRead_bw (a : RegAddr) : (s.hostRead a).bw = s.bw := rfl
@[simp] theorem State.hostRead_br (a : RegAddr) : (s.hostRead a).br = s.br := rfl
@[simp] theorem State.hostRead_dec (a : RegAddr) : (s.hostRead a).dec = s.dec := rfl
@[simp] theorem State.hostRead_cfg (a : RegAddr) : (s.hostRead a).cfg = s.cfg := rfl
@[simp] theorem State.hostRead_res (a : RegAddr) : (s.hostRead a).res = s.res := rfl
@[simp] theorem State.hostRead_tree (a : RegAddr) : (s.hostRead a).tree = s.tree := rfl
@[simp] theorem State.hostRead_ctab (a : RegAddr) : (s.hostRead a).ctab = s.ctab := rfl
@[simp] theorem State.hostRead_bsink (a : RegAddr) : (s.hostRead a).bsink = s.bsink := rfl
@[simp] theorem State.hostRead_bsrc (a : RegAddr) : (s.hostRead a).bsrc = s.bsrc := rfl
@[simp] theorem State.hostRead_ssink (a : RegAddr) : (s.hostRead a).ssink = s.ssink := rfl
@[simp] theorem State.hostRead_ssrc (a : RegAddr) : (s.hostRead a).ssrc = s.ssrc := rfl
@[simp] theorem State.hostRead_env (a : RegAddr) :
    (s.hostRead a).env = { s.env with readData := s.readLoc (locate a) } := rfl

/-! ### `State.take` -/

@[simp] theorem State.take_bw (a : HostAction) (rest : List HostAction) : (s.take a rest).bw = s.bw := rfl
@[simp] theorem State.take_br (a : HostAction) (rest : List HostAction) : (s.take a rest).br = s.br := rfl
@[simp] theorem State.take_dec (a : HostAction) (rest : List HostAction) : (s.take a rest).dec = s.dec := rfl
@[simp] theorem State.take_cfg (a : HostAction) (rest : List HostAction) : (s.take a rest).cfg = s.cfg := rfl
@[simp] theorem State.take_res (a : HostAction) (rest : List HostAction) : (s.take a rest).res = s.res := rfl
@[simp] theorem State.take_tree (a : HostAction) (rest : List HostAction) : (s.take a rest).tree = s.tree := rfl
@[simp] theorem State.take_ctab (a : HostAction) (rest : List HostAction) : (s.take a rest).ctab = s.ctab := rfl
@[simp] theorem State.take_bsink (a : HostAction) (rest : List HostAction) : (s.take a rest).bsink = s.bsink := rfl
@[simp] theorem State.take_bsrc (a : HostAction) (rest : List HostAction) : (s.take a rest).bsrc = s.bsrc := rfl
@[simp] theorem State.take_ssink (a : HostAction) (rest : List HostAction) : (s.take a rest).ssink = s.ssink := rfl
@[simp] theorem State.take_ssrc (a : HostAction) (rest : List HostAction) : (s.take a rest).ssrc = s.ssrc := rfl
@[simp] theorem State.take_env (a : HostAction) (rest : List HostAction) :
    (s.take a rest).env = s.env.take a rest := rfl

/-! ### `State.setSink` -/

@[simp] theorem State.setSink_bw (p : SinkPort) (k : Sink) : (s.setSink p k).bw = s.bw := by cases p <;> rfl
@[simp] theorem State.setSink_br (p : SinkPort) (k : Sink) : (s.setSink p k).br = s.br := by cases p <;> rfl
@[simp] theorem State.setSink_dec (p : SinkPort) (k : Sink) : (s.setSink p k).dec = s.dec := by cases p <;> rfl
@[simp] theorem State.setSink_cfg (p : SinkPort) (k : Sink) : (s.setSink p k).cfg = s.cfg := by cases p <;> rfl
@[simp] theorem State.setSink_res (p : SinkPort) (k : Sink) : (s.setSink p k).res = s.res := by cases p <;> rfl
@[simp] theorem State.setSink_tree (p : SinkPort) (k : Sink) : (s.setSink p k).tree = s.tree := by cases p <;> rfl
@[simp] theorem State.setSink_ctab (p : SinkPort) (k : Sink) : (s.setSink p k).ctab = s.ctab := by cases p <;> rfl
@[simp] theorem State.setSink_bsrc (p : SinkPort) (k : Sink) : (s.setSink p k).bsrc = s.bsrc := by cases p <;> rfl
@[simp] theorem State.setSink_ssrc (p : SinkPort) (k : Sink) : (s.setSink p k).ssrc = s.ssrc := by cases p <;> rfl
@[simp] theorem State.setSink_env (p : SinkPort) (k : Sink) : (s.setSink p k).env = s.env := by cases p <;> rfl
@[simp] theorem State.setSink_bsink_bsink (k : Sink) : (s.setSink .bsink k).bsink = k := rfl
@[simp] theorem State.setSink_bsink_ssink (k : Sink) : (s.setSink .bsink k).ssink = s.ssink := rfl
@[simp] theorem State.setSink_ssink_bsink (k : Sink) : (s.setSink .ssink k).bsink = s.bsink := rfl
@[simp] theorem State.setSink_ssink_ssink (k : Sink) : (s.setSink .ssink k).ssink = k := rfl
@[simp] theorem State.sink_bsink : s.sink .bsink = s.bsink := rfl
@[simp] theorem State.sink_ssink : s.sink .ssink = s.ssink := rfl

/-! ### `State.setSource` -/

@[simp] theorem State.setSource_bw (p : SourcePort) (k : Source) : (s.setSource p k).bw = s.bw := by cases p <;> rfl
@[simp] theorem State.setSource_br (p : SourcePort) (k : Source) : (s.setSource p k).br = s.br := by cases p <;> rfl
@[simp] theorem State.setSource_dec (p : SourcePort) (k : Source) : (s.setSource p k).dec = s.dec := by cases p <;> rfl
@[simp] theorem State.setSource_cfg (p : SourcePort) (k : Source) : (s.setSource p k).cfg = s.cfg := by cases p <;> rfl
@[simp] theorem State.setSource_res (p : SourcePort) (k : Source) : (s.setSource p k).res = s.res := by cases p <;> rfl
@[simp] theorem State.setSource_tree (p : SourcePort) (k : Source) : (s.setSource p k).tree = s.tree := by cases p <;> rfl
@[simp] theorem State.setSource_ctab (p : SourcePort) (k : Source) : (s.setSource p k).ctab = s.ctab := by cases p <;> rfl
@[simp] theorem State.setSource_bsink (p : SourcePort) (k : Source) : (s.setSource p k).bsink = s.bsink := by cases p <;> rfl
@[simp] theorem State.setSource_ssink (p : SourcePort) (k : Source) : (s.setSource p k).ssink = s.ssink := by cases p <;> rfl
@[simp] theorem State.setSource_env (p : SourcePort) (k : Source) : (s.setSource p k).env = s.env := by cases p <;> rfl
@[simp] theorem State.setSource_bsrc_bsrc (k : Source) : (s.setSource .bsrc k).bsrc = k := rfl
@[simp] theorem State.setSource_bsrc_ssrc (k : Source) : (s.setSource .bsrc k).ssrc = s.ssrc := rfl
@[simp] theorem State.setSource_ssrc_bsrc (k : Source) : (s.setSource .ssrc k).bsrc = s.bsrc := rfl
@[simp] theorem State.setSource_ssrc_ssrc (k : Source) : (s.setSource .ssrc k).ssrc = k := rfl
@[simp] theorem State.source_bsrc : s.source .bsrc = s.bsrc := rfl
@[simp] theorem State.source_ssrc : s.source .ssrc = s.ssrc := rfl

/-! ### `State.releaseSink` -/

@[simp] theorem State.releaseSink_bw (p : SinkPort) : (s.releaseSink p).bw = s.bw := by cases p <;> rfl
@[simp] theorem State.releaseSink_br (p : SinkPort) : (s.releaseSink p).br = s.br := by cases p <;> rfl
@[simp] theorem State.releaseSink_dec (p : SinkPort) : (s.releaseSink p).dec = s.dec := by cases p <;> rfl
@[simp] theorem State.releaseSink_cfg (p : SinkPort) : (s.releaseSink p).cfg = s.cfg := by cases p <;> rfl
@[simp] theorem State.releaseSink_res (p : SinkPort) : (s.releaseSink p).res = s.res := by cases p <;> rfl
@[simp] theorem State.releaseSink_tree (p : SinkPort) : (s.releaseSink p).tree = s.tree := by cases p <;> rfl
@[simp] theorem State.releaseSink_ctab (p : SinkPort) : (s.releaseSink p).ctab = s.ctab := by cases p <;> rfl
@[simp] theorem State.releaseSink_bsrc (p : SinkPort) : (s.releaseSink p).bsrc = s.bsrc := by cases p <;> rfl
@[simp] theorem State.releaseSink_ssrc (p : SinkPort) : (s.releaseSink p).ssrc = s.ssrc := by cases p <;> rfl
@[simp] theorem State.releaseSink_env (p : SinkPort) : (s.releaseSink p).env = s.env := by cases p <;> rfl
@[simp] theorem State.releaseSink_bsink_bsink : (s.releaseSink .bsink).bsink = { s.bsink with held := false } := rfl
@[simp] theorem State.releaseSink_bsink_ssink : (s.releaseSink .bsink).ssink = s.ssink := rfl
@[simp] theorem State.releaseSink_ssink_bsink : (s.releaseSink .ssink).bsink = s.bsink := rfl
@[simp] theorem State.releaseSink_ssink_ssink : (s.releaseSink .ssink).ssink = { s.ssink with held := false } := rfl

/-! ### `State.releaseSource` -/

@[simp] theorem State.releaseSource_bw (p : SourcePort) : (s.releaseSource p).bw = s.bw := by cases p <;> rfl
@[simp] theorem State.releaseSource_br (p : SourcePort) : (s.releaseSource p).br = s.br := by cases p <;> rfl
@[simp] theorem State.releaseSource_dec (p : SourcePort) : (s.releaseSource p).dec = s.dec := by cases p <;> rfl
@[simp] theorem State.releaseSource_cfg (p : SourcePort) : (s.releaseSource p).cfg = s.cfg := by cases p <;> rfl
@[simp] theorem State.releaseSource_res (p : SourcePort) : (s.releaseSource p).res = s.res := by cases p <;> rfl
@[simp] theorem State.releaseSource_tree (p : SourcePort) : (s.releaseSource p).tree = s.tree := by cases p <;> rfl
@[simp] theorem State.releaseSource_ctab (p : SourcePort) : (s.releaseSource p).ctab = s.ctab := by cases p <;> rfl
@[simp] theorem State.releaseSource_bsink (p : SourcePort) : (s.releaseSource p).bsink = s.bsink := by cases p <;> rfl
@[simp] theorem State.releaseSource_ssink (p : SourcePort) : (s.releaseSource p).ssink = s.ssink := by cases p <;> rfl
@[simp] theorem State.releaseSource_env (p : SourcePort) : (s.releaseSource p).env = s.env := by cases p <;> rfl
@[simp] theorem State.releaseSource_bsrc_bsrc : (s.releaseSource .bsrc).bsrc = { s.bsrc with held := false } := rfl
@[simp] theorem State.releaseSource_bsrc_ssrc : (s.releaseSource .bsrc).ssrc = s.ssrc := rfl
@[simp] theorem State.releaseSource_ssrc_bsrc : (s.releaseSource .ssrc).bsrc = s.bsrc := rfl
@[simp] theorem State.releaseSource_ssrc_ssrc : (s.releaseSource .ssrc).ssrc = { s.ssrc with held := false } := rfl

/-! ### Views that depend on few fields -/

theorem State.ext_fields {s t : State} (bw : s.bw = t.bw) (br : s.br = t.br) (dec : s.dec = t.dec)
    (cfg : s.cfg = t.cfg) (res : s.res = t.res) (tree : s.tree = t.tree) (ctab : s.ctab = t.ctab)
    (bsink : s.bsink = t.bsink) (bsrc : s.bsrc = t.bsrc) (ssink : s.ssink = t.ssink) (ssrc : s.ssrc = t.ssrc)
    (env : s.env = t.env) : s = t := by
  cases s; cases t; simp_all

end Sys2Proof.Machine
end

