-- ==== Sys2Proof/Laws/Ports.lean ====
section
/-! SUPPORT. What each port operation answers (R9), once for each answer, and the draws behind them. -/

namespace Sys2Proof.Machine

/-! ### Draws -/

@[simp] theorem State.drawFails_eq (s : State) : s.drawFails = s.env.fails := rfl

@[simp] theorem Environment.advance_script (e : Environment) : e.advance.script = e.script := rfl

@[simp] theorem Environment.advance_readData (e : Environment) : e.advance.readData = e.readData := rfl

@[simp] theorem Environment.advance_answered (e : Environment) : e.advance.answered = e.answered + 1 := rfl

@[simp] theorem Environment.advance_draws (e : Environment) : e.advance.draws = e.draws.tail := rfl

@[simp] theorem Environment.advance_freeIdx (e : Environment) : e.advance.freeIdx = e.freeIdx := rfl

@[simp] theorem Environment.advanceN_zero (e : Environment) : Environment.advanceN 0 e = e := rfl

theorem Environment.advanceN_succ (n : Nat) (e : Environment) :
    Environment.advanceN (n + 1) e = Environment.advanceN n e.advance := rfl

theorem Environment.advanceN_add (m n : Nat) (e : Environment) :
    Environment.advanceN (m + n) e = Environment.advanceN n (Environment.advanceN m e) := by
  induction m generalizing e with
  | zero => simp
  | succ m ih => rw [Nat.add_right_comm, advanceN_succ, ih, advanceN_succ]

theorem Environment.advanceN_advance (n : Nat) (e : Environment) :
    (Environment.advanceN n e).advance = Environment.advanceN (n + 1) e := by
  rw [Environment.advanceN_add n 1]; rfl

@[simp] theorem Environment.noFail_zero (e : Environment) : Environment.NoFail 0 e := trivial

theorem Environment.noFail_succ (n : Nat) (e : Environment) :
    Environment.NoFail (n + 1) e ↔ e.fails = false ∧ Environment.NoFail n e.advance := Iff.rfl

theorem Environment.noFail_add (m n : Nat) (e : Environment) :
    Environment.NoFail (m + n) e ↔
      Environment.NoFail m e ∧ Environment.NoFail n (Environment.advanceN m e) := by
  induction m generalizing e with
  | zero => simp
  | succ m ih => rw [Nat.add_right_comm, noFail_succ, noFail_succ, ih, advanceN_succ, and_assoc]

theorem Environment.NoFail.le {m n : Nat} {e : Environment} (h : Environment.NoFail n e) (hmn : m ≤ n) :
    Environment.NoFail m e := by
  obtain ⟨k, rfl⟩ := Nat.exists_eq_add_of_le hmn
  exact ((Environment.noFail_add m k e).1 h).1

/-- An environment whose first `n` fixed answers are all `ok`. -/
theorem Environment.noFail_of_draws (n : Nat) (e : Environment) (ds : List Bool)
    (h : e.draws = List.replicate n false ++ ds) : Environment.NoFail n e := by
  induction n generalizing e with
  | zero => trivial
  | succ n ih =>
    have hd : e.draws = false :: (List.replicate n false ++ ds) := by simpa [List.replicate_succ] using h
    refine ⟨by simp [Environment.fails, hd], ih _ ?_⟩
    simp [Environment.advance, hd]

@[simp] theorem Environment.afterFailedPut_script (e : Environment) : e.afterFailedPut.script = e.script := by
  simp [Environment.afterFailedPut]

@[simp] theorem Environment.afterFailedPut_readData (e : Environment) : e.afterFailedPut.readData = e.readData := by
  simp [Environment.afterFailedPut]

/-! ### Port operations -/

theorem State.acquireSink_ok {s : State} (p : SinkPort) (h : s.env.fails = false) :
    s.acquireSink p = (true, s.afterDraw.setSink p { held := true, data := [], bad := false }) := by
  simp [State.acquireSink, h]

theorem State.acquireSink_fail {s : State} (p : SinkPort) (h : s.env.fails = true) :
    s.acquireSink p = (false, s.afterDraw) := by
  simp [State.acquireSink, h]

theorem State.acquireSource_ok {s : State} (p : SourcePort) (h : s.env.fails = false) :
    s.acquireSource p = (true, s.afterDraw.setSource p { s.source p with held := true }) := by
  simp [State.acquireSource, h]

theorem State.acquireSource_fail {s : State} (p : SourcePort) (h : s.env.fails = true) :
    s.acquireSource p = (false, s.afterDraw) := by
  simp [State.acquireSource, h]

theorem State.put_ok {s : State} (p : SinkPort) (v : BitVec 8) (h : s.env.fails = false) :
    s.put p v = (true, s.afterDraw.setSink p { s.sink p with data := (s.sink p).data ++ [v] }) := by
  simp [State.put, h]

theorem State.put_fail {s : State} (p : SinkPort) (v : BitVec 8) (h : s.env.fails = true) :
    s.put p v = (false,
      { s.afterDraw.setSink p { s.afterDraw.sink p with
          data := Config.sinkAfterFailure s.env.advance.freeIdx, bad := true } with
        env := s.env.afterFailedPut }) := by
  simp only [State.put, State.drawFails_eq, h]
  rfl

theorem State.get_item {s : State} (p : SourcePort) {v : BitVec 8} {vs : List (BitVec 8)}
    (h : s.env.fails = false) (hd : (s.source p).data = v :: vs) :
    s.get p = (.item v, s.afterDraw.setSource p { s.source p with data := vs }) := by
  simp [State.get, h, hd]

theorem State.get_eof {s : State} (p : SourcePort) (h : s.env.fails = false) (hd : (s.source p).data = []) :
    s.get p = (.eof, s.afterDraw) := by
  simp [State.get, h, hd]

theorem State.get_fail {s : State} (p : SourcePort) (h : s.env.fails = true) :
    s.get p = (.fail, s.afterDraw) := by
  simp [State.get, h]

@[simp] theorem State.afterDraw_source (s : State) (p : SourcePort) : s.afterDraw.source p = s.source p := by
  cases p <;> rfl

@[simp] theorem State.afterDraw_sink (s : State) (p : SinkPort) : s.afterDraw.sink p = s.sink p := by
  cases p <;> rfl

/-! ### The end of a command -/

@[simp] theorem Res.andThen_ok {α β : Type} (a : α) (s : State) (f : α → State → Res β) :
    (Res.ok a s).andThen f = f a s := rfl

@[simp] theorem Res.andThen_raised {α β : Type} (e : Failure) (s : State) (f : α → State → Res β) :
    (Res.raised e s : Res α).andThen f = .raised e s := rfl

@[simp] theorem State.finish_ok (opc : BitVec 8) (r : Reply) (s : State) :
    State.finish opc (.ok r s) = s.done opc r := rfl

@[simp] theorem State.finish_raised (opc : BitVec 8) (e : Failure) (s : State) :
    State.finish opc (.raised e s) = s.raise opc e := rfl

@[simp] theorem finishRead_ok (opc : BitVec 8) (r : Res Reply) :
    finishRead opc (.ok r) = .next (State.finish opc r) := rfl

@[simp] theorem finishRead_error (opc : BitVec 8) (f : Fault) : finishRead opc (.error f) = .fault f := rfl

end Sys2Proof.Machine
end

