-- ==== Sys2Proof/Laws/Units.lean ====
section
/-! SUPPORT. What each procedure of the units does (R131 to R135, R151 to R156, R190 to R195), once for each way it
ends, as the state it leaves. Later proofs cite these and do not unfold the procedures. -/

namespace Sys2Proof.Machine

variable (s : State)

/-! ### The bit writer -/

theorem openWriter_ok (h : s.env.fails = false) :
    openWriter s = .ok () { s with
      bw := { isOpen := true, acc := 0, cnt := 0, total := 0 }
      bsink := { held := true, data := [], bad := false }
      env := s.env.advance } := by
  simp [openWriter, State.acquireSink_ok, h]; rfl

theorem openWriter_fail (h : s.env.fails = true) :
    openWriter s = .raised (.ioSink .bsink) { s with env := s.env.advance } := by
  simp [openWriter, State.acquireSink_fail, h]; rfl

theorem writeBit_within (b : Bool) (h : s.bw.cnt.toNat < 7) :
    writeBit b s = .ok () { s with bw := { s.bw with
      acc := setByteBit s.bw.acc (7 - s.bw.cnt.toNat) b
      cnt := s.bw.cnt + 1
      total := s.bw.total + 1 } } := by
  simp [writeBit, h, State.placeBit]

theorem writeBit_fills_ok (b : Bool) (h : ¬ s.bw.cnt.toNat < 7) (hf : s.env.fails = false) :
    writeBit b s = .ok () { s with
      bw := { s.bw with acc := 0, cnt := 0, total := s.bw.total + 1 }
      bsink := { s.bsink with data := s.bsink.data ++ [setByteBit s.bw.acc (7 - s.bw.cnt.toNat) b] }
      env := s.env.advance } := by
  simp [writeBit, h, State.put_ok, hf]; rfl

theorem writeBit_fills_fail (b : Bool) (h : ¬ s.bw.cnt.toNat < 7) (hf : s.env.fails = true) :
    writeBit b s = .raised (.ioSink .bsink) { s with
      bw := { isOpen := false, acc := 0, cnt := 0, total := s.bw.total + 1 }
      bsink := { held := false, data := Config.sinkAfterFailure s.env.advance.freeIdx, bad := true }
      env := s.env.afterFailedPut } := by
  simp [writeBit, h, State.put_fail, hf]; rfl

theorem closeWriter_empty (h : s.bw.cnt = 0) :
    closeWriter s = (true, { s with
      bw := { s.bw with isOpen := false, acc := 0, cnt := 0 }
      bsink := { s.bsink with held := false } }) := by
  simp [closeWriter, h]; rfl

theorem closeWriter_ok (h : s.bw.cnt ≠ 0) (hf : s.env.fails = false) :
    closeWriter s = (true, { s with
      bw := { s.bw with isOpen := false, acc := 0, cnt := 0 }
      bsink := { s.bsink with held := false, data := s.bsink.data ++ [s.bw.acc] }
      env := s.env.advance }) := by
  have : 0 < s.bw.cnt.toNat := Nat.pos_of_ne_zero fun h0 => h (BitVec.eq_of_toNat_eq h0)
  simp [closeWriter, this, State.put_ok, hf]; rfl

theorem closeWriter_fail (h : s.bw.cnt ≠ 0) (hf : s.env.fails = true) :
    closeWriter s = (false, { s with
      bw := { s.bw with isOpen := false, acc := 0, cnt := 0 }
      bsink := { held := false, data := Config.sinkAfterFailure s.env.advance.freeIdx, bad := true }
      env := s.env.afterFailedPut }) := by
  have : 0 < s.bw.cnt.toNat := Nat.pos_of_ne_zero fun h0 => h (BitVec.eq_of_toNat_eq h0)
  simp [closeWriter, this, State.put_fail, hf]; rfl

/-! ### The bit reader -/

theorem refill_item {v : Byte} {vs : List Byte} (hf : s.env.fails = false) (hd : s.bsrc.data = v :: vs) :
    refill s = (true, { s with
      br := { s.br with byte := v, cnt := 8 }
      bsrc := { s.bsrc with data := vs }
      env := s.env.advance }) := by
  simp [refill, State.get_item .bsrc hf hd]; rfl

theorem refill_eof (hf : s.env.fails = false) (hd : s.bsrc.data = []) :
    refill s = (true, { s with br := { s.br with byte := 0, cnt := 0 }, env := s.env.advance }) := by
  simp [refill, State.get_eof .bsrc hf hd]; rfl

theorem refill_fail (hf : s.env.fails = true) :
    refill s = (false, { s with br := { s.br with byte := 0, cnt := 0 }, env := s.env.advance }) := by
  simp [refill, State.get_fail .bsrc hf]; rfl

theorem openReader_fail (hf : s.env.fails = true) :
    openReader s = .raised (.ioSource .bsrc) { s with env := s.env.advance } := by
  simp [openReader, State.acquireSource_fail .bsrc hf]; rfl

theorem openReader_readAhead_fail (hf : s.env.fails = false) (hg : s.env.advance.fails = true) :
    openReader s = .raised (.ioSource .bsrc) { s with
      br := { s.br with byte := 0, cnt := 0, total := 0 }
      bsrc := { s.bsrc with held := false }
      env := s.env.advance.advance } := by
  rw [openReader, State.acquireSource_ok .bsrc hf]
  simp only
  rw [refill_fail]
  · rfl
  · simpa using hg

theorem openReader_item {v : Byte} {vs : List Byte} (hf : s.env.fails = false) (hg : s.env.advance.fails = false)
    (hd : s.bsrc.data = v :: vs) :
    openReader s = .ok () { s with
      br := { isOpen := true, byte := v, cnt := 8, total := 0 }
      bsrc := { held := true, data := vs }
      env := s.env.advance.advance } := by
  rw [openReader, State.acquireSource_ok .bsrc hf]
  simp only
  rw [refill_item]
  · rfl
  · simpa using hg
  · simpa using hd

theorem openReader_empty (hf : s.env.fails = false) (hg : s.env.advance.fails = false) (hd : s.bsrc.data = []) :
    openReader s = .ok () { s with
      br := { isOpen := true, byte := 0, cnt := 0, total := 0 }
      bsrc := { held := true, data := [] }
      env := s.env.advance.advance } := by
  rw [openReader, State.acquireSource_ok .bsrc hf]
  simp only
  rw [refill_eof]
  · simp [State.setSource, State.source, State.afterDraw, hd]
  · simpa using hg
  · simpa using hd

/-- The bit `ReadBit` hands out (R153). -/
def State.nextBit (s : State) : Bool := s.br.byte.getLsbD (s.br.cnt.toNat - 1)

theorem readBit_within (h : s.br.cnt ≠ 1) :
    readBit s = .ok s.nextBit { s with br := { s.br with cnt := s.br.cnt - 1, total := s.br.total + 1 } } := by
  have : s.br.cnt - 1 ≠ 0 := by intro h0; exact h (by bv_omega)
  simp only [readBit, this, if_false]
  rfl

theorem readBit_item {v : Byte} {vs : List Byte} (h : s.br.cnt = 1) (hf : s.env.fails = false)
    (hd : s.bsrc.data = v :: vs) :
    readBit s = .ok s.nextBit { s with
      br := { s.br with byte := v, cnt := 8, total := s.br.total + 1 }
      bsrc := { s.bsrc with data := vs }
      env := s.env.advance } := by
  have h0 : s.br.cnt - 1 = 0 := by rw [h]; rfl
  simp only [readBit, h0, if_true]
  rw [refill_item (v := v) (vs := vs)]
  · rfl
  · exact hf
  · exact hd

theorem readBit_last (h : s.br.cnt = 1) (hf : s.env.fails = false) (hd : s.bsrc.data = []) :
    readBit s = .ok s.nextBit { s with
      br := { s.br with byte := 0, cnt := 0, total := s.br.total + 1 }
      env := s.env.advance } := by
  have h0 : s.br.cnt - 1 = 0 := by rw [h]; rfl
  simp only [readBit, h0, if_true]
  rw [refill_eof]
  · rfl
  · exact hf
  · exact hd

theorem readBit_fail (h : s.br.cnt = 1) (hf : s.env.fails = true) :
    readBit s = .raised (.ioSource .bsrc) { s with
      br := { isOpen := false, byte := 0, cnt := 0, total := s.br.total + 1 }
      bsrc := { s.bsrc with held := false }
      env := s.env.advance } := by
  have h0 : s.br.cnt - 1 = 0 := by rw [h]; rfl
  simp only [readBit, h0, if_true]
  rw [refill_fail]
  · rfl
  · exact hf

theorem closeReader_eq :
    closeReader s = { s with
      br := { s.br with isOpen := false, byte := 0, cnt := 0 }
      bsrc := { s.bsrc with held := false } } := rfl

/-- `ReadBit` when it makes no draw, or its read-ahead does not fail: it hands out the bit, and at most the reader, `BSRC`
and the draws differ. -/
theorem readBit_ok (hf : s.br.cnt = 1 → s.env.fails = false) : ∃ u, readBit s = .ok s.nextBit u ∧
    u = { s with br := u.br, bsrc := u.bsrc, env := u.env } ∧
    u.env = (if s.br.cnt = 1 then s.env.advance else s.env) ∧ u.br.isOpen = s.br.isOpen ∧
    u.br.total = s.br.total + 1 ∧ u.bsrc.held = s.bsrc.held ∧
    u.bsrc.data = if s.br.cnt = 1 then s.bsrc.data.drop 1 else s.bsrc.data := by
  by_cases h : s.br.cnt = 1
  · cases hd : s.bsrc.data with
    | nil => exact ⟨_, readBit_last s h (hf h) hd, rfl, by rw [if_pos h], rfl, rfl, rfl, by rw [if_pos h]; exact hd⟩
    | cons v vs => exact ⟨_, readBit_item s h (hf h) hd, rfl, by rw [if_pos h], rfl, rfl, rfl, by rw [if_pos h]; rfl⟩
  · exact ⟨_, readBit_within s h, rfl, by rw [if_neg h], rfl, rfl, rfl, by rw [if_neg h]⟩

/-! ### The decoder -/

theorem startDecode_ok (h : s.env.fails = false) :
    startDecode s = .ok () { s with
      dec := { active := true, node := s.treeRoot }
      ssink := { held := true, data := [], bad := false }
      env := s.env.advance } := by
  simp [startDecode, State.acquireSink_ok, h]; rfl

theorem startDecode_fail (h : s.env.fails = true) :
    startDecode s = .raised (.ioSink .ssink) { s with env := s.env.advance } := by
  simp [startDecode, State.acquireSink_fail, h]; rfl

theorem dropDecode_eq :
    s.dropDecode = { s with
      dec := { s.dec with active := false }
      ssink := { s.ssink with held := false } } := rfl

theorem abortDecode_open (h : s.br.isOpen = true) :
    abortDecode s = { s with
      br := { s.br with isOpen := false, byte := 0, cnt := 0 }
      bsrc := { s.bsrc with held := false }
      dec := { s.dec with active := false }
      ssink := { s.ssink with held := false } } := by
  simp [abortDecode, h]; rfl

theorem abortDecode_closed (h : s.br.isOpen = false) : abortDecode s = s.dropDecode := by
  simp [abortDecode, h]

theorem emitLeaf_ok (b : Bool) (w : Word) (h : s.env.fails = false) :
    emitLeaf b w s = .ok { val := b, emit := true, sym := nodeSym w } { s with
      dec := { s.dec with node := s.treeRoot }
      ssink := { s.ssink with data := s.ssink.data ++ [nodeSym w] }
      env := s.env.advance } := by
  simp [emitLeaf, State.put_ok, h]; rfl

theorem emitLeaf_fail (b : Bool) (w : Word) (h : s.env.fails = true) :
    emitLeaf b w s = .raised (.ioSink .ssink) (abortDecode { s with
      ssink := { s.ssink with data := Config.sinkAfterFailure s.env.advance.freeIdx, bad := true }
      env := s.env.afterFailedPut }) := by
  simp [emitLeaf, State.put_fail, h]

/-- `HasChild` by the bits of the node word (R67, R68). -/
theorem nodeHasChild_iff (w : Word) (b : Bool) :
    nodeHasChild w b = true ↔ w.getLsbD 31 = false ∧ (if b then w.getLsbD 29 else w.getLsbD 30) = true := by
  simp [nodeHasChild, nodeIsLeaf]

theorem readNode_eq {w : Word} {n : NodeIdx} (h : s.treeAt n = some w) : s.readNode n = .ok w := by
  simp [State.readNode, h]

theorem readNode_unwritten {n : NodeIdx} (h : s.treeAt n = none) :
    s.readNode n = .error (.unwrittenTree n.toNat) := by
  simp [State.readNode, h]

theorem readEntry_eq {w : Word} {x : Symbol} {k : Nat} (h : s.ctabAt x k = some w) : s.readEntry x k = .ok w := by
  simp [State.readEntry, h]

theorem readEntry_unwritten {x : Symbol} {k : Nat} (h : s.ctabAt x k = none) :
    s.readEntry x k = .error (.unwrittenCtab x.toNat k) := by
  simp [State.readEntry, h]

theorem followEdge_leaf {b : Bool} {w w2 : Word} (h : s.treeAt s.dec.node = some w) (hc : nodeHasChild w b = true)
    (h2 : s.treeAt (nodeChild w b) = some w2) (hl : nodeIsLeaf w2 = true) :
    followEdge b s = .ok (emitLeaf b w2 s) := by
  simp [followEdge, readNode_eq _ h, readNode_eq _ h2, hc, hl]

theorem followEdge_internal {b : Bool} {w w2 : Word} (h : s.treeAt s.dec.node = some w)
    (hc : nodeHasChild w b = true) (h2 : s.treeAt (nodeChild w b) = some w2) (hl : nodeIsLeaf w2 = false) :
    followEdge b s = .ok (.ok { val := b } { s with dec := { s.dec with node := nodeChild w b } }) := by
  simp [followEdge, readNode_eq _ h, readNode_eq _ h2, hc, hl, State.setNode]

theorem followEdge_absent {b : Bool} {w : Word} (h : s.treeAt s.dec.node = some w) (hc : nodeHasChild w b = false) :
    followEdge b s = .ok (.raised (.absentChild s.dec.node b) (abortDecode s)) := by
  simp [followEdge, readNode_eq _ h, hc]

theorem endDecode_root (h : s.dec.node = s.treeRoot) : endDecode s = .ok () s.dropDecode := by
  simp [endDecode, h]

theorem endDecode_midCode (h : s.dec.node ≠ s.treeRoot) :
    endDecode s = .raised (.midCode s.dec.node) (abortDecode s) := by
  simp [endDecode, h]

theorem hasNext_iff :
    s.hasNext = true ↔ s.br.isOpen = true ∧ 0 < s.br.cnt.toNat ∧
      (s.limited = false ∨ s.br.total.toNat < s.cfg.rdlimit.toNat) := by
  unfold State.hasNext
  cases s.br.isOpen <;> cases s.limited <;> simp

end Sys2Proof.Machine
end

