-- ==== Sys2Proof/Laws/Frames.lean ====
section
/-! SUPPORT. What each procedure may change, and that it keeps the invariants of its unit (R30). Every lemma is about
both ways a procedure ends: the state of its answer, returned or raised. -/

namespace Sys2Proof.Machine

/-- The state a procedure ends in. -/
def Res.state {α : Type} : Res α → State
  | .ok _ s => s
  | .raised _ s => s

@[simp] theorem Res.state_ok {α : Type} (a : α) (s : State) : (Res.ok a s).state = s := rfl
@[simp] theorem Res.state_raised {α : Type} (e : Failure) (s : State) : (Res.raised e s : Res α).state = s := rfl

/-- Only the draws and the counter of the free values differ: what the host is about to do, and what it has read, do
not. -/
def Environment.SameHost (e f : Environment) : Prop := f.script = e.script ∧ f.readData = e.readData

theorem Environment.SameHost.refl (e : Environment) : e.SameHost e := ⟨rfl, rfl⟩

theorem Environment.SameHost.trans {e f g : Environment} (h : e.SameHost f) (k : f.SameHost g) : e.SameHost g :=
  ⟨k.1.trans h.1, k.2.trans h.2⟩

theorem Environment.sameHost_advance (e : Environment) : e.SameHost e.advance := by simp [SameHost]

theorem Environment.sameHost_afterFailedPut (e : Environment) : e.SameHost e.afterFailedPut := by simp [SameHost]

theorem Environment.sameHost_advanceN (n : Nat) (e : Environment) : e.SameHost (Environment.advanceN n e) := by
  induction n generalizing e with
  | zero => exact .refl e
  | succ n ih => exact e.sameHost_advance.trans (ih e.advance)

/-! ### The frames -/

/-- What a procedure may do to the result registers: nothing, or note `IoFailure` (R262). The record of the command's end
is made after it, by `State.finish`. -/
def ResultRegs.NotedIo (a b : ResultRegs) : Prop := b = a ∨ b = { a with errlog := a.errlog ||| 0x2 }

theorem ResultRegs.NotedIo.refl (a : ResultRegs) : a.NotedIo a := .inl rfl

theorem ResultRegs.NotedIo.trans {a b c : ResultRegs} (h : a.NotedIo b) (k : b.NotedIo c) : a.NotedIo c := by
  rcases h with rfl | rfl
  · exact k
  · rcases k with rfl | rfl
    · exact .inr rfl
    · exact .inr (by simp [BitVec.or_assoc])

/-- At most the writer, `BSINK`, `SSRC`, the draws and the `IoFailure` bit of `ERRLOG` differ. -/
structure State.EncoderOnly (s t : State) : Prop where
  br : t.br = s.br
  dec : t.dec = s.dec
  cfg : t.cfg = s.cfg
  tree : t.tree = s.tree
  ctab : t.ctab = s.ctab
  bsrc : t.bsrc = s.bsrc
  ssink : t.ssink = s.ssink
  res : s.res.NotedIo t.res
  env : s.env.SameHost t.env

/-- At most the reader, the decoder, `BSRC`, `SSINK` and the draws differ. -/
structure State.DecoderOnly (s t : State) : Prop where
  bw : t.bw = s.bw
  cfg : t.cfg = s.cfg
  tree : t.tree = s.tree
  ctab : t.ctab = s.ctab
  bsink : t.bsink = s.bsink
  ssrc : t.ssrc = s.ssrc
  res : t.res = s.res
  env : s.env.SameHost t.env

/-- Neither the decoder nor `SSINK` differs. -/
def State.SameDecoder (s t : State) : Prop := t.dec = s.dec ∧ t.ssink = s.ssink

theorem State.SameDecoder.held {s t : State} (h : s.SameDecoder t) (k : s.ssink.held = s.dec.active) :
    t.ssink.held = t.dec.active := by
  rw [h.2, h.1]; exact k

theorem State.SameDecoder.inactive {s t : State} (h : s.SameDecoder t) (k : s.dec.active = false) :
    t.dec.active = false := by
  rw [h.1]; exact k

theorem State.EncoderOnly.refl (s : State) : s.EncoderOnly s := ⟨rfl, rfl, rfl, rfl, rfl, rfl, rfl, .refl _, .refl _⟩

theorem State.EncoderOnly.trans {s t u : State} (h : s.EncoderOnly t) (k : t.EncoderOnly u) : s.EncoderOnly u :=
  ⟨k.br.trans h.br, k.dec.trans h.dec, k.cfg.trans h.cfg, k.tree.trans h.tree, k.ctab.trans h.ctab,
    k.bsrc.trans h.bsrc, k.ssink.trans h.ssink, h.res.trans k.res, h.env.trans k.env⟩

theorem State.DecoderOnly.refl (s : State) : s.DecoderOnly s := ⟨rfl, rfl, rfl, rfl, rfl, rfl, rfl, .refl _⟩

theorem State.DecoderOnly.trans {s t u : State} (h : s.DecoderOnly t) (k : t.DecoderOnly u) : s.DecoderOnly u :=
  ⟨k.bw.trans h.bw, k.cfg.trans h.cfg, k.tree.trans h.tree, k.ctab.trans h.ctab, k.bsink.trans h.bsink,
    k.ssrc.trans h.ssrc, k.res.trans h.res, h.env.trans k.env⟩

/-! ### The invariants of the units (R30) -/

/-- R30 (a), (b), (d), (e): what holds of the writer and `BSINK`. -/
structure State.WriterInv (s : State) : Prop where
  accLow : ∀ i, i < 8 - s.bw.cnt.toNat → s.bw.acc.getLsbD i = false
  closed : s.bw.isOpen = false → s.bw.acc = 0 ∧ s.bw.cnt = 0
  held : s.bsink.held = s.bw.isOpen
  count : s.bw.isOpen = true → s.bw.total.toNat % 8 = s.bw.cnt.toNat

/-- R30 (c), (d), (f), R26: what holds of the reader and `BSRC`. -/
structure State.ReaderInv (s : State) : Prop where
  closed : s.br.isOpen = false → s.br.byte = 0 ∧ s.br.cnt = 0
  held : s.bsrc.held = s.br.isOpen
  count : s.br.isOpen = true → 0 < s.br.cnt.toNat → s.br.total.toNat % 8 = (8 - s.br.cnt.toNat) % 8
  cntLe : s.br.cnt.toNat ≤ 8

theorem State.unitInv_iff (s : State) :
    s.UnitInv ↔ s.WriterInv ∧ s.ReaderInv ∧ s.ssink.held = s.dec.active ∧ s.ssrc.held = false :=
  ⟨fun h => ⟨⟨h.accLow, h.writerClosed, h.bsinkHeld, h.writerCount⟩,
      ⟨h.readerClosed, h.bsrcHeld, h.readerCount, h.readCntLe⟩, h.ssinkHeld, h.ssrcHeld⟩,
    fun h => ⟨h.1.accLow, h.1.closed, h.2.1.closed, h.1.held, h.2.1.held, h.2.2.1, h.2.2.2, h.1.count, h.2.1.count,
      h.2.1.cntLe⟩⟩

theorem State.WriterInv.congr {s t : State} (h : s.WriterInv) (bw : t.bw = s.bw) (bsink : t.bsink.held = s.bsink.held) :
    t.WriterInv :=
  ⟨by rw [bw]; exact h.accLow, by rw [bw]; exact h.closed, by rw [bw, bsink]; exact h.held, by rw [bw]; exact h.count⟩

theorem State.ReaderInv.congr {s t : State} (h : s.ReaderInv) (br : t.br = s.br) (bsrc : t.bsrc.held = s.bsrc.held) :
    t.ReaderInv :=
  ⟨by rw [br]; exact h.closed, by rw [br, bsrc]; exact h.held, by rw [br]; exact h.count, by rw [br]; exact h.cntLe⟩

/-! ### The bit writer -/

theorem setByteBit_getLsbD (v : Byte) {i k : Nat} (b : Bool) (hi : i < 8) (hk : k < 8) :
    (setByteBit v i b).getLsbD k = if k = i then b else v.getLsbD k := by
  revert hi hk
  cases b <;>
  · intro hi hk
    interval_cases i <;> interval_cases k <;> simp [setByteBit]

theorem openWriter_frame (s : State) : s.EncoderOnly (openWriter s).state := by
  cases h : s.env.fails
  · rw [openWriter_ok s h]
    exact ⟨rfl, rfl, rfl, rfl, rfl, rfl, rfl, .refl _, s.env.sameHost_advance⟩
  · rw [openWriter_fail s h]
    exact ⟨rfl, rfl, rfl, rfl, rfl, rfl, rfl, .refl _, s.env.sameHost_advance⟩

theorem openWriter_ssrc (s : State) : (openWriter s).state.ssrc = s.ssrc := by
  cases h : s.env.fails
  · rw [openWriter_ok s h]; rfl
  · rw [openWriter_fail s h]; rfl

theorem openWriter_inv {s : State} (h : s.WriterInv) : (openWriter s).state.WriterInv := by
  cases hf : s.env.fails
  · rw [openWriter_ok s hf]
    exact ⟨fun i _ => BitVec.getLsbD_zero, fun _ => ⟨rfl, rfl⟩, rfl, fun _ => rfl⟩
  · rw [openWriter_fail s hf]
    exact h.congr rfl rfl

theorem openWriter_isOpen {s t : State} (h : openWriter s = .ok () t) : t.bw.isOpen = true := by
  cases hf : s.env.fails
  · rw [openWriter_ok s hf] at h
    injection h with _ h; rw [← h]
  · rw [openWriter_fail s hf] at h
    cases h

theorem openWriter_raised {s t : State} {e : Failure} (h : openWriter s = .raised e t) :
    t.bw = s.bw ∧ t.bsink = s.bsink := by
  cases hf : s.env.fails
  · rw [openWriter_ok s hf] at h
    cases h
  · rw [openWriter_fail s hf] at h
    injection h with _ h; rw [← h]; exact ⟨rfl, rfl⟩

theorem writeBit_frame (b : Bool) (s : State) : s.EncoderOnly (writeBit b s).state := by
  by_cases h : s.bw.cnt.toNat < 7
  · rw [writeBit_within s b h]
    exact ⟨rfl, rfl, rfl, rfl, rfl, rfl, rfl, .refl _, .refl _⟩
  · cases hf : s.env.fails
    · rw [writeBit_fills_ok s b h hf]
      exact ⟨rfl, rfl, rfl, rfl, rfl, rfl, rfl, .refl _, s.env.sameHost_advance⟩
    · rw [writeBit_fills_fail s b h hf]
      exact ⟨rfl, rfl, rfl, rfl, rfl, rfl, rfl, .refl _, s.env.sameHost_afterFailedPut⟩

theorem writeBit_ssrc (b : Bool) (s : State) : (writeBit b s).state.ssrc = s.ssrc := by
  by_cases h : s.bw.cnt.toNat < 7
  · rw [writeBit_within s b h]; rfl
  · cases hf : s.env.fails
    · rw [writeBit_fills_ok s b h hf]; rfl
    · rw [writeBit_fills_fail s b h hf]; rfl

/-- A bit written keeps the invariants; the session goes on exactly when `WriteBit` returns. -/
theorem writeBit_inv {s : State} (b : Bool) (h : s.WriterInv) (ho : s.bw.isOpen = true) :
    (writeBit b s).state.WriterInv ∧ (∀ t, writeBit b s = .ok () t → t.bw.isOpen = true) ∧
      ∀ e t, writeBit b s = .raised e t → t.bw.isOpen = false := by
  have hc := h.count ho
  have hlt : s.bw.cnt.toNat < 8 := s.bw.cnt.isLt
  by_cases h7 : s.bw.cnt.toNat < 7
  · rw [writeBit_within s b h7]
    have hcnt : (s.bw.cnt + 1).toNat = s.bw.cnt.toNat + 1 := by
      rw [BitVec.toNat_add]; simp; omega
    refine ⟨⟨fun i hi => ?_, fun hk => ?_, h.held, fun _ => ?_⟩, fun t ht => ?_, fun e t ht => (by cases ht)⟩
    · simp only [Res.state_ok, hcnt] at hi ⊢
      rw [setByteBit_getLsbD _ _ (by omega) (by omega), if_neg (by omega)]
      exact h.accLow i (by omega)
    · simp only [Res.state_ok] at hk
      rw [ho] at hk; cases hk
    · simp only [Res.state_ok, hcnt, BitVec.toNat_add]
      simp; omega
    · injection ht with _ ht; rw [← ht]; exact ho
  · have e7 : s.bw.cnt.toNat = 7 := by omega
    cases hf : s.env.fails
    · rw [writeBit_fills_ok s b h7 hf]
      refine ⟨⟨fun i _ => BitVec.getLsbD_zero, fun _ => ⟨rfl, rfl⟩, h.held, fun _ => ?_⟩, fun t ht => ?_,
        fun e t ht => (by cases ht)⟩
      · simp only [Res.state_ok, BitVec.toNat_add]
        simp; omega
      · injection ht with _ ht; rw [← ht]; exact ho
    · rw [writeBit_fills_fail s b h7 hf]
      refine ⟨⟨fun i _ => BitVec.getLsbD_zero, fun _ => ⟨rfl, rfl⟩, rfl, fun hk => (by cases hk)⟩,
        fun t ht => (by cases ht), fun e t ht => ?_⟩
      injection ht with _ ht; rw [← ht]

theorem closeWriter_frame (s : State) : s.EncoderOnly (closeWriter s).2 := by
  by_cases h : s.bw.cnt = 0
  · rw [closeWriter_empty s h]
    exact ⟨rfl, rfl, rfl, rfl, rfl, rfl, rfl, .refl _, .refl _⟩
  · cases hf : s.env.fails
    · rw [closeWriter_ok s h hf]
      exact ⟨rfl, rfl, rfl, rfl, rfl, rfl, rfl, .refl _, s.env.sameHost_advance⟩
    · rw [closeWriter_fail s h hf]
      exact ⟨rfl, rfl, rfl, rfl, rfl, rfl, rfl, .refl _, s.env.sameHost_afterFailedPut⟩

theorem closeWriter_ssrc (s : State) : (closeWriter s).2.ssrc = s.ssrc := by
  by_cases h : s.bw.cnt = 0
  · rw [closeWriter_empty s h]
  · cases hf : s.env.fails
    · rw [closeWriter_ok s h hf]
    · rw [closeWriter_fail s h hf]

/-- R135: whatever happens, the writer is closed and `BSINK` released. -/
theorem closeWriter_closed (s : State) :
    (closeWriter s).2.bw = { s.bw with isOpen := false, acc := 0, cnt := 0 } ∧ (closeWriter s).2.bsink.held = false := by
  by_cases h : s.bw.cnt = 0
  · rw [closeWriter_empty s h]; exact ⟨rfl, rfl⟩
  · cases hf : s.env.fails
    · rw [closeWriter_ok s h hf]; exact ⟨rfl, rfl⟩
    · rw [closeWriter_fail s h hf]; exact ⟨rfl, rfl⟩

theorem State.writerInv_of_closed {s : State} (hb : s.bw.isOpen = false) (ha : s.bw.acc = 0) (hc : s.bw.cnt = 0)
    (hh : s.bsink.held = false) : s.WriterInv :=
  ⟨fun i _ => by rw [ha]; exact BitVec.getLsbD_zero, fun _ => ⟨ha, hc⟩, by rw [hh, hb], fun h => by rw [hb] at h; cases h⟩

theorem closeWriter_inv (s : State) : (closeWriter s).2.WriterInv := by
  obtain ⟨h1, h2⟩ := closeWriter_closed s
  exact State.writerInv_of_closed (by rw [h1]) (by rw [h1]) (by rw [h1]) h2

theorem closeNoting_frame (s : State) : s.EncoderOnly (closeNoting s) := by
  have h := closeWriter_frame s
  unfold closeNoting
  split <;> rename_i t ht <;> rw [ht] at h
  · exact h
  · exact ⟨h.br, h.dec, h.cfg, h.tree, h.ctab, h.bsrc, h.ssink, h.res.trans (.inr rfl), h.env⟩

theorem closeNoting_ssrc (s : State) : (closeNoting s).ssrc = s.ssrc := by
  have h := closeWriter_ssrc s
  unfold closeNoting
  split <;> rename_i t ht <;> rw [ht] at h <;> exact h

theorem closeNoting_closed (s : State) :
    (closeNoting s).bw = { s.bw with isOpen := false, acc := 0, cnt := 0 } ∧ (closeNoting s).bsink.held = false := by
  have h := closeWriter_closed s
  unfold closeNoting
  split <;> rename_i t ht <;> rw [ht] at h <;> exact h

theorem closeNoting_inv (s : State) : (closeNoting s).WriterInv := by
  obtain ⟨h1, h2⟩ := closeNoting_closed s
  exact State.writerInv_of_closed (by rw [h1]) (by rw [h1]) (by rw [h1]) h2

/-! ### The encoder -/

theorem encBits_frame {x : Symbol} {i n : Nat} {s : State} {r : Res Unit} (h : encBits x i n s = .ok r) :
    s.EncoderOnly r.state ∧ r.state.ssrc = s.ssrc := by
  induction n generalizing i s with
  | zero => cases h; exact ⟨.refl s, rfl⟩
  | succ n ih =>
    simp only [encBits] at h
    split at h
    · cases h
    · rename_i b _
      have hw := writeBit_frame b s
      have hs := writeBit_ssrc b s
      split at h <;> rename_i hb <;> rw [hb] at hw hs
      · cases h; exact ⟨hw, hs⟩
      · obtain ⟨h1, h2⟩ := ih h
        exact ⟨hw.trans h1, h2.trans hs⟩

theorem encBits_inv {x : Symbol} {i n : Nat} {s : State} {r : Res Unit} (h : encBits x i n s = .ok r)
    (hi : s.WriterInv) (ho : s.bw.isOpen = true) :
    r.state.WriterInv ∧ (∀ t, r = .ok () t → t.bw.isOpen = true) ∧ ∀ e t, r = .raised e t → t.bw.isOpen = false := by
  induction n generalizing i s with
  | zero => cases h; exact ⟨hi, fun t ht => by injection ht with _ ht; rw [← ht]; exact ho, fun e t ht => (by cases ht)⟩
  | succ n ih =>
    simp only [encBits] at h
    split at h
    · cases h
    · rename_i b _
      obtain ⟨h1, h2, h3⟩ := writeBit_inv b hi ho
      split at h
      · rename_i e t hb
        cases h
        rw [hb] at h1
        refine ⟨h1, fun t ht => (by cases ht), fun e' t' ht => ?_⟩
        injection ht with he ht; rw [← ht]; exact h3 e t hb
      · rename_i t hb
        rw [hb] at h1
        exact ih h h1 (h2 t hb)

theorem encSym_frame {x : Symbol} {s : State} {r : Res Unit} (h : encSym x s = .ok r) :
    s.EncoderOnly r.state ∧ r.state.ssrc = s.ssrc := by
  unfold encSym at h
  split at h
  · cases h
  · split at h
    · exact encBits_frame h
    · cases h; exact ⟨closeNoting_frame s, closeNoting_ssrc s⟩

/-- R172: after `EncSym` the writer is open if it returned, closed if it raised. -/
theorem encSym_inv {x : Symbol} {s : State} {r : Res Unit} (h : encSym x s = .ok r) (hi : s.WriterInv)
    (ho : s.bw.isOpen = true) :
    r.state.WriterInv ∧ (∀ t, r = .ok () t → t.bw.isOpen = true) ∧ ∀ e t, r = .raised e t → t.bw.isOpen = false := by
  unfold encSym at h
  split at h
  · cases h
  · split at h
    · exact encBits_inv h hi ho
    · cases h
      refine ⟨closeNoting_inv s, fun t ht => (by cases ht), fun e t ht => ?_⟩
      injection ht with _ ht; rw [← ht, (closeNoting_closed s).1]

/-- What `Get` may do to a source: its data only. -/
theorem State.get_frame (s : State) (p : SourcePort) :
    ∃ d, (s.get p).2 = { s.setSource p { s.source p with data := d } with env := s.env.advance } := by
  cases hf : s.env.fails
  · cases hd : (s.source p).data with
    | nil =>
      rw [State.get_eof p hf hd]
      refine ⟨(s.source p).data, ?_⟩
      cases p <;> rfl
    | cons v vs =>
      rw [State.get_item p hf hd]
      refine ⟨vs, ?_⟩
      cases p <;> rfl
  · rw [State.get_fail p hf]
    refine ⟨(s.source p).data, ?_⟩
    cases p <;> rfl

theorem State.getSymbol_frame (s : State) :
    s.EncoderOnly (s.get .ssrc).2 ∧ (s.get .ssrc).2.bw = s.bw ∧ (s.get .ssrc).2.bsink = s.bsink ∧
      (s.get .ssrc).2.ssrc.held = s.ssrc.held ∧ (s.get .ssrc).2.res = s.res := by
  obtain ⟨d, h⟩ := s.get_frame .ssrc
  rw [h]
  exact ⟨⟨rfl, rfl, rfl, rfl, rfl, rfl, rfl, .refl _, s.env.sameHost_advance⟩, rfl, rfl, rfl, rfl⟩

theorem releaseSsrc_frame (s : State) : s.EncoderOnly (s.releaseSource .ssrc) :=
  ⟨rfl, rfl, rfl, rfl, rfl, rfl, rfl, .refl _, .refl _⟩

theorem encLoop_frame {n : Nat} {s : State} {r : Res Unit} (h : encLoop n s = .ok r) : s.EncoderOnly r.state := by
  induction n generalizing s with
  | zero =>
    have hg := s.getSymbol_frame
    rw [encLoop] at h
    split at h <;> rename_i t ht <;> rw [ht] at hg
    · cases h; exact hg.1
    · cases h; exact hg.1.trans ((closeNoting_frame t).trans (releaseSsrc_frame _))
    · split at h
      · cases h
      · rename_i he; cases h
        exact hg.1.trans ((encSym_frame he).1.trans (releaseSsrc_frame _))
      · rename_i he; cases h
        exact hg.1.trans (encSym_frame he).1
  | succ n ih =>
    have hg := s.getSymbol_frame
    rw [encLoop] at h
    split at h <;> rename_i t ht <;> rw [ht] at hg
    · cases h; exact hg.1
    · cases h; exact hg.1.trans ((closeNoting_frame t).trans (releaseSsrc_frame _))
    · split at h
      · cases h
      · rename_i he; cases h
        exact hg.1.trans ((encSym_frame he).1.trans (releaseSsrc_frame _))
      · rename_i he
        exact hg.1.trans ((encSym_frame he).1.trans (ih h))

/-- The loop of `ENC.RUN` keeps the writer's invariants and leaves it open with `SSRC` held if it returned, closed with
`SSRC` released if it raised. -/
theorem encLoop_inv {n : Nat} {s : State} {r : Res Unit} (h : encLoop n s = .ok r) (hi : s.WriterInv)
    (ho : s.bw.isOpen = true) :
    r.state.WriterInv ∧ (∀ t, r = .ok () t → t.bw.isOpen = true) ∧
      ∀ e t, r = .raised e t → t.bw.isOpen = false ∧ t.ssrc.held = false := by
  induction n generalizing s with
  | zero =>
    have hg := s.getSymbol_frame
    rw [encLoop] at h
    split at h <;> rename_i t ht <;> rw [ht] at hg
    · cases h
      exact ⟨hi.congr hg.2.1 (congrArg Sink.held hg.2.2.1), fun u hu => by injection hu with _ hu; rw [← hu]; exact (congrArg Writer.isOpen hg.2.1).trans ho,
        fun e u hu => by cases hu⟩
    · cases h
      refine ⟨(closeNoting_inv t).congr rfl rfl, fun u hu => (by cases hu), fun e u hu => ?_⟩
      injection hu with _ hu
      rw [← hu]
      exact ⟨by simp [(closeNoting_closed t).1], rfl⟩
    · have hi' : t.WriterInv := hi.congr hg.2.1 (congrArg Sink.held hg.2.2.1)
      have ho' : t.bw.isOpen = true := (congrArg Writer.isOpen hg.2.1).trans ho
      split at h
      · cases h
      · rename_i e u he; cases h
        obtain ⟨h1, h2, h3⟩ := encSym_inv he hi' ho'
        refine ⟨h1.congr rfl rfl, fun u hu => (by cases hu), fun e' u' hu => ?_⟩
        injection hu with _ hu
        rw [← hu]
        exact ⟨(h3 e u rfl : u.bw.isOpen = false), rfl⟩
      · rename_i u he; cases h
        obtain ⟨h1, h2, h3⟩ := encSym_inv he hi' ho'
        exact ⟨h1, fun v hv => h2 v hv, fun e v hv => by cases hv⟩
  | succ n ih =>
    have hg := s.getSymbol_frame
    rw [encLoop] at h
    split at h <;> rename_i t ht <;> rw [ht] at hg
    · cases h
      exact ⟨hi.congr hg.2.1 (congrArg Sink.held hg.2.2.1), fun u hu => by injection hu with _ hu; rw [← hu]; exact (congrArg Writer.isOpen hg.2.1).trans ho,
        fun e u hu => by cases hu⟩
    · cases h
      refine ⟨(closeNoting_inv t).congr rfl rfl, fun u hu => (by cases hu), fun e u hu => ?_⟩
      injection hu with _ hu
      rw [← hu]
      exact ⟨by simp [(closeNoting_closed t).1], rfl⟩
    · have hi' : t.WriterInv := hi.congr hg.2.1 (congrArg Sink.held hg.2.2.1)
      have ho' : t.bw.isOpen = true := (congrArg Writer.isOpen hg.2.1).trans ho
      split at h
      · cases h
      · rename_i e u he; cases h
        obtain ⟨h1, h2, h3⟩ := encSym_inv he hi' ho'
        refine ⟨h1.congr rfl rfl, fun u hu => (by cases hu), fun e' u' hu => ?_⟩
        injection hu with _ hu
        rw [← hu]
        exact ⟨(h3 e u rfl : u.bw.isOpen = false), rfl⟩
      · rename_i u he
        obtain ⟨h1, h2, h3⟩ := encSym_inv he hi' ho'
        exact ih h h1 (h2 u rfl)

/-! A procedure that returns has noted nothing. -/

theorem writeBit_res (b : Bool) (s : State) : (writeBit b s).state.res = s.res := by
  by_cases h : s.bw.cnt.toNat < 7
  · rw [writeBit_within s b h]; rfl
  · cases hf : s.env.fails
    · rw [writeBit_fills_ok s b h hf]; rfl
    · rw [writeBit_fills_fail s b h hf]; rfl

theorem openWriter_res (s : State) : (openWriter s).state.res = s.res := by
  cases h : s.env.fails
  · rw [openWriter_ok s h]; rfl
  · rw [openWriter_fail s h]; rfl

theorem closeWriter_res (s : State) : (closeWriter s).2.res = s.res := by
  by_cases h : s.bw.cnt = 0
  · rw [closeWriter_empty s h]
  · cases hf : s.env.fails
    · rw [closeWriter_ok s h hf]
    · rw [closeWriter_fail s h hf]

theorem encBits_res {x : Symbol} {i n : Nat} {s : State} {r : Res Unit} (h : encBits x i n s = .ok r) :
    r.state.res = s.res := by
  induction n generalizing i s with
  | zero => cases h; rfl
  | succ n ih =>
    simp only [encBits] at h
    split at h
    · cases h
    · rename_i b _
      have hw := writeBit_res b s
      split at h <;> rename_i hb <;> rw [hb] at hw
      · cases h; exact hw
      · exact (ih h).trans hw

theorem encSym_res {x : Symbol} {s t : State} (h : encSym x s = .ok (.ok () t)) : t.res = s.res := by
  unfold encSym at h
  split at h
  · cases h
  · split at h
    · exact encBits_res h
    · cases h

theorem encLoop_res {n : Nat} {s t : State} (h : encLoop n s = .ok (.ok () t)) : t.res = s.res := by
  induction n generalizing s with
  | zero =>
    have hg := s.getSymbol_frame.2.2.2.2
    rw [encLoop] at h
    split at h <;> rename_i u hu <;> rw [hu] at hg
    · cases h; exact hg
    · cases h
    · split at h
      · cases h
      · cases h
      · rename_i he; cases h; exact (encSym_res he).trans hg
  | succ n ih =>
    have hg := s.getSymbol_frame.2.2.2.2
    rw [encLoop] at h
    split at h <;> rename_i u hu <;> rw [hu] at hg
    · cases h; exact hg
    · cases h
    · split at h
      · cases h
      · cases h
      · rename_i he; exact (ih h).trans ((encSym_res he).trans hg)

/-! ### The bit reader -/

theorem refill_frame (s : State) :
    s.DecoderOnly (refill s).2 ∧ s.SameDecoder (refill s).2 ∧ (refill s).2.br.isOpen = s.br.isOpen ∧
      (refill s).2.br.total = s.br.total ∧ (refill s).2.bsrc.held = s.bsrc.held := by
  cases hf : s.env.fails
  · cases hd : s.bsrc.data with
    | nil =>
      rw [refill_eof s hf hd]
      exact ⟨⟨rfl, rfl, rfl, rfl, rfl, rfl, rfl, s.env.sameHost_advance⟩, ⟨rfl, rfl⟩, rfl, rfl, rfl⟩
    | cons v vs =>
      rw [refill_item s hf hd]
      exact ⟨⟨rfl, rfl, rfl, rfl, rfl, rfl, rfl, s.env.sameHost_advance⟩, ⟨rfl, rfl⟩, rfl, rfl, rfl⟩
  · rw [refill_fail s hf]
    exact ⟨⟨rfl, rfl, rfl, rfl, rfl, rfl, rfl, s.env.sameHost_advance⟩, ⟨rfl, rfl⟩, rfl, rfl, rfl⟩

/-- R152: the reader is left full, or empty at the end of the source or after a failure. -/
theorem refill_cnt (s : State) :
    ((refill s).1 = true → (refill s).2.br.cnt = 8 ∨ (refill s).2.br.cnt = 0) ∧
      ((refill s).1 = false → (refill s).2.br.byte = 0 ∧ (refill s).2.br.cnt = 0) := by
  cases hf : s.env.fails
  · cases hd : s.bsrc.data with
    | nil => rw [refill_eof s hf hd]; exact ⟨fun _ => .inr rfl, fun h => (by cases h)⟩
    | cons v vs => rw [refill_item s hf hd]; exact ⟨fun _ => .inl rfl, fun h => (by cases h)⟩
  · rw [refill_fail s hf]; exact ⟨fun h => (by cases h), fun _ => ⟨rfl, rfl⟩⟩

theorem empty_cnt : ¬ 0 < (0 : BitVec 4).toNat := by decide

theorem empty_cnt_le : (0 : BitVec 4).toNat ≤ 8 := by decide

theorem full_cnt_le : (8 : BitVec 4).toNat ≤ 8 := by decide

theorem State.readerInv_of_closed {s : State} (ho : s.br.isOpen = false) (hb : s.br.byte = 0) (hc : s.br.cnt = 0)
    (hh : s.bsrc.held = false) : s.ReaderInv :=
  ⟨fun _ => ⟨hb, hc⟩, by rw [hh, ho], fun h => by (rw [ho] at h; cases h), by rw [hc]; decide⟩

theorem openReader_frame (s : State) : s.DecoderOnly (openReader s).state ∧ s.SameDecoder (openReader s).state := by
  cases hf : s.env.fails
  · have h2 := s.env.sameHost_advance.trans s.env.advance.sameHost_advance
    cases hg : s.env.advance.fails
    · cases hd : s.bsrc.data with
      | nil => rw [openReader_empty s hf hg hd]; exact ⟨⟨rfl, rfl, rfl, rfl, rfl, rfl, rfl, h2⟩, rfl, rfl⟩
      | cons v vs => rw [openReader_item s hf hg hd]; exact ⟨⟨rfl, rfl, rfl, rfl, rfl, rfl, rfl, h2⟩, rfl, rfl⟩
    · rw [openReader_readAhead_fail s hf hg]; exact ⟨⟨rfl, rfl, rfl, rfl, rfl, rfl, rfl, h2⟩, rfl, rfl⟩
  · rw [openReader_fail s hf]; exact ⟨⟨rfl, rfl, rfl, rfl, rfl, rfl, rfl, s.env.sameHost_advance⟩, rfl, rfl⟩

/-- R151: a reader opened keeps the invariants; it is open if `OpenReader` returned, closed if it raised. -/
theorem openReader_inv {s : State} (h : s.ReaderInv) (hc : s.br.isOpen = false) :
    (openReader s).state.ReaderInv ∧ (∀ t, openReader s = .ok () t → t.br.isOpen = true) ∧
      ∀ e t, openReader s = .raised e t → t.br.isOpen = false := by
  cases hf : s.env.fails
  · cases hg : s.env.advance.fails
    · cases hd : s.bsrc.data with
      | nil =>
        rw [openReader_empty s hf hg hd]
        refine ⟨⟨fun hk => (by cases hk), rfl, fun _ hk => absurd hk empty_cnt, empty_cnt_le⟩, fun t ht => ?_,
          fun e t ht => (by cases ht)⟩
        injection ht with _ ht; rw [← ht]
      | cons v vs =>
        rw [openReader_item s hf hg hd]
        refine ⟨⟨fun hk => (by cases hk), rfl, fun _ _ => rfl, full_cnt_le⟩, fun t ht => ?_,
          fun e t ht => (by cases ht)⟩
        injection ht with _ ht; rw [← ht]
    · rw [openReader_readAhead_fail s hf hg]
      refine ⟨State.readerInv_of_closed hc rfl rfl rfl, fun t ht => (by cases ht), fun e t ht => ?_⟩
      injection ht with _ ht; rw [← ht]; exact hc
  · rw [openReader_fail s hf]
    refine ⟨h.congr rfl rfl, fun t ht => (by cases ht), fun e t ht => ?_⟩
    injection ht with _ ht; rw [← ht]; exact hc

theorem readBit_frame (s : State) : s.DecoderOnly (readBit s).state ∧ s.SameDecoder (readBit s).state := by
  by_cases h : s.br.cnt = 1
  · cases hf : s.env.fails
    · cases hd : s.bsrc.data with
      | nil =>
        rw [readBit_last s h hf hd]; exact ⟨⟨rfl, rfl, rfl, rfl, rfl, rfl, rfl, s.env.sameHost_advance⟩, rfl, rfl⟩
      | cons v vs =>
        rw [readBit_item s h hf hd]; exact ⟨⟨rfl, rfl, rfl, rfl, rfl, rfl, rfl, s.env.sameHost_advance⟩, rfl, rfl⟩
    · rw [readBit_fail s h hf]; exact ⟨⟨rfl, rfl, rfl, rfl, rfl, rfl, rfl, s.env.sameHost_advance⟩, rfl, rfl⟩
  · rw [readBit_within s h]; exact ⟨⟨rfl, rfl, rfl, rfl, rfl, rfl, rfl, .refl _⟩, rfl, rfl⟩

/-- A bit read keeps the invariants; the session goes on exactly when `ReadBit` returns. -/
theorem readBit_inv {s : State} (h : s.ReaderInv) (ho : s.br.isOpen = true) (hn : 0 < s.br.cnt.toNat) :
    (readBit s).state.ReaderInv ∧ (∀ b t, readBit s = .ok b t → t.br.isOpen = true) ∧
      ∀ e t, readBit s = .raised e t → t.br.isOpen = false := by
  have hcount := h.count ho hn
  have hle := h.cntLe
  have htot : (s.br.total + 1).toNat % 8 = (s.br.total.toNat + 1) % 8 := by
    rw [BitVec.toNat_add]; simp
  by_cases h1 : s.br.cnt = 1
  · rw [h1] at hcount
    cases hf : s.env.fails
    · cases hd : s.bsrc.data with
      | nil =>
        rw [readBit_last s h1 hf hd]
        refine ⟨⟨fun hk => ?_, h.held, fun _ hk => absurd hk empty_cnt, empty_cnt_le⟩, fun b t ht => ?_,
          fun e t ht => (by cases ht)⟩
        · exact absurd ((show s.br.isOpen = false from hk).symm.trans ho) Bool.false_ne_true
        · injection ht with _ ht; rw [← ht]; exact ho
      | cons v vs =>
        rw [readBit_item s h1 hf hd]
        refine ⟨⟨fun hk => ?_, h.held, fun _ _ => ?_, full_cnt_le⟩, fun b t ht => ?_, fun e t ht => (by cases ht)⟩
        · exact absurd ((show s.br.isOpen = false from hk).symm.trans ho) Bool.false_ne_true
        · change (s.br.total + 1).toNat % 8 = (8 - (8 : BitVec 4).toNat) % 8
          rw [htot, Nat.add_mod, hcount]; decide
        · injection ht with _ ht; rw [← ht]; exact ho
    · rw [readBit_fail s h1 hf]
      refine ⟨State.readerInv_of_closed rfl rfl rfl rfl, fun b t ht => (by cases ht), fun e t ht => ?_⟩
      injection ht with _ ht; rw [← ht]
  · rw [readBit_within s h1]
    have hne : s.br.cnt.toNat ≠ 1 := fun hk => h1 (BitVec.eq_of_toNat_eq hk)
    have hsub : (s.br.cnt - 1).toNat = s.br.cnt.toNat - 1 := by
      rw [BitVec.toNat_sub]; simp; omega
    refine ⟨⟨fun hk => ?_, h.held, fun _ _ => ?_, ?_⟩, fun b t ht => ?_, fun e t ht => (by cases ht)⟩
    · exact absurd ((show s.br.isOpen = false from hk).symm.trans ho) Bool.false_ne_true
    · simp only [Res.state_ok, hsub, htot]; omega
    · simp only [Res.state_ok, hsub]; omega
    · injection ht with _ ht; rw [← ht]; exact ho

theorem closeReader_frame (s : State) : s.DecoderOnly (closeReader s) ∧ s.SameDecoder (closeReader s) :=
  ⟨⟨rfl, rfl, rfl, rfl, rfl, rfl, rfl, .refl _⟩, rfl, rfl⟩

theorem closeReader_inv (s : State) : (closeReader s).ReaderInv := State.readerInv_of_closed rfl rfl rfl rfl

/-! ### The decoder -/

theorem startDecode_frame (s : State) :
    s.DecoderOnly (startDecode s).state ∧ (startDecode s).state.br = s.br ∧ (startDecode s).state.bsrc = s.bsrc := by
  cases hf : s.env.fails
  · rw [startDecode_ok s hf]; exact ⟨⟨rfl, rfl, rfl, rfl, rfl, rfl, rfl, s.env.sameHost_advance⟩, rfl, rfl⟩
  · rw [startDecode_fail s hf]; exact ⟨⟨rfl, rfl, rfl, rfl, rfl, rfl, rfl, s.env.sameHost_advance⟩, rfl, rfl⟩

theorem dropDecode_frame (s : State) : s.DecoderOnly s.dropDecode :=
  ⟨rfl, rfl, rfl, rfl, rfl, rfl, rfl, .refl _⟩

theorem abortDecode_frame (s : State) : s.DecoderOnly (abortDecode s) := by
  cases ho : s.br.isOpen
  · rw [abortDecode_closed s ho]; exact dropDecode_frame s
  · rw [abortDecode_open s ho]; exact ⟨rfl, rfl, rfl, rfl, rfl, rfl, rfl, .refl _⟩

/-- R195: the session is over and `SSINK` released; the reader is closed and `BSRC` released. -/
theorem abortDecode_closes (s : State) :
    (abortDecode s).dec.active = false ∧ (abortDecode s).ssink.held = false ∧ (abortDecode s).br.isOpen = false := by
  cases ho : s.br.isOpen
  · rw [abortDecode_closed s ho]; exact ⟨rfl, rfl, ho⟩
  · rw [abortDecode_open s ho]; exact ⟨rfl, rfl, rfl⟩

theorem abortDecode_inv {s : State} (h : s.ReaderInv) : (abortDecode s).ReaderInv := by
  cases ho : s.br.isOpen
  · rw [abortDecode_closed s ho]; exact h.congr rfl rfl
  · rw [abortDecode_open s ho]; exact State.readerInv_of_closed rfl rfl rfl rfl

theorem emitLeaf_frame (b : Bool) (w : Word) (s : State) : s.DecoderOnly (emitLeaf b w s).state := by
  cases hf : s.env.fails
  · rw [emitLeaf_ok s b w hf]; exact ⟨rfl, rfl, rfl, rfl, rfl, rfl, rfl, s.env.sameHost_advance⟩
  · rw [emitLeaf_fail s b w hf]
    exact State.DecoderOnly.trans (t := { s with
      ssink := { s.ssink with data := Config.sinkAfterFailure s.env.advance.freeIdx, bad := true }
      env := s.env.afterFailedPut }) ⟨rfl, rfl, rfl, rfl, rfl, rfl, rfl, s.env.sameHost_afterFailedPut⟩ (abortDecode_frame _)

theorem followEdge_frame {b : Bool} {s : State} {r : Res Reply} (h : followEdge b s = .ok r) :
    s.DecoderOnly r.state := by
  unfold followEdge at h
  split at h
  · cases h
  · split at h
    · split at h
      · cases h
      · split at h
        · cases h; exact emitLeaf_frame _ _ s
        · cases h; exact ⟨rfl, rfl, rfl, rfl, rfl, rfl, rfl, .refl _⟩
    · cases h; exact abortDecode_frame s

/-- R192 from the bit on: the reader's invariants are kept and `SSINK` is held exactly while the session is active; the
session goes on, with the reader as it was, exactly when the procedure returns. -/
theorem followEdge_inv {b : Bool} {s : State} {r : Res Reply} (h : followEdge b s = .ok r) (hi : s.ReaderInv)
    (hs : s.ssink.held = s.dec.active) :
    r.state.ReaderInv ∧ r.state.ssink.held = r.state.dec.active ∧
      (∀ a t, r = .ok a t → t.dec.active = s.dec.active ∧ t.br = s.br ∧ t.bsrc = s.bsrc) ∧
      ∀ e t, r = .raised e t → t.dec.active = false ∧ t.br.isOpen = false := by
  have habort : ∀ u : State, u.ReaderInv → (abortDecode u).ReaderInv ∧
      (abortDecode u).ssink.held = (abortDecode u).dec.active := fun u hu =>
    ⟨abortDecode_inv hu, by rw [(abortDecode_closes u).1, (abortDecode_closes u).2.1]⟩
  unfold followEdge at h
  split at h
  · cases h
  · split at h
    · split at h
      · cases h
      · rename_i w2 _
        split at h
        · cases h
          cases hf : s.env.fails
          · rw [emitLeaf_ok s b w2 hf]
            refine ⟨hi.congr rfl rfl, hs, fun a t ht => ?_, fun e t ht => (by cases ht)⟩
            injection ht with _ ht; rw [← ht]; exact ⟨rfl, rfl, rfl⟩
          · rw [emitLeaf_fail s b w2 hf]
            obtain ⟨h1, h2⟩ := habort { s with
              ssink := { s.ssink with data := Config.sinkAfterFailure s.env.advance.freeIdx, bad := true }
              env := s.env.afterFailedPut } (hi.congr rfl rfl)
            refine ⟨h1, h2, fun a t ht => (by cases ht), fun e t ht => ?_⟩
            injection ht with _ ht; rw [← ht]
            exact ⟨(abortDecode_closes _).1, (abortDecode_closes _).2.2⟩
        · cases h
          refine ⟨hi.congr rfl rfl, hs, fun a t ht => ?_, fun e t ht => (by cases ht)⟩
          injection ht with _ ht; rw [← ht]; exact ⟨rfl, rfl, rfl⟩
    · cases h
      refine ⟨(habort s hi).1, (habort s hi).2, fun a t ht => (by cases ht), fun e t ht => ?_⟩
      injection ht with _ ht; rw [← ht]
      exact ⟨(abortDecode_closes _).1, (abortDecode_closes _).2.2⟩

theorem decBit_frame {s : State} {r : Res Reply} (h : decBit s = .ok r) : s.DecoderOnly r.state := by
  have hr := readBit_frame s
  unfold decBit at h
  split at h <;> rename_i hb <;> rw [hb] at hr
  · cases h; exact hr.1.trans (dropDecode_frame _)
  · exact hr.1.trans (followEdge_frame h)

/-- R192: `DecBit` keeps the reader's invariants and holds `SSINK` exactly while the session is active; reader and session
stay open if it returned, both are over if it raised. -/
theorem decBit_inv {s : State} {r : Res Reply} (h : decBit s = .ok r) (hi : s.ReaderInv) (ho : s.br.isOpen = true)
    (hn : 0 < s.br.cnt.toNat) (hs : s.ssink.held = s.dec.active) :
    r.state.ReaderInv ∧ r.state.ssink.held = r.state.dec.active ∧
      (∀ a t, r = .ok a t → t.dec.active = s.dec.active ∧ t.br.isOpen = true) ∧
      ∀ e t, r = .raised e t → t.dec.active = false ∧ t.br.isOpen = false := by
  have hr := (readBit_frame s).2
  obtain ⟨h1, h2, h3⟩ := readBit_inv hi ho hn
  unfold decBit at h
  split at h <;> rename_i hb
  · rename_i e t
    cases h
    rw [hb] at h1
    refine ⟨State.ReaderInv.congr h1 rfl rfl, rfl, fun a u hu => (by cases hu), fun e' u hu => ?_⟩
    injection hu with _ hu; rw [← hu]
    exact ⟨rfl, (h3 e t hb : t.br.isOpen = false)⟩
  · rename_i b t
    rw [hb] at h1 hr
    obtain ⟨k1, k2, k3, k4⟩ := followEdge_inv h h1 (hr.held hs)
    refine ⟨k1, k2, fun a u hu => ?_, k4⟩
    obtain ⟨m1, m2, -⟩ := k3 a u hu
    exact ⟨by rw [m1]; exact congrArg Decoder.active hr.1, by rw [m2]; exact h2 b t hb⟩

theorem decLoop_frame {n : Nat} {s : State} {r : Res Unit} (h : decLoop n s = .ok r) : s.DecoderOnly r.state := by
  induction n generalizing s with
  | zero => cases h; exact .refl s
  | succ n ih =>
    rw [decLoop] at h
    split at h
    · split at h
      · cases h
      · rename_i hb; cases h; exact decBit_frame hb
      · rename_i hb; exact (decBit_frame hb).trans (ih h)
    · cases h; exact .refl s

theorem decLoop_inv {n : Nat} {s : State} {r : Res Unit} (h : decLoop n s = .ok r) (hi : s.ReaderInv)
    (ho : s.br.isOpen = true) (hs : s.ssink.held = s.dec.active) :
    r.state.ReaderInv ∧ r.state.ssink.held = r.state.dec.active ∧
      (∀ a t, r = .ok a t → t.dec.active = s.dec.active ∧ t.br.isOpen = true) ∧
      ∀ e t, r = .raised e t → t.dec.active = false ∧ t.br.isOpen = false := by
  have hstop : ∀ u : State, u.ReaderInv → u.br.isOpen = true → u.ssink.held = u.dec.active →
      (Res.ok () u).state.ReaderInv ∧ (Res.ok () u).state.ssink.held = (Res.ok () u).state.dec.active ∧
      (∀ a t, Res.ok () u = .ok a t → t.dec.active = u.dec.active ∧ t.br.isOpen = true) ∧
      ∀ e t, Res.ok () u = .raised e t → t.dec.active = false ∧ t.br.isOpen = false := fun u h1 h2 h3 =>
    ⟨h1, h3, fun a t ht => by (injection ht with _ ht; rw [← ht]; exact ⟨rfl, h2⟩), fun e t ht => (by cases ht)⟩
  induction n generalizing s with
  | zero => cases h; exact hstop s hi ho hs
  | succ n ih =>
    rw [decLoop] at h
    split at h
    · rename_i hn
      have hn := ((hasNext_iff s).1 hn).2.1
      split at h
      · cases h
      · rename_i e t hb; cases h
        obtain ⟨k1, k2, -, k4⟩ := decBit_inv hb hi ho hn hs
        refine ⟨k1, k2, fun a u hu => (by cases hu), fun e' u hu => ?_⟩
        injection hu with _ hu; rw [← hu]; exact k4 e t rfl
      · rename_i a t hb
        obtain ⟨k1, k2, k3, -⟩ := decBit_inv hb hi ho hn hs
        obtain ⟨m1, m2⟩ := k3 a t rfl
        have := ih h k1 m2 k2
        rw [m1] at this
        exact this
    · cases h; exact hstop s hi ho hs

theorem endDecode_frame (s : State) : s.DecoderOnly (endDecode s).state := by
  by_cases h : s.dec.node = s.treeRoot
  · rw [endDecode_root s h]; exact dropDecode_frame s
  · rw [endDecode_midCode s h]; exact abortDecode_frame s

/-- R194: the session is over and `SSINK` released, whichever way. -/
theorem endDecode_inv {s : State} (hi : s.ReaderInv) :
    (endDecode s).state.ReaderInv ∧ (endDecode s).state.ssink.held = false ∧
      (endDecode s).state.dec.active = false ∧ ∀ e t, endDecode s = .raised e t → t.br.isOpen = false := by
  by_cases h : s.dec.node = s.treeRoot
  · rw [endDecode_root s h]; exact ⟨hi.congr rfl rfl, rfl, rfl, fun e t ht => (by cases ht)⟩
  · rw [endDecode_midCode s h]
    refine ⟨abortDecode_inv hi, (abortDecode_closes s).2.1, (abortDecode_closes s).1, fun e t ht => ?_⟩
    injection ht with _ ht; rw [← ht]; exact (abortDecode_closes s).2.2

end Sys2Proof.Machine
end

