-- ==== Sys2Proof/Laws/Commands.lean ====
section
/-! SUPPORT. Every command as the end of one procedure, what the two `RUN`s may change, and that they keep the
invariants of R30. -/

namespace Sys2Proof.Machine

/-- The end of a command changes nothing but the result registers (R10). -/
theorem State.finish_eq (opc : BitVec 8) (r : Res Reply) :
    State.finish opc r = { r.state with res := (State.finish opc r).res } := by
  cases r <;> rfl

/-- The procedure of a command: `exec` is its end (`exec_eq`). -/
def procedure : Instr → State → Except Fault (Res Reply)
  | .nop, s => .ok (.ok {} s)
  | .srst, s => .ok (.ok {} s.softReset)
  | .bwOpen, s => .ok (if s.bw.isOpen then .raised .badState s else (openWriter s).andThen fun _ t => .ok {} t)
  | .bwWritebit b, s => .ok (if s.bw.isOpen then (writeBit b s).andThen fun _ t => .ok {} t else .raised .badState s)
  | .bwClose, s => .ok (if s.bw.isOpen then
      match closeWriter s with
      | (true, t) => .ok {} t
      | (false, t) => .raised (.ioSink .bsink) t
    else .raised .badState s)
  | .brOpen, s => .ok (if s.br.isOpen then .raised .badState s else (openReader s).andThen fun _ t => .ok {} t)
  | .brHasnext, s => .ok (if s.br.isOpen then .ok { val := s.hasNext } s else .raised .badState s)
  | .brReadbit, s => .ok (if s.br.isOpen then
      if s.hasNext then (readBit s).andThen fun b t => .ok { val := b } t
      else .raised .endOfStream s
    else .raised .badState s)
  | .brClose, s => .ok (if s.br.isOpen then .ok {} (closeReader s) else .raised .badState s)
  | .encSym x, s => if s.bw.isOpen then
      match encSym x s with
      | .error f => .error f
      | .ok r => .ok (r.andThen fun _ t => .ok { sym := x } t)
    else .ok (.raised .badState s)
  | .encRun, s => if s.bw.isOpen then .ok (.raised .badState s)
    else
      match s.acquireSource .ssrc with
      | (false, t) => .ok (.raised (.ioSource .ssrc) t)
      | (true, t) =>
        match openWriter t with
        | .raised e u => .ok (.raised e (u.releaseSource .ssrc))
        | .ok _ u => encBody u
  | .decStart, s => .ok (if s.dec.active || !s.treePresent then .raised .badState s
    else (startDecode s).andThen fun _ t => .ok {} t)
  | .decBit, s => if !s.dec.active || !s.br.isOpen then .ok (.raised .badState s)
    else if s.hasNext then decBit s
    else .ok (.raised .endOfStream s)
  | .decEnd, s => .ok (if s.dec.active then (endDecode s).andThen fun _ t => .ok {} t
    else .raised .badState s)
  | .decRun, s => if s.dec.active || s.br.isOpen then .ok (.raised .badState s)
    else if s.treePresent then
      match openReader s with
      | .raised e t => .ok (.raised e t)
      | .ok _ t => decBody t
    else .ok (.ok {} s)

theorem exec_eq (i : Instr) (s : State) : exec i s = finishRead (opcodeOf i) (procedure i s) := by
  cases i <;> first | rfl | skip
  · rename_i b; cases b <;> rfl
  · rename_i x
    have : opcodeOf (.encSym x) = 0x30 := by revert x; decide
    rw [this]; rfl

/-- A next state is the end of the command's procedure. -/
theorem exec_next {i : Instr} {s t : State} (h : exec i s = .next t) :
    ∃ r, procedure i s = .ok r ∧ t = State.finish (opcodeOf i) r := by
  rw [exec_eq] at h
  cases hb : procedure i s with
  | error f => rw [hb] at h; cases h
  | ok r => rw [hb] at h; injection h with h; exact ⟨r, rfl, h.symm⟩

theorem Res.andThen_state {α : Type} (r : Res α) (f : α → Reply) :
    (r.andThen fun a t => (.ok (f a) t : Res Reply)).state = r.state := by
  cases r <;> rfl

/-! ### `ENC.RUN` -/

theorem encClose_frame (s : State) : s.EncoderOnly (encClose s).state := by
  have h := closeWriter_frame s
  unfold encClose
  split <;> rename_i t ht <;> rw [ht] at h <;> exact h.trans (releaseSsrc_frame _)

theorem encClose_inv (s : State) :
    (encClose s).state.WriterInv ∧ (encClose s).state.bw.isOpen = false ∧ (encClose s).state.ssrc.held = false ∧
      (encClose s).state.bsink.held = false := by
  have h := closeWriter_inv s
  have k := closeWriter_closed s
  unfold encClose
  split <;> rename_i t ht <;> rw [ht] at h k <;> exact ⟨h.congr rfl rfl, by simp [show t.bw = _ from k.1], rfl, k.2⟩

theorem encBody_frame {s : State} {r : Res Reply} (h : encBody s = .ok r) : s.EncoderOnly r.state := by
  unfold encBody at h
  split at h
  · cases h
  · rename_i q hq
    cases h
    have := encLoop_frame hq
    cases q with
    | ok a t => exact this.trans (encClose_frame t)
    | raised e t => exact this

theorem encBody_inv {s : State} {r : Res Reply} (h : encBody s = .ok r) (hi : s.WriterInv)
    (ho : s.bw.isOpen = true) :
    r.state.WriterInv ∧ r.state.bw.isOpen = false ∧ r.state.ssrc.held = false ∧ r.state.bsink.held = false := by
  unfold encBody at h
  split at h
  · cases h
  · rename_i q hq
    cases h
    have := encLoop_inv hq hi ho
    cases q with
    | ok a t => exact encClose_inv t
    | raised e t => exact ⟨this.1, (this.2.2 _ _ rfl).1, (this.2.2 _ _ rfl).2, this.1.held.trans (this.2.2 _ _ rfl).1⟩

/-- R176: whatever the answer, an encode leaves everything but the writer, `BSINK` and `SSRC` alone. -/
theorem encRun_frame {s : State} {r : Res Reply} (h : procedure .encRun s = .ok r) : s.EncoderOnly r.state := by
  simp only [procedure] at h
  split at h
  · cases h; exact .refl _
  · have acq : ∀ k, s.EncoderOnly { s with env := s.env.advance, ssrc := k } := fun k =>
      ⟨rfl, rfl, rfl, rfl, rfl, rfl, rfl, .refl _, s.env.sameHost_advance⟩
    cases hf : s.env.fails
    · rw [State.acquireSource_ok _ hf] at h
      have f := openWriter_frame (s.afterDraw.setSource .ssrc { s.source .ssrc with held := true })
      simp only at h
      split at h <;> rename_i hw <;> rw [hw] at f
      · cases h; exact (acq _).trans (f.trans (releaseSsrc_frame _))
      · exact (acq _).trans (f.trans (encBody_frame h))
    · rw [State.acquireSource_fail _ hf] at h
      cases h; exact acq _

/-- R176, R261: `ENC.RUN` keeps the writer's invariants and releases `SSRC`; where it was not refused with `BadState` the
writer is closed at its end. -/
theorem encRun_inv {s : State} {r : Res Reply} (h : procedure .encRun s = .ok r) (hi : s.WriterInv)
    (hs : s.ssrc.held = false) :
    r.state.WriterInv ∧ r.state.ssrc.held = false ∧ (s.bw.isOpen = false → r.state.bw.isOpen = false) := by
  simp only [procedure] at h
  split at h
  · rename_i ho; cases h; exact ⟨hi, hs, fun hc => absurd (ho.symm.trans hc) Bool.false_ne_true.symm⟩
  · rename_i ho
    have ho : s.bw.isOpen = false := by simpa using ho
    cases hf : s.env.fails
    · rw [State.acquireSource_ok _ hf] at h
      simp only at h
      split at h <;> rename_i hw
      · cases h
        have g := openWriter_raised hw
        exact ⟨hi.congr g.1 (congrArg Sink.held g.2), rfl, fun _ => (congrArg Writer.isOpen g.1).trans ho⟩
      · rename_i u
        have g : u.WriterInv := by
          have := openWriter_inv (s := s.afterDraw.setSource .ssrc { s.source .ssrc with held := true })
            (hi.congr rfl rfl)
          rw [hw] at this; exact this
        obtain ⟨h1, h2, h3, -⟩ := encBody_inv h g (openWriter_isOpen hw)
        exact ⟨h1, h3, fun _ => h2⟩
    · rw [State.acquireSource_fail _ hf] at h
      cases h
      exact ⟨hi.congr rfl rfl, hs, fun _ => ho⟩

theorem encClose_res (s : State) : (encClose s).state.res = s.res := by
  have h := closeWriter_res s
  unfold encClose
  split <;> rename_i t ht <;> rw [ht] at h <;> exact h

/-- `ENC.RUN` notes nothing if it ends OK. -/
theorem encRun_res {s t : State} {a : Reply} (h : procedure .encRun s = .ok (.ok a t)) : t.res = s.res := by
  simp only [procedure] at h
  split at h
  · cases h
  · cases hf : s.env.fails
    · rw [State.acquireSource_ok _ hf] at h
      have f := openWriter_res (s.afterDraw.setSource .ssrc { s.source .ssrc with held := true })
      simp only at h
      split at h <;> rename_i hw <;> rw [hw] at f
      · cases h
      · unfold encBody at h
        split at h
        · cases h
        · rename_i q hq
          cases q with
          | raised e u => cases h
          | ok b u =>
            have hc := encClose_res u
            injection h with h
            rw [Res.andThen_ok] at h
            rw [h] at hc
            exact hc.trans ((encLoop_res hq).trans f)
    · rw [State.acquireSource_fail _ hf] at h
      cases h

/-! ### `DEC.RUN` -/

theorem decClose_frame (s : State) : s.DecoderOnly (decClose s).state := by
  have h := endDecode_frame s
  unfold decClose
  cases he : endDecode s <;> rw [he] at h
  · exact h.trans (closeReader_frame _).1
  · exact h

theorem decClose_inv {s : State} (hi : s.ReaderInv) :
    (decClose s).state.ReaderInv ∧ (decClose s).state.ssink.held = false ∧
      (decClose s).state.dec.active = false ∧ (decClose s).state.br.isOpen = false := by
  obtain ⟨h1, h2, h3, h4⟩ := endDecode_inv hi
  unfold decClose
  cases he : endDecode s <;> rw [he] at h1 h2 h3
  · exact ⟨closeReader_inv _, h2, h3, rfl⟩
  · exact ⟨h1, h2, h3, h4 _ _ he⟩

theorem decBody_frame {s : State} {r : Res Reply} (h : decBody s = .ok r) : s.DecoderOnly r.state := by
  have f := startDecode_frame s
  unfold decBody at h
  split at h <;> rename_i hd <;> rw [hd] at f
  · cases h; exact f.1.trans (closeReader_frame _).1
  · split at h
    · cases h
    · rename_i q hq; cases h
      have g := decLoop_frame hq
      cases q with
      | ok a t => exact f.1.trans (g.trans (decClose_frame t))
      | raised e t => exact f.1.trans g

theorem decBody_inv {s : State} {r : Res Reply} (h : decBody s = .ok r) (hi : s.ReaderInv)
    (ho : s.br.isOpen = true) (ha : s.dec.active = false) (hs : s.ssink.held = s.dec.active) :
    r.state.ReaderInv ∧ r.state.ssink.held = false ∧ r.state.dec.active = false ∧ r.state.br.isOpen = false := by
  have f := startDecode_frame s
  unfold decBody at h
  split at h <;> rename_i hd <;> rw [hd] at f
  · rename_i e t
    cases h
    have : t.ssink = s.ssink ∧ t.dec = s.dec := by
      cases hf : s.env.fails
      · rw [startDecode_ok _ hf] at hd; cases hd
      · rw [startDecode_fail _ hf] at hd; injection hd with _ hd; rw [← hd]; exact ⟨rfl, rfl⟩
    exact ⟨closeReader_inv _, by simp [closeReader, this.1, hs, ha], by simp [closeReader, this.2, ha], rfl⟩
  · rename_i t
    have hh : t.ssink.held = t.dec.active := by
      cases hf : s.env.fails
      · rw [startDecode_ok _ hf] at hd; injection hd with _ hd; rw [← hd]
      · rw [startDecode_fail _ hf] at hd; cases hd
    split at h
    · cases h
    · rename_i q hq; cases h
      obtain ⟨h1, h2, h3, h4⟩ := decLoop_inv hq (hi.congr f.2.1 (congrArg Source.held f.2.2))
        ((congrArg Reader.isOpen f.2.1).trans ho) hh
      cases q with
      | ok a t => exact decClose_inv h1
      | raised e t =>
        have := h4 _ _ rfl
        exact ⟨h1, h2.trans this.1, this⟩

/-- R203: whatever the answer, a decode leaves everything but the reader, the decoder, `BSRC` and `SSINK` alone. -/
theorem decRun_frame {s : State} {r : Res Reply} (h : procedure .decRun s = .ok r) : s.DecoderOnly r.state := by
  simp only [procedure] at h
  split at h
  · cases h; exact .refl _
  · split at h
    · have f := (openReader_frame s).1
      split at h <;> rename_i hr <;> rw [hr] at f
      · cases h; exact f
      · exact f.trans (decBody_frame h)
    · cases h; exact .refl _

/-- R203, R261: `DEC.RUN` keeps the reader's invariants and holds `SSINK` exactly while a session is active; where it was
not refused with `BadState` reader and session are closed at its end. -/
theorem decRun_inv {s : State} {r : Res Reply} (h : procedure .decRun s = .ok r) (hi : s.ReaderInv)
    (hs : s.ssink.held = s.dec.active) :
    r.state.ReaderInv ∧ r.state.ssink.held = r.state.dec.active ∧
      (s.dec.active = false → s.br.isOpen = false → r.state.dec.active = false ∧ r.state.br.isOpen = false) := by
  simp only [procedure] at h
  split at h
  · rename_i hc
    cases h
    refine ⟨hi, hs, fun ha ho => ?_⟩
    simp [ha, ho] at hc
  · rename_i hc
    simp only [Bool.or_eq_true, not_or, Bool.not_eq_true] at hc
    split at h
    · have f := (openReader_frame s).2
      have g := openReader_inv hi hc.2
      split at h <;> rename_i hr <;> rw [hr] at f g
      · rename_i e t
        cases h
        exact ⟨g.1, f.held hs, fun _ _ => ⟨f.inactive hc.1, g.2.2 e t rfl⟩⟩
      · rename_i t
        obtain ⟨h1, h2, h3, h4⟩ := decBody_inv h g.1 (g.2.1 t rfl) (f.inactive hc.1) (f.held hs)
        exact ⟨h1, by rw [h2, h3], fun _ _ => ⟨h3, h4⟩⟩
    · cases h; exact ⟨hi, hs, fun _ _ => hc⟩

end Sys2Proof.Machine
end

