-- ==== Sys2Proof/Laws/Answers.lean ====
section
/-! SUPPORT. The answers of the environment (R9, log 2): every procedure uses them up in their order, and where none of them
is `fail` no `IoFailure` is recorded and no sink becomes `bad` (R251, R36). -/

namespace Sys2Proof.Machine

/-! ### Answers used up -/

/-- From `e` to `f` exactly the next `k` answers are used up. -/
structure Environment.Uses (e f : Environment) (k : Nat) : Prop where
  draws : f.draws = e.draws.drop k
  answered : f.answered = e.answered + k

theorem Environment.Uses.refl (e : Environment) : e.Uses e 0 := ⟨rfl, rfl⟩

theorem Environment.uses_advance (e : Environment) : e.Uses e.advance 1 := ⟨by simp, rfl⟩

theorem Environment.Uses.trans {e f g : Environment} {j k : Nat} (h : e.Uses f j) (i : f.Uses g k) : e.Uses g (j + k) :=
  ⟨by rw [i.draws, h.draws, List.drop_drop], by rw [i.answered, h.answered, Nat.add_assoc]⟩

/-- The next answers depend on `draws` and `answered` alone. -/
theorem Environment.noFail_congr {e f : Environment} (hd : f.draws = e.draws) (ha : f.answered = e.answered) (n : Nat) :
    f.NoFail n ↔ e.NoFail n := by
  induction n generalizing e f with
  | zero => rfl
  | succ n ih =>
    have hf : f.fails = e.fails := by unfold Environment.fails; rw [hd, ha]
    rw [Environment.noFail_succ, Environment.noFail_succ, hf, ih (e := e.advance) (f := f.advance) (by simp [hd]) (by simp [ha])]

theorem Environment.uses_advanceN (n : Nat) (e : Environment) : e.Uses (e.advanceN n) n := by
  induction n generalizing e with
  | zero => exact .refl e
  | succ n ih =>
    have h := e.uses_advance.trans (ih e.advance)
    rwa [Nat.add_comm] at h

theorem Environment.Uses.noFail {e f : Environment} {j k : Nat} (h : e.Uses f j) (hn : e.NoFail (j + k)) :
    e.NoFail j ∧ f.NoFail k := by
  rw [Environment.noFail_add] at hn
  have u := e.uses_advanceN j
  exact ⟨hn.1, (Environment.noFail_congr (h.draws.trans u.draws.symm) (h.answered.trans u.answered.symm) k).2 hn.2⟩

theorem Environment.Uses.answersUntil {e f : Environment} {k : Nat} (h : e.Uses f k) : e.answersUntil f = k := by
  unfold Environment.answersUntil; rw [h.answered]; omega

/-! ### What happens if none of them is `fail` -/

/-- No `IoFailure` is recorded and no sink has become `bad`. -/
structure State.Quiet (s t : State) : Prop where
  log : t.res.errlog.getLsbD 1 = true → s.res.errlog.getLsbD 1 = true
  bsink : t.bsink.bad = true → s.bsink.bad = true
  ssink : t.ssink.bad = true → s.ssink.bad = true

theorem State.Quiet.refl (s : State) : s.Quiet s := ⟨id, id, id⟩

theorem State.Quiet.trans {s t u : State} (h : s.Quiet t) (k : t.Quiet u) : s.Quiet u :=
  ⟨h.log ∘ k.log, h.bsink ∘ k.bsink, h.ssink ∘ k.ssink⟩

/-- Some answers are used up on the way from `s` to `t`; if none is `fail`, then `p`, and nothing of `IoFailure` shows. -/
def State.QuietIf (s t : State) (p : Prop) : Prop :=
  ∃ k, s.env.Uses t.env k ∧ (s.env.NoFail k → p ∧ s.Quiet t)

/-- The failure is no `IoFailure`. -/
def Failure.notIo : Failure → Prop
  | .ioSink _ | .ioSource _ => False
  | .unknownSymbol _ | .absentChild _ _ | .midCode _ | .illegalCommand | .badState | .endOfStream => True

/-- The answer is no `IoFailure`. -/
def Res.notIo {α : Type} : Res α → Prop
  | .ok _ _ => True
  | .raised e _ => e.notIo

/-- `QuietIf` for the answer of a procedure. -/
def State.QuietRes {α : Type} (s : State) (r : Res α) : Prop := s.QuietIf r.state r.notIo

theorem State.QuietIf.same {s t : State} {p : Prop} (hp : p) (he : t.env = s.env) (hq : s.Quiet t) : s.QuietIf t p :=
  ⟨0, by rw [he]; exact .refl _, fun _ => ⟨hp, hq⟩⟩

theorem State.QuietIf.trans {s t u : State} {p q : Prop} (h : s.QuietIf t p) (i : t.QuietIf u q) : s.QuietIf u q := by
  obtain ⟨j, u1, h1⟩ := h
  obtain ⟨k, u2, h2⟩ := i
  refine ⟨j + k, u1.trans u2, fun hn => ?_⟩
  obtain ⟨n1, n2⟩ := u1.noFail hn
  exact ⟨(h2 n2).1, (h1 n1).2.trans (h2 n2).2⟩

/-- What was promised before a clean-up stands after it. -/
theorem State.QuietIf.cleanUp {s t u : State} {p : Prop} (h : s.QuietIf t p) (i : t.QuietIf u True) : s.QuietIf u p := by
  obtain ⟨j, u1, h1⟩ := h
  obtain ⟨k, u2, h2⟩ := i
  refine ⟨j + k, u1.trans u2, fun hn => ?_⟩
  obtain ⟨n1, n2⟩ := u1.noFail hn
  exact ⟨(h1 n1).1, (h1 n1).2.trans (h2 n2).2⟩

theorem State.QuietIf.mono {s t : State} {p q : Prop} (h : s.QuietIf t p) (hpq : p → q) : s.QuietIf t q := by
  obtain ⟨k, u, h⟩ := h
  exact ⟨k, u, fun hn => ⟨hpq (h hn).1, (h hn).2⟩⟩

/-- A `fail` used up. -/
theorem State.QuietIf.ofFail {s t : State} (hf : s.env.fails = true) (hd : t.env.draws = s.env.draws.tail)
    (ha : t.env.answered = s.env.answered + 1) : s.QuietIf t False :=
  ⟨1, ⟨by rw [hd, List.drop_one], ha⟩, fun hn => by rw [hn.1] at hf; cases hf⟩

/-- One answer used up. -/
theorem State.QuietIf.one {s t : State} {p : Prop} (hp : p) (he : t.env = s.env.advance) (hq : s.Quiet t) : s.QuietIf t p :=
  ⟨1, by rw [he]; exact s.env.uses_advance, fun _ => ⟨hp, hq⟩⟩

theorem State.QuietRes.andThen {α β : Type} {s : State} {r : Res α} {f : α → State → Res β} (h : s.QuietRes r)
    (hf : ∀ a t, r = .ok a t → t.QuietRes (f a t)) : s.QuietRes (r.andThen f) := by
  cases r with
  | ok a t => exact State.QuietIf.trans h (hf a t rfl)
  | raised e t => exact h

/-! ### The writer and the encoder -/

theorem openWriter_quiet (s : State) : s.QuietRes (openWriter s) := by
  cases hf : s.env.fails
  · rw [openWriter_ok s hf]; exact .one trivial rfl ⟨id, nofun, id⟩
  · rw [openWriter_fail s hf]; exact (State.QuietIf.ofFail hf rfl rfl).mono False.elim

theorem writeBit_quiet (b : Bool) (s : State) : s.QuietRes (writeBit b s) := by
  by_cases h : s.bw.cnt.toNat < 7
  · rw [writeBit_within s b h]; exact .same trivial rfl ⟨id, id, id⟩
  · cases hf : s.env.fails
    · rw [writeBit_fills_ok s b h hf]; exact .one trivial rfl ⟨id, id, id⟩
    · rw [writeBit_fills_fail s b h hf]; exact (State.QuietIf.ofFail hf rfl rfl).mono False.elim

theorem closeWriter_quiet (s : State) : s.QuietIf (closeWriter s).2 ((closeWriter s).1 = true) := by
  by_cases h : s.bw.cnt = 0
  · rw [closeWriter_empty s h]; exact .same rfl rfl ⟨id, id, id⟩
  · cases hf : s.env.fails
    · rw [closeWriter_ok s h hf]; exact .one rfl rfl ⟨id, id, id⟩
    · rw [closeWriter_fail s h hf]; exact (State.QuietIf.ofFail hf rfl rfl).mono False.elim

theorem closeNoting_quiet (s : State) : s.QuietIf (closeNoting s) True := by
  have h := closeWriter_quiet s
  unfold closeNoting
  split <;> rename_i t ht <;> rw [ht] at h
  · exact h.mono fun _ => trivial
  · have h : s.QuietIf t False := h.mono nofun
    obtain ⟨k, u, h⟩ := h
    exact ⟨k, u, fun hn => (h hn).1.elim⟩

theorem encBits_quiet {x : Symbol} {i n : Nat} {s : State} {r : Res Unit} (h : encBits x i n s = .ok r) : s.QuietRes r := by
  induction n generalizing i s with
  | zero => cases h; exact .same trivial rfl (.refl s)
  | succ n ih =>
    simp only [encBits] at h
    split at h
    · cases h
    · rename_i b _
      have f := writeBit_quiet b s
      split at h <;> rename_i hb <;> rw [hb] at f
      · cases h; exact f
      · exact State.QuietIf.trans f (ih h)

theorem encSym_quiet {x : Symbol} {s : State} {r : Res Unit} (h : encSym x s = .ok r) : s.QuietRes r := by
  unfold encSym at h
  split at h
  · cases h
  · split at h
    · exact encBits_quiet h
    · cases h; exact closeNoting_quiet s

/-- `Get`: of which only `fail` counts. -/
theorem State.get_quiet (s : State) (p : SourcePort) : s.QuietIf (s.get p).2 ((s.get p).1 ≠ .fail) := by
  cases hf : s.env.fails
  · cases hd : (s.source p).data with
    | nil => rw [State.get_eof p hf hd]; exact .one nofun rfl ⟨id, id, id⟩
    | cons v vs =>
      rw [State.get_item p hf hd]
      cases p <;> exact .one nofun rfl ⟨id, id, id⟩
  · rw [State.get_fail p hf]; exact (State.QuietIf.ofFail hf rfl rfl).mono False.elim

theorem State.releaseSource_quiet (s : State) (p : SourcePort) : s.QuietIf (s.releaseSource p) True := by
  cases p <;> exact .same trivial rfl ⟨id, id, id⟩

theorem encLoop_quiet {n : Nat} {s : State} {r : Res Unit} (h : encLoop n s = .ok r) : s.QuietRes r := by
  induction n generalizing s with
  | zero =>
    have hg := s.get_quiet .ssrc
    rw [encLoop] at h
    cases hs : s.get .ssrc with
    | mk g t =>
      rw [hs] at hg h
      cases g with
      | eof => cases h; exact hg.mono fun _ => trivial
      | fail =>
        cases h
        exact ((hg.mono fun h => h rfl).cleanUp
          ((closeNoting_quiet t).cleanUp (State.releaseSource_quiet _ .ssrc))).mono False.elim
      | item x =>
        simp only at h
        cases hq : encSym x t with
        | error f => rw [hq] at h; cases h
        | ok q =>
          have f := encSym_quiet hq
          rw [hq] at h
          cases q with
          | raised e u => cases h; exact (State.QuietIf.trans hg f).cleanUp (u.releaseSource_quiet .ssrc)
          | ok a u => cases h; exact State.QuietIf.trans hg f
  | succ n ih =>
    have hg := s.get_quiet .ssrc
    rw [encLoop] at h
    cases hs : s.get .ssrc with
    | mk g t =>
      rw [hs] at hg h
      cases g with
      | eof => cases h; exact hg.mono fun _ => trivial
      | fail =>
        cases h
        exact ((hg.mono fun h => h rfl).cleanUp
          ((closeNoting_quiet t).cleanUp (State.releaseSource_quiet _ .ssrc))).mono False.elim
      | item x =>
        simp only at h
        cases hq : encSym x t with
        | error f => rw [hq] at h; cases h
        | ok q =>
          have f := encSym_quiet hq
          rw [hq] at h
          cases q with
          | raised e u => cases h; exact (State.QuietIf.trans hg f).cleanUp (u.releaseSource_quiet .ssrc)
          | ok a u => exact (State.QuietIf.trans hg f).trans (ih h)

theorem encClose_quiet (s : State) : s.QuietRes (encClose s) := by
  have h := closeWriter_quiet s
  unfold encClose
  split <;> rename_i t ht <;> rw [ht] at h
  · exact (h.mono fun _ => trivial).cleanUp (t.releaseSource_quiet .ssrc)
  · exact (h.mono (q := False) nofun).cleanUp (t.releaseSource_quiet .ssrc)

theorem encRun_quiet {s : State} {r : Res Reply} (h : procedure .encRun s = .ok r) : s.QuietRes r := by
  simp only [procedure] at h
  split at h
  · cases h; exact .same trivial rfl (.refl s)
  · cases hf : s.env.fails
    · rw [State.acquireSource_ok _ hf] at h
      have ha : s.QuietIf (s.afterDraw.setSource .ssrc { s.source .ssrc with held := true }) True :=
        .one trivial rfl ⟨id, id, id⟩
      have f := openWriter_quiet (s.afterDraw.setSource .ssrc { s.source .ssrc with held := true })
      simp only at h
      split at h <;> rename_i hw <;> rw [hw] at f
      · cases h; exact (ha.trans f).cleanUp (State.releaseSource_quiet _ .ssrc)
      · rename_i u
        unfold encBody at h
        cases hl : encLoop u.ssrc.data.length u with
        | error e => rw [hl] at h; cases h
        | ok q =>
          rw [hl] at h; cases h
          exact (ha.trans f).trans ((encLoop_quiet hl).andThen fun _ t _ => encClose_quiet t)
    · rw [State.acquireSource_fail _ hf] at h
      cases h; exact (State.QuietIf.ofFail hf rfl rfl).mono False.elim

/-! ### The reader and the decoder -/

theorem openReader_quiet (s : State) : s.QuietRes (openReader s) := by
  cases hf : s.env.fails
  · have h1 : ∀ t : State, t.env = s.env.advance.advance → s.Quiet t → s.QuietIf t True := fun t ht hq =>
      ⟨2, by rw [ht]; exact s.env.uses_advance.trans s.env.advance.uses_advance, fun _ => ⟨trivial, hq⟩⟩
    cases hg : s.env.advance.fails
    · cases hd : s.bsrc.data with
      | nil => rw [openReader_empty s hf hg hd]; exact h1 _ rfl ⟨id, id, id⟩
      | cons v vs => rw [openReader_item s hf hg hd]; exact h1 _ rfl ⟨id, id, id⟩
    · rw [openReader_readAhead_fail s hf hg]
      exact ⟨2, s.env.uses_advance.trans s.env.advance.uses_advance, fun hn => by rw [hn.2.1] at hg; cases hg⟩
  · rw [openReader_fail s hf]; exact (State.QuietIf.ofFail hf rfl rfl).mono False.elim

theorem readBit_quiet (s : State) : s.QuietRes (readBit s) := by
  by_cases h : s.br.cnt = 1
  · cases hf : s.env.fails
    · cases hd : s.bsrc.data with
      | nil => rw [readBit_last s h hf hd]; exact .one trivial rfl ⟨id, id, id⟩
      | cons v vs => rw [readBit_item s h hf hd]; exact .one trivial rfl ⟨id, id, id⟩
    · rw [readBit_fail s h hf]; exact (State.QuietIf.ofFail hf rfl rfl).mono False.elim
  · rw [readBit_within s h]; exact .same trivial rfl ⟨id, id, id⟩

theorem startDecode_quiet (s : State) : s.QuietRes (startDecode s) := by
  cases hf : s.env.fails
  · rw [startDecode_ok s hf]; exact .one trivial rfl ⟨id, id, nofun⟩
  · rw [startDecode_fail s hf]; exact (State.QuietIf.ofFail hf rfl rfl).mono False.elim

theorem abortDecode_quiet (s : State) : s.QuietIf (abortDecode s) True := by
  cases ho : s.br.isOpen
  · rw [abortDecode_closed s ho]; exact .same trivial rfl ⟨id, id, id⟩
  · rw [abortDecode_open s ho]; exact .same trivial rfl ⟨id, id, id⟩

theorem emitLeaf_quiet (b : Bool) (w : Word) (s : State) : s.QuietRes (emitLeaf b w s) := by
  cases hf : s.env.fails
  · rw [emitLeaf_ok s b w hf]; exact .one trivial rfl ⟨id, id, id⟩
  · rw [emitLeaf_fail s b w hf]
    exact ((State.QuietIf.ofFail (t := { s with
      ssink := { s.ssink with data := Config.sinkAfterFailure s.env.advance.freeIdx, bad := true }
      env := s.env.afterFailedPut }) hf rfl rfl).cleanUp (abortDecode_quiet _)).mono False.elim

theorem followEdge_quiet {b : Bool} {s : State} {r : Res Reply} (h : followEdge b s = .ok r) : s.QuietRes r := by
  unfold followEdge at h
  split at h
  · cases h
  · split at h
    · split at h
      · cases h
      · split at h <;> cases h
        · exact emitLeaf_quiet _ _ s
        · exact .same trivial rfl ⟨id, id, id⟩
    · cases h
      exact (abortDecode_quiet s).mono fun _ => trivial

theorem decBit_quiet {s : State} {r : Res Reply} (h : decBit s = .ok r) : s.QuietRes r := by
  have f := readBit_quiet s
  unfold decBit at h
  split at h <;> rename_i hb <;> rw [hb] at f
  · cases h; exact f.cleanUp (.same trivial rfl ⟨id, id, id⟩)
  · exact State.QuietIf.trans f (followEdge_quiet h)

theorem endDecode_quiet (s : State) : s.QuietRes (endDecode s) := by
  by_cases h : s.dec.node = s.treeRoot
  · rw [endDecode_root s h]; exact .same trivial rfl ⟨id, id, id⟩
  · rw [endDecode_midCode s h]; exact (abortDecode_quiet s).mono fun _ => trivial

theorem decLoop_quiet {n : Nat} {s : State} {r : Res Unit} (h : decLoop n s = .ok r) : s.QuietRes r := by
  induction n generalizing s with
  | zero => cases h; exact .same trivial rfl (.refl s)
  | succ n ih =>
    rw [decLoop] at h
    split at h
    · cases hq : decBit s with
      | error f => rw [hq] at h; cases h
      | ok q =>
        have f := decBit_quiet hq
        rw [hq] at h
        cases q with
        | raised e t => cases h; exact f
        | ok a t => exact State.QuietIf.trans f (ih h)
    · cases h; exact .same trivial rfl (.refl s)

theorem closeReader_quiet (s : State) : s.QuietIf (closeReader s) True := .same trivial rfl ⟨id, id, id⟩

theorem decRun_quiet {s : State} {r : Res Reply} (h : procedure .decRun s = .ok r) : s.QuietRes r := by
  simp only [procedure] at h
  split at h
  · cases h; exact .same trivial rfl (.refl s)
  · split at h
    · have f := openReader_quiet s
      split at h <;> rename_i ho <;> rw [ho] at f
      · cases h; exact f
      · rename_i t
        have g := startDecode_quiet t
        unfold decBody at h
        split at h <;> rename_i hd <;> rw [hd] at g
        · cases h; exact (State.QuietIf.trans f g).cleanUp (closeReader_quiet _)
        · rename_i u
          cases hl : decLoop u.bitsLeft u with
          | error e => rw [hl] at h; cases h
          | ok q =>
            rw [hl] at h; cases h
            refine (State.QuietIf.trans f g).trans ((decLoop_quiet hl).andThen fun _ v _ => ?_)
            exact (endDecode_quiet v).andThen fun _ w _ => closeReader_quiet w
    · cases h; exact .same trivial rfl (.refl s)

/-- Every command uses up answers in their order, and if none of them is `fail` nothing of `IoFailure` shows. -/
theorem procedure_quiet {i : Instr} {s : State} {r : Res Reply} (h : procedure i s = .ok r) : s.QuietRes r := by
  have same : s.QuietIf s True := .same trivial rfl (.refl s)
  have ok : ∀ {α : Type} {q : Res α} (f : α → Reply), s.QuietRes q → s.QuietRes (q.andThen fun a t => .ok (f a) t) :=
    fun f hq => hq.andThen fun _ t _ => .same trivial rfl (.refl t)
  cases i with
  | nop => cases h; exact same
  | srst => cases h; exact .same trivial rfl ⟨fun h => absurd h (show ¬ (0 : Word).getLsbD 1 = true by decide), id, id⟩
  | bwOpen => cases h; split; exacts [same, ok _ (openWriter_quiet s)]
  | bwWritebit b => cases h; split; exacts [ok _ (writeBit_quiet b s), same]
  | bwClose =>
    cases h; split
    · have f := closeWriter_quiet s
      split <;> rename_i t ht <;> rw [ht] at f
      · exact f.mono fun _ => trivial
      · exact f.mono (q := False) nofun
    · exact same
  | brOpen => cases h; split; exacts [same, ok _ (openReader_quiet s)]
  | brHasnext => cases h; split <;> exact same
  | brReadbit =>
    cases h; split
    · split; exacts [ok _ (readBit_quiet s), same]
    · exact same
  | brClose => cases h; split; exacts [closeReader_quiet s, same]
  | encSym x =>
    simp only [procedure] at h
    split at h
    · cases hq : encSym x s with
      | error f => rw [hq] at h; cases h
      | ok q => rw [hq] at h; cases h; exact ok _ (encSym_quiet hq)
    · cases h; exact same
  | encRun => exact encRun_quiet h
  | decStart => cases h; split; exacts [same, ok _ (startDecode_quiet s)]
  | decBit =>
    simp only [procedure] at h
    split at h
    · cases h; exact same
    · split at h
      · exact decBit_quiet h
      · cases h; exact same
  | decEnd => cases h; split; exacts [ok _ (endDecode_quiet s), same]
  | decRun => exact decRun_quiet h

/-- Only an `IoFailure` sets bit 1 of `ERRLOG` (R40). -/
theorem Failure.notIo.logBit {e : Failure} (h : e.notIo) : (Machine.logBit e.code).getLsbD 1 = false := by
  cases e <;> first | exact h.elim | (simp only [Failure.code, Machine.logBit]; decide)

end Sys2Proof.Machine
end

