-- ==== Sys2Proof/Laws/Faults.lean ====
section
/-! SUPPORT. Where the model stops (R50, log 5): which word a procedure was reading; and the paths of the tree in memory
(R220, R221), along which the decoder reads. -/

namespace Sys2Proof.Machine

/-! ### Reading a word -/

theorem State.ctabAt_congr {s t : State} (h : t.ctab = s.ctab) (x : Symbol) (k : Nat) : t.ctabAt x k = s.ctabAt x k := by
  unfold State.ctabAt; rw [h]

theorem State.treeAt_congr {s t : State} (h : t.tree = s.tree) (n : NodeIdx) : t.treeAt n = s.treeAt n := by
  unfold State.treeAt; rw [h]

theorem readEntry_error {s : State} {x : Symbol} {k : Nat} {f : Fault} (h : s.readEntry x k = .error f) :
    f = .unwrittenCtab x.toNat k ∧ s.ctabAt x k = none := by
  unfold State.readEntry at h
  split at h
  · cases h
  · cases h; exact ⟨rfl, by assumption⟩

theorem readEntry_ok {s : State} {x : Symbol} {k : Nat} {w : Word} (h : s.readEntry x k = .ok w) :
    s.ctabAt x k = some w := by
  unfold State.readEntry at h
  split at h <;> cases h
  assumption

theorem readNode_error {s : State} {n : NodeIdx} {f : Fault} (h : s.readNode n = .error f) :
    f = .unwrittenTree n.toNat ∧ s.treeAt n = none := by
  unfold State.readNode at h
  split at h
  · cases h
  · cases h; exact ⟨rfl, by assumption⟩

theorem readNode_ok {s : State} {n : NodeIdx} {w : Word} (h : s.readNode n = .ok w) : s.treeAt n = some w := by
  unfold State.readNode at h
  split at h <;> cases h
  assumption

/-! ### The encoder -/

/-- Word `k` of the entry of `x` is unwritten, and an encode of `x` reads it: the header, or a word that holds a bit of
the code (R72, R73, R172). -/
def State.MissingCode (s : State) (x : Symbol) (k : Nat) : Prop :=
  s.ctabAt x k = none ∧
    (k = 0 ∨ ∃ h, s.ctabAt x 0 = some h ∧ entryValid h = true ∧ 1 ≤ k ∧ k ≤ (entryLen h + 31) / 32)

theorem State.MissingCode.congr {s t : State} {x : Symbol} {k : Nat} (h : t.MissingCode x k) (e : t.ctab = s.ctab) :
    s.MissingCode x k := by
  simpa only [State.MissingCode, State.ctabAt_congr e] using h

theorem encBits_error {x : Symbol} {i n : Nat} {s : State} {f : Fault} (h : encBits x i n s = .error f) :
    ∃ j, i ≤ j ∧ j < i + n ∧ f = .unwrittenCtab x.toNat (codeBitWord j) ∧ s.ctabAt x (codeBitWord j) = none := by
  induction n generalizing i s with
  | zero => cases h
  | succ n ih =>
    simp only [encBits] at h
    split at h
    · rename_i hb
      cases h
      unfold State.codeBit at hb
      split at hb
      · cases hb
      · rename_i he; cases hb
        exact ⟨i, by omega, by omega, readEntry_error he⟩
    · rename_i b _
      have f := writeBit_frame b s
      split at h
      · cases h
      · rename_i t hb
        obtain ⟨j, h1, h2, h3, h4⟩ := ih h
        rw [hb] at f
        exact ⟨j, by omega, by omega, h3, by rw [← State.ctabAt_congr f.ctab]; exact h4⟩

theorem encSym_error {x : Symbol} {s : State} {f : Fault} (h : encSym x s = .error f) :
    ∃ k, f = .unwrittenCtab x.toNat k ∧ s.MissingCode x k := by
  unfold encSym at h
  split at h
  · rename_i he; cases h
    obtain ⟨h1, h2⟩ := readEntry_error he
    exact ⟨0, h1, h2, .inl rfl⟩
  · rename_i hd he
    split at h
    · rename_i hv
      obtain ⟨j, h1, h2, h3, h4⟩ := encBits_error h
      refine ⟨_, h3, h4, .inr ⟨hd, readEntry_ok he, hv, ?_, ?_⟩⟩ <;> unfold codeBitWord <;> omega
    · cases h

theorem encLoop_error {n : Nat} {s : State} {f : Fault} (h : encLoop n s = .error f) :
    ∃ x k, f = .unwrittenCtab x.toNat k ∧ s.MissingCode x k := by
  induction n generalizing s with
  | zero =>
    have hg := s.getSymbol_frame.1
    rw [encLoop] at h
    split at h <;> rename_i u hu <;> rw [hu] at hg
    · cases h
    · cases h
    · rename_i x
      split at h
      · rename_i hq; cases h
        obtain ⟨k, h1, h2⟩ := encSym_error hq
        exact ⟨x, k, h1, h2.congr hg.ctab⟩
      · cases h
      · cases h
  | succ n ih =>
    have hg := s.getSymbol_frame.1
    rw [encLoop] at h
    split at h <;> rename_i u hu <;> rw [hu] at hg
    · cases h
    · cases h
    · rename_i x
      split at h
      · rename_i hq; cases h
        obtain ⟨k, h1, h2⟩ := encSym_error hq
        exact ⟨x, k, h1, h2.congr hg.ctab⟩
      · cases h
      · rename_i hq
        obtain ⟨x, k, h1, h2⟩ := ih h
        exact ⟨x, k, h1, (h2.congr (encSym_frame hq).1.ctab).congr hg.ctab⟩

theorem encRun_error {s : State} {f : Fault} (h : procedure .encRun s = .error f) :
    ∃ x k, f = .unwrittenCtab x.toNat k ∧ s.MissingCode x k := by
  simp only [procedure] at h
  split at h
  · cases h
  · cases hf : s.env.fails
    · rw [State.acquireSource_ok _ hf] at h
      have f := openWriter_frame (s.afterDraw.setSource .ssrc { s.source .ssrc with held := true })
      simp only at h
      split at h <;> rename_i hw <;> rw [hw] at f
      · cases h
      · unfold encBody at h
        split at h
        · rename_i hq; cases h
          obtain ⟨x, k, h1, h2⟩ := encLoop_error hq
          exact ⟨x, k, h1, h2.congr (s := s) f.ctab⟩
        · cases h
    · rw [State.acquireSource_fail _ hf] at h
      cases h

/-! ### Paths in the tree -/

theorem State.childAt_congr {s t : State} (h : t.tree = s.tree) (n : NodeIdx) (b : Bool) :
    t.childAt n b = s.childAt n b := by
  unfold State.childAt; rw [State.treeAt_congr h]

theorem State.leafAt_congr {s t : State} (h : t.tree = s.tree) (n : NodeIdx) : t.leafAt n = s.leafAt n := by
  unfold State.leafAt; rw [State.treeAt_congr h]

@[simp] theorem State.walk_nil (s : State) (i : NodeIdx) : s.walk i [] = some i := rfl

theorem State.walk_cons (s : State) (i : NodeIdx) (b : Bool) (p : List Bool) :
    s.walk i (b :: p) = (s.childAt i b).bind fun j => s.walk j p := by
  simp only [State.walk]
  cases s.childAt i b <;> rfl

theorem State.walk_append (s : State) (i : NodeIdx) (p q : List Bool) :
    s.walk i (p ++ q) = (s.walk i p).bind fun j => s.walk j q := by
  induction p generalizing i with
  | nil => rfl
  | cons b p ih =>
    rw [List.cons_append, State.walk_cons, State.walk_cons]
    cases s.childAt i b with
    | none => rfl
    | some j => exact ih j

theorem State.walk_congr {s t : State} (h : t.tree = s.tree) (i : NodeIdx) (p : List Bool) :
    t.walk i p = s.walk i p := by
  induction p generalizing i with
  | nil => rfl
  | cons b p ih =>
    rw [State.walk_cons, State.walk_cons, State.childAt_congr h]
    cases s.childAt i b with
    | none => rfl
    | some j => exact ih j

theorem State.reach_root (s : State) : s.Reach s.treeRoot := ⟨[], rfl⟩

theorem State.Reach.child {s : State} {i j : NodeIdx} {b : Bool} (h : s.Reach i) (hc : s.childAt i b = some j) :
    s.Reach j := by
  obtain ⟨p, hp⟩ := h
  refine ⟨p ++ [b], ?_⟩
  rw [State.walk_append, hp]
  simp [State.walk, hc]

theorem State.treeRoot_congr {s t : State} (h : t.cfg = s.cfg) : t.treeRoot = s.treeRoot := by
  unfold State.treeRoot; rw [h]

theorem State.reach_congr {s t : State} (h : t.tree = s.tree) (hc : t.cfg = s.cfg) (i : NodeIdx) :
    t.Reach i ↔ s.Reach i := by
  unfold State.Reach
  simp only [State.walk_congr h, State.treeRoot_congr hc]

/-! ### The decoder -/

theorem followEdge_error {b : Bool} {s : State} {f : Fault} (h : followEdge b s = .error f) :
    ∃ n : NodeIdx, f = .unwrittenTree n.toNat ∧ s.treeAt n = none ∧
      (n = s.dec.node ∨ s.childAt s.dec.node b = some n) := by
  unfold followEdge at h
  split at h
  · rename_i he; cases h
    obtain ⟨h1, h2⟩ := readNode_error he
    exact ⟨_, h1, h2, .inl rfl⟩
  · rename_i w hw
    split at h
    · rename_i hc
      split at h
      · rename_i he; cases h
        obtain ⟨h1, h2⟩ := readNode_error he
        exact ⟨_, h1, h2, .inr (by simp [State.childAt, readNode_ok hw, hc])⟩
      · split at h <;> cases h
    · cases h

theorem decBit_error {s : State} {f : Fault} (h : decBit s = .error f) :
    ∃ n : NodeIdx, f = .unwrittenTree n.toNat ∧ s.treeAt n = none ∧
      (n = s.dec.node ∨ ∃ b, s.childAt s.dec.node b = some n) := by
  have f := readBit_frame s
  unfold decBit at h
  split at h <;> rename_i hb <;> rw [hb] at f
  · cases h
  · rename_i b t
    have ht : t.tree = s.tree := f.1.tree
    have hd : t.dec = s.dec := f.2.1
    obtain ⟨n, h1, h2, h3⟩ := followEdge_error h
    rw [hd, State.childAt_congr ht] at h3
    exact ⟨n, h1, by rw [← State.treeAt_congr ht]; exact h2, h3.imp_right fun h => ⟨b, h⟩⟩

/-- R192: a `DecBit` that returns leaves the pointer at the root, or at a child, no leaf, of the node it stood at. -/
theorem decBit_pointer {s t : State} {a : Reply} (h : decBit s = .ok (.ok a t)) :
    t.dec.node = s.treeRoot ∨
      (∃ b, s.childAt s.dec.node b = some t.dec.node) ∧ ∃ w, s.treeAt t.dec.node = some w ∧ nodeIsLeaf w = false := by
  have f := readBit_frame s
  unfold decBit at h
  split at h <;> rename_i hb <;> rw [hb] at f
  · cases h
  · rename_i b u
    have hu : u.tree = s.tree := f.1.tree
    have hd : u.dec = s.dec := f.2.1
    have hc : u.cfg = s.cfg := f.1.cfg
    unfold followEdge at h
    split at h
    · cases h
    · rename_i w hw
      have hw := readNode_ok hw
      rw [State.treeAt_congr hu, hd] at hw
      split at h
      · rename_i hch
        split at h
        · cases h
        · rename_i w2 hw2
          have hw2 := readNode_ok hw2
          rw [State.treeAt_congr hu] at hw2
          split at h
          · cases hf : u.env.fails
            · rw [emitLeaf_ok _ _ _ hf] at h
              cases h
              exact .inl (State.treeRoot_congr hc)
            · rw [emitLeaf_fail _ _ _ hf] at h; cases h
          · rename_i hl
            cases h
            exact .inr ⟨⟨b, by simp [State.childAt, hw, hch, State.setNode]⟩, w2, hw2, by simpa using hl⟩
      · cases h

theorem decBit_reach {s t : State} {a : Reply} (h : decBit s = .ok (.ok a t)) (hr : s.Reach s.dec.node) :
    s.Reach t.dec.node := by
  rcases decBit_pointer h with h1 | ⟨⟨b, h1⟩, -⟩
  · rw [h1]; exact s.reach_root
  · exact hr.child h1

theorem decLoop_error {n : Nat} {s : State} {f : Fault} (h : decLoop n s = .error f) (hr : s.Reach s.dec.node) :
    ∃ m : NodeIdx, f = .unwrittenTree m.toNat ∧ s.treeAt m = none ∧ s.Reach m := by
  induction n generalizing s with
  | zero => cases h
  | succ n ih =>
    rw [decLoop] at h
    split at h
    · split at h
      · rename_i he; cases h
        obtain ⟨m, h1, h2, h3⟩ := decBit_error he
        refine ⟨m, h1, h2, ?_⟩
        rcases h3 with rfl | ⟨b, h3⟩
        · exact hr
        · exact hr.child h3
      · cases h
      · rename_i a t he
        have ht : t.tree = s.tree := (decBit_frame he).tree
        have hc : t.cfg = s.cfg := (decBit_frame he).cfg
        obtain ⟨m, h1, h2, h3⟩ := ih h ((State.reach_congr ht hc _).2 (decBit_reach he hr))
        exact ⟨m, h1, by rw [← State.treeAt_congr ht]; exact h2, (State.reach_congr ht hc m).1 h3⟩
    · cases h

theorem decRun_error {s : State} {f : Fault} (h : procedure .decRun s = .error f) :
    ∃ m : NodeIdx, f = .unwrittenTree m.toNat ∧ s.treeAt m = none ∧ s.Reach m := by
  simp only [procedure] at h
  split at h
  · cases h
  · split at h
    · have F := (openReader_frame s).1
      split at h <;> rename_i ho <;> rw [ho] at F
      · cases h
      · rename_i t
        have G := (startDecode_frame t).1
        unfold decBody at h
        split at h <;> rename_i hs <;> rw [hs] at G
        · cases h
        · rename_i u
          split at h
          · rename_i he; cases h
            have hr : u.Reach u.dec.node := by
              cases hf : t.env.fails
              · rw [startDecode_ok _ hf] at hs; cases hs; exact ⟨[], rfl⟩
              · rw [startDecode_fail _ hf] at hs; cases hs
            obtain ⟨m, h1, h2, h3⟩ := decLoop_error he hr
            have e1 : u.tree = s.tree := G.tree.trans F.tree
            have e2 : u.cfg = s.cfg := G.cfg.trans F.cfg
            exact ⟨m, h1, by rw [← State.treeAt_congr e1]; exact h2, (State.reach_congr e1 e2 m).1 h3⟩
          · cases h
    · cases h

end Sys2Proof.Machine
end

