-- ==== Sys2Proof/Laws/Decoding.lean ====
section
/-! SUPPORT. The reader as the list of its unread bits (R26, R159), and from it the loop of `DEC.RUN` (R203) as one
equation. -/

namespace Sys2Proof.Machine

/-! ### Reading -/

@[simp] theorem unpackByte_length (v : Byte) : (unpackByte v).length = 8 := by simp [unpackByte]

/-- The bits the reader has still to hand out (R26, R159): the unread ones of `RD_BYTE`, then those of `BSRC`. -/
def State.unread (s : State) : List Bool := (unpackByte s.br.byte).drop (8 - s.br.cnt.toNat) ++ unpack s.bsrc.data

/-- The reader is open; it is empty only if its source is (R152, R153). -/
structure State.Reading (s : State) : Prop where
  isOpen : s.br.isOpen = true
  cntLe : s.br.cnt.toNat ≤ 8
  atEnd : s.br.cnt = 0 → s.bsrc.data = []

theorem unpackByte_drop {v : Byte} {n : BitVec 4} (h0 : 0 < n.toNat) (h : n.toNat ≤ 8) :
    (unpackByte v).drop (8 - n.toNat) = v.getLsbD (n.toNat - 1) :: (unpackByte v).drop (8 - (n.toNat - 1)) := by
  have hk : 8 - n.toNat < (unpackByte v).length := by rw [unpackByte_length]; omega
  rw [List.drop_eq_getElem_cons hk]
  congr 1
  · simp [unpackByte]; congr 1; omega
  · congr 1; omega

/-- R153: the next unread bit is handed out, and it is unread no more. -/
theorem readBit_unread {s : State} (h : s.Reading) (h0 : 0 < s.br.cnt.toNat)
    (hf : s.env.NoFail (if s.br.cnt = 1 then 1 else 0)) :
    ∃ t, readBit s = .ok s.nextBit t ∧ s.unread = s.nextBit :: t.unread ∧ t.Reading ∧
      t.br.total = s.br.total + 1 ∧ t.bsrc.held = s.bsrc.held ∧
      t.env = s.env.advanceN (if s.br.cnt = 1 then 1 else 0) ∧
      t.br.cnt.toNat = (if s.br.cnt = 1 then (if t.br.cnt = 0 then 0 else 8) else s.br.cnt.toNat - 1) ∧
      t = { s with br := t.br, bsrc := t.bsrc, env := t.env } := by
  have hdrop := unpackByte_drop (v := s.br.byte) h0 h.cntLe
  have hcons : s.unread = s.nextBit ::
      ((unpackByte s.br.byte).drop (8 - (s.br.cnt.toNat - 1)) ++ unpack s.bsrc.data) := by
    unfold State.unread; rw [hdrop]; rfl
  by_cases h1 : s.br.cnt = 1
  · rw [if_pos h1] at hf ⊢
    have h8 : (unpackByte s.br.byte).drop (8 - (s.br.cnt.toNat - 1)) = [] := by
      apply List.drop_eq_nil_of_le; rw [h1, unpackByte_length]; decide
    rw [h8] at hcons
    cases hd : s.bsrc.data with
    | nil =>
      refine ⟨_, readBit_last s h1 hf.1 hd, ?_, ⟨h.isOpen, empty_cnt_le, fun _ => hd⟩, rfl, rfl, rfl, ?_, rfl⟩
      · rw [hcons, hd]; simp [State.unread, hd, unpack]
      · rw [if_pos h1, if_pos rfl]; rfl
    | cons v vs =>
      refine ⟨_, readBit_item s h1 hf.1 hd, ?_, ⟨h.isOpen, full_cnt_le, fun hc => absurd (show (8 : BitVec 4) = 0 from hc) (by decide)⟩, rfl, rfl,
        rfl, ?_, rfl⟩
      · rw [hcons, hd]; simp [State.unread, unpack]
      · rw [if_pos h1, if_neg (show ¬ (8 : BitVec 4) = 0 by decide)]; rfl
  · rw [if_neg h1] at hf ⊢
    have hne : s.br.cnt.toNat ≠ 1 := fun hk => h1 (BitVec.eq_of_toNat_eq hk)
    have hle := h.cntLe
    have hsub : (s.br.cnt - 1).toNat = s.br.cnt.toNat - 1 := by
      rw [BitVec.toNat_sub]; simp; omega
    refine ⟨_, readBit_within s h1, ?_, ⟨h.isOpen, by simp only [hsub]; omega, fun hc => ?_⟩, rfl, rfl, rfl, ?_, rfl⟩
    · rw [hcons]; simp only [State.unread, hsub]
    · exfalso
      have := congrArg BitVec.toNat hc
      simp only [hsub] at this
      simp at this; omega
    · rw [if_neg h1]; exact hsub

theorem State.Reading.unread_nil {s : State} (h : s.Reading) : s.unread = [] ↔ s.br.cnt.toNat = 0 := by
  have := h.cntLe
  constructor
  · intro hn
    have := congrArg List.length hn
    simp [State.unread] at this
    omega
  · intro h0
    have hc : s.br.cnt = 0 := BitVec.eq_of_toNat_eq h0
    simp [State.unread, h0, h.atEnd hc, unpack]

theorem State.Reading.length_le {s : State} (h : s.Reading) : s.unread.length = s.bitsLeft := by
  have := h.cntLe
  have hu : ∀ l : List Byte, (unpack l).length = 8 * l.length := by
    intro l; induction l with
    | nil => rfl
    | cons v l ih => simp only [unpack, List.flatMap_cons, List.length_append, unpackByte_length, List.length_cons] at ih ⊢; omega
  simp only [State.unread, State.bitsLeft, List.length_append, List.length_drop, unpackByte_length, hu]; omega

/-! ### Decoding -/

/-- What the decoder makes of a list of bits from a node on (R192): the symbols it emits and the node it ends at, if no
edge is absent and every word is written. -/
def State.decodeBits (s : State) : NodeIdx → List Bool → Option (List Symbol × NodeIdx)
  | i, [] => some ([], i)
  | i, b :: bs =>
    match s.childAt i b with
    | none => none
    | some j =>
      match s.treeAt j with
      | none => none
      | some w =>
        if nodeIsLeaf w then (s.decodeBits s.treeRoot bs).map fun r => (nodeSym w :: r.1, r.2)
        else s.decodeBits j bs

theorem State.decodeBits_congr {s t : State} (h : t.tree = s.tree) (hc : t.cfg = s.cfg) (i : NodeIdx) (bs : List Bool) :
    t.decodeBits i bs = s.decodeBits i bs := by
  induction bs generalizing i with
  | nil => rfl
  | cons b bs ih => simp only [State.decodeBits, State.childAt_congr h, State.treeAt_congr h, State.treeRoot_congr hc, ih]

/-- The number of read-aheads in the next `n` bits, `c` bits of the byte at hand being unread. -/
def refills (c n : Nat) : Nat := if c = 0 then 0 else (n + 8 - c) / 8

/-- The loop of `DEC.RUN` on the bits it may read: `bits`, of which there are `n`; `HasNext()` says no after them. -/
theorem decLoop_eq (bits : List Bool) (s : State) (rest : List Bool) (xs : List Symbol) (j : NodeIdx) (fuel : Nat)
    (h : s.Reading) (hu : s.unread = bits ++ rest) (hd : s.decodeBits s.dec.node bits = some (xs, j))
    (hfuel : bits.length ≤ fuel) (hlim : s.limited = true → s.br.total.toNat + bits.length ≤ s.cfg.rdlimit.toNat)
    (hend : rest = [] ∨ s.limited = true ∧ s.br.total.toNat + bits.length = s.cfg.rdlimit.toNat)
    (hf : s.env.NoFail (xs.length + refills s.br.cnt.toNat bits.length)) :
    ∃ t, decLoop fuel s = .ok (.ok () t) ∧ t.unread = rest ∧ t.Reading ∧
      t.br.total = s.br.total + BitVec.ofNat 64 bits.length ∧ t.dec = { s.dec with node := j } ∧
      t.ssink = { s.ssink with data := s.ssink.data ++ xs } ∧ t.bsrc.held = s.bsrc.held ∧
      t.env = s.env.advanceN (xs.length + refills s.br.cnt.toNat bits.length) ∧
      t = { s with br := t.br, bsrc := t.bsrc, dec := t.dec, ssink := t.ssink, env := t.env } := by
  induction bits generalizing s xs j fuel with
  | nil =>
    cases hd
    have hnext : s.hasNext = false := by
      cases hn : s.hasNext
      · rfl
      · exfalso
        obtain ⟨_, h1, h2⟩ := (hasNext_iff s).1 hn
        rcases hend with hr | ⟨hl, hr⟩
        · rw [hr] at hu
          have := h.unread_nil.1 hu; omega
        · rcases h2 with h2 | h2
          · rw [hl] at h2; cases h2
          · simp at hr; omega
    have hr0 : refills s.br.cnt.toNat 0 = 0 := by unfold refills; split <;> omega
    refine ⟨s, ?_, hu, h, by simp, rfl, by simp, rfl, by simp [hr0], rfl⟩
    cases fuel with
    | zero => rfl
    | succ n => rw [decLoop]; simp [hnext]
  | cons b bits ih =>
    have hc0 : 0 < s.br.cnt.toNat := by
      rcases Nat.eq_zero_or_pos s.br.cnt.toNat with h0 | h0
      · have := h.unread_nil.2 h0; rw [this] at hu; cases hu
      · exact h0
    have htot : s.br.total.toNat < s.cfg.rdlimit.toNat ∨ s.limited = false := by
      cases hl : s.limited
      · exact .inr rfl
      · have := hlim hl; simp at this; left; omega
    have hnext : s.hasNext = true := (hasNext_iff s).2 ⟨h.isOpen, hc0, htot.symm⟩
    cases fuel with
    | zero => simp at hfuel
    | succ fuel =>
      have hcle := h.cntLe
      have hone : s.br.cnt = 1 ↔ s.br.cnt.toNat = 1 := ⟨fun hk => by rw [hk]; rfl, fun hk => BitVec.eq_of_toNat_eq hk⟩
      -- the edge
      simp only [State.decodeBits] at hd
      cases hch : s.childAt s.dec.node b with
      | none => rw [hch] at hd; cases hd
      | some k =>
        rw [hch] at hd
        simp only at hd
        cases hw2 : s.treeAt k with
        | none => rw [hw2] at hd; cases hd
        | some w2 =>
          rw [hw2] at hd
          simp only at hd
          obtain ⟨w, hw, hc, rfl⟩ : ∃ w, s.treeAt s.dec.node = some w ∧ nodeHasChild w b = true ∧ nodeChild w b = k := by
            unfold State.childAt at hch
            split at hch
            · rename_i w hw
              split at hch
              · rename_i hc; cases hch; exact ⟨w, hw, hc, rfl⟩
              · cases hch
            · cases hch
          -- the draws of the first bit and of the rest
          have hr1 : refills s.br.cnt.toNat (b :: bits).length =
              (if s.br.cnt = 1 then 1 else 0) +
                (if s.br.cnt = 1 then bits.length / 8 else refills (s.br.cnt.toNat - 1) bits.length) := by
            simp only [refills, List.length_cons, hone]
            split_ifs <;> omega
          have hfr : s.env.NoFail (if s.br.cnt = 1 then 1 else 0) := hf.le (by rw [hr1]; omega)
          obtain ⟨t, hrb, hun, hrd, htt, hth, hte, htc, htf⟩ := readBit_unread h hc0 hfr
          have hbt : s.nextBit = b ∧ t.unread = bits ++ rest := by
            rw [hu] at hun; simpa using hun.symm
          have hdect : t.dec = s.dec := by rw [htf]
          have htree : t.tree = s.tree := by rw [htf]
          have hcfg : t.cfg = s.cfg := by rw [htf]
          have hss : t.ssink = s.ssink := by rw [htf]
          have hlimt : t.limited = s.limited := by unfold State.limited; rw [hcfg]
          -- refills left
          have hr2 : (if s.br.cnt = 1 then bits.length / 8 else refills (s.br.cnt.toNat - 1) bits.length) =
              refills t.br.cnt.toNat bits.length := by
            by_cases h1 : s.br.cnt = 1
            · rw [if_pos h1] at htc ⊢
              by_cases h0 : t.br.cnt = 0
              · rw [if_pos h0] at htc
                have hn := hrd.unread_nil.2 htc
                rw [hbt.2] at hn
                have hb0 : bits = [] := (List.append_eq_nil_iff.1 hn).1
                simp [hb0, refills, htc]
              · rw [if_neg h0] at htc
                simp [refills, htc]
            · rw [if_neg h1] at htc ⊢; rw [htc]
          have htn : s.limited = true → t.br.total.toNat = s.br.total.toNat + 1 := by
            intro hl
            have := hlim hl
            have := s.cfg.rdlimit.isLt
            rw [htt, BitVec.toNat_add]
            simp at *
            omega
          have hlen : (b :: bits).length = bits.length + 1 := rfl
          rw [decLoop, if_pos hnext, decBit, hrb, hbt.1]
          simp only
          rw [hr1, hr2] at hf ⊢
          cases hleaf : nodeIsLeaf w2
          · rw [hleaf] at hd
            simp only [Bool.false_eq_true, if_false] at hd
            rw [followEdge_internal t (by rw [State.treeAt_congr htree, hdect]; exact hw) hc
              (by rw [State.treeAt_congr htree]; exact hw2) hleaf]
            simp only
            have hfa : ∀ a n m : Nat, a + (n + m) = n + (a + m) := by omega
            rw [hfa, Environment.noFail_add] at hf
            obtain ⟨u, k1, k2, k3, k4, k5, k6, k7, k8, k9⟩ := ih
              { t with dec := { t.dec with node := nodeChild w b } } xs j fuel ⟨hrd.isOpen, hrd.cntLe, hrd.atEnd⟩ hbt.2
              ((State.decodeBits_congr (s := s) (by exact htree) (by exact hcfg) _ _).trans hd) (by simp at hfuel ⊢; omega)
              (fun hl => by
                have h1 := htn (hlimt ▸ hl); have h2 := hlim (hlimt ▸ hl)
                simp only [hcfg, h1]; rw [hlen] at h2; omega)
              (hend.imp_right fun ⟨hl, hr⟩ => ⟨by rw [← hlimt] at hl; exact hl, by
                have h1 := htn hl
                simp only [hcfg, h1]; rw [hlen] at hr; omega⟩)
              (by simp only [hte]; exact hf.2)
            refine ⟨u, k1, k2, k3, ?_, ?_, ?_, ?_, ?_, ?_⟩
            · rw [k4]; simp only [htt]; rw [hlen, Nat.add_comm bits.length 1, BitVec.ofNat_add, BitVec.add_assoc]; rfl
            · rw [k5]; simp only [hdect]
            · rw [k6]; simp only [hss]
            · rw [k7]; exact hth
            · rw [k8, hfa, Environment.advanceN_add _ (xs.length + _)]; simp only [hte]
            · rw [k9, htf]
          · rw [hleaf] at hd
            simp only [if_true] at hd
            cases hrec : s.decodeBits s.treeRoot bits with
            | none => rw [hrec] at hd; cases hd
            | some r =>
              rw [hrec] at hd
              cases hd
              have hfa : ∀ n m, (nodeSym w2 :: r.1).length + (n + m) = n + (1 + (r.1.length + m)) := by
                intro n m; simp; omega
              rw [hfa, Environment.noFail_add, Environment.noFail_add] at hf
              have hft : t.env.fails = false := by rw [hte]; exact hf.2.1.1
              rw [followEdge_leaf t (by rw [State.treeAt_congr htree, hdect]; exact hw) hc
                (by rw [State.treeAt_congr htree]; exact hw2) hleaf, emitLeaf_ok t _ _ hft]
              simp only
              have hroot : t.treeRoot = s.treeRoot := State.treeRoot_congr hcfg
              obtain ⟨u, k1, k2, k3, k4, k5, k6, k7, k8, k9⟩ := ih
                { t with
                  dec := { t.dec with node := t.treeRoot }
                  ssink := { t.ssink with data := t.ssink.data ++ [nodeSym w2] }
                  env := t.env.advance } r.1 r.2 fuel ⟨hrd.isOpen, hrd.cntLe, hrd.atEnd⟩ hbt.2
                ((State.decodeBits_congr (s := s) (by exact htree) (by exact hcfg) _ _).trans (by simp only [hroot]; exact hrec)) (by simp at hfuel ⊢; omega)
                (fun hl => by
                  have h1 := htn (hlimt ▸ hl); have h2 := hlim (hlimt ▸ hl)
                  simp only [hcfg, h1]; rw [hlen] at h2; omega)
                (hend.imp_right fun ⟨hl, hr⟩ => ⟨by rw [← hlimt] at hl; exact hl, by
                  have h1 := htn hl
                  simp only [hcfg, h1]; rw [hlen] at hr; omega⟩)
                (by simp only [hte]; exact hf.2.2)
              refine ⟨u, k1, k2, k3, ?_, ?_, ?_, ?_, ?_, ?_⟩
              · rw [k4]; simp only [htt]; rw [hlen, Nat.add_comm bits.length 1, BitVec.ofNat_add, BitVec.add_assoc]; rfl
              · rw [k5]; simp only [hdect]
              · rw [k6]; simp only [hss]; simp
              · rw [k7]; exact hth
              · have eenv : ∀ (a m : Nat) (e : Environment),
                    Environment.advanceN (a + (1 + m)) e = Environment.advanceN m (Environment.advanceN a e).advance := by
                  intro a m e; rw [Environment.advanceN_add, Nat.add_comm 1, Environment.advanceN_succ]
                rw [k8, hfa, eenv]; simp only [hte]
              · rw [k9, htf]

end Sys2Proof.Machine
end

