-- ==== Sys2Proof/Laws/Memory.lean ====
section
/-! SUPPORT. The laws of the memories: a read after a write, the canonical form, and that equal contents are equal
data. -/

namespace Sys2Proof.Machine

@[simp] theorem Mem.read_nil (a : Nat) : Mem.read [] a = none := rfl

theorem Mem.read_cons (c : Nat × Word) (m : Mem) (a : Nat) :
    Mem.read (c :: m) a = if a = c.1 then some c.2 else Mem.read m a := rfl

/-- A read after a write to the same index gives the value written. -/
@[simp] theorem Mem.read_write_same (m : Mem) (a : Nat) (v : Word) : Mem.read (Mem.write m a v) a = some v := by
  induction m with
  | nil => simp [Mem.write, Mem.read]
  | cons c m ih =>
    obtain ⟨b, w⟩ := c
    simp only [Mem.write]
    split_ifs with h1 h2
    · simp [Mem.read]
    · simp [Mem.read]
    · simp [Mem.read, h2, ih]

/-- A write leaves every other index alone. -/
theorem Mem.read_write_other (m : Mem) {a b : Nat} (v : Word) (h : b ≠ a) :
    Mem.read (Mem.write m a v) b = Mem.read m b := by
  induction m with
  | nil => simp [Mem.write, Mem.read, h]
  | cons c m ih =>
    obtain ⟨d, w⟩ := c
    simp only [Mem.write]
    split_ifs with h1 h2
    · simp [Mem.read, h]
    · subst h2; simp [Mem.read, h]
    · simp only [Mem.read_cons, ih]

theorem Mem.mem_write {m : Mem} {a : Nat} {v : Word} {c : Nat × Word} (h : c ∈ Mem.write m a v) :
    c = (a, v) ∨ c ∈ m := by
  induction m with
  | nil => simpa [Mem.write] using h
  | cons d m ih =>
    obtain ⟨b, w⟩ := d
    simp only [Mem.write] at h
    split_ifs at h with h1 h2
    · simpa using h
    · rcases List.mem_cons.1 h with h | h
      · exact .inl h
      · exact .inr (List.mem_cons_of_mem _ h)
    · rcases List.mem_cons.1 h with h | h
      · exact .inr (h ▸ List.mem_cons_self ..)
      · exact (ih h).imp_right (List.mem_cons_of_mem _)

/-- A write keeps the indices strictly rising. -/
theorem Mem.write_rising {m : Mem} (a : Nat) (v : Word) (h : Mem.rising m) : Mem.rising (Mem.write m a v) := by
  induction m with
  | nil => simp [Mem.write, Mem.rising]
  | cons d m ih =>
    obtain ⟨b, w⟩ := d
    have hm := List.pairwise_cons.1 h
    simp only [Mem.write]
    split_ifs with h1 h2
    · refine List.pairwise_cons.2 ⟨?_, h⟩
      intro c hc
      rcases List.mem_cons.1 hc with rfl | hc
      · exact h1
      · exact lt_trans h1 (hm.1 c hc)
    · subst h2; exact List.pairwise_cons.2 ⟨hm.1, hm.2⟩
    · refine List.pairwise_cons.2 ⟨?_, ih hm.2⟩
      intro c hc
      rcases Mem.mem_write hc with rfl | hc
      · simp only; omega
      · exact hm.1 c hc

/-- A write to an index of `TREE` keeps the canonical form. -/
theorem Mem.write_treeWf {m : Mem} {a : Nat} (v : Word) (ha : a < 512) (h : Mem.treeWf m) :
    Mem.treeWf (Mem.write m a v) := by
  refine ⟨Mem.write_rising a v h.1, fun c hc => ?_⟩
  rcases Mem.mem_write hc with rfl | hc
  · exact ha
  · exact h.2 c hc

/-- A write to a word of `CTAB` that exists keeps the canonical form. -/
theorem Mem.write_ctabWf {m : Mem} {a : Nat} (v : Word) (ha : a < 4096) (hk : a % 16 ≤ 8) (h : Mem.ctabWf m) :
    Mem.ctabWf (Mem.write m a v) := by
  refine ⟨Mem.write_rising a v h.1, fun c hc => ?_⟩
  rcases Mem.mem_write hc with rfl | hc
  · exact ⟨ha, hk⟩
  · exact h.2 c hc

/-- An index below every listed one reads as unwritten. -/
theorem Mem.read_below {m : Mem} {a : Nat} (h : ∀ c ∈ m, a < c.1) : Mem.read m a = none := by
  induction m with
  | nil => rfl
  | cons c m ih =>
    have := h c (List.mem_cons_self ..)
    rw [Mem.read_cons, if_neg (by omega), ih fun d hd => h d (List.mem_cons_of_mem _ hd)]

/-- In the canonical form equal contents are equal data. -/
theorem Mem.ext_read {m n : Mem} (hm : Mem.rising m) (hn : Mem.rising n)
    (h : ∀ a, Mem.read m a = Mem.read n a) : m = n := by
  induction m generalizing n with
  | nil =>
    cases n with
    | nil => rfl
    | cons d n => simpa [Mem.read_cons] using h d.1
  | cons c m ih =>
    cases n with
    | nil => simpa [Mem.read_cons] using h c.1
    | cons d n =>
      have hm' := List.pairwise_cons.1 hm
      have hn' := List.pairwise_cons.1 hn
      have key : c.1 = d.1 := by
        rcases lt_trichotomy c.1 d.1 with hlt | heq | hlt
        · have := h c.1
          rw [Mem.read_cons, if_pos rfl, Mem.read_below] at this
          · cases this
          · intro e he
            rcases List.mem_cons.1 he with rfl | he
            · exact hlt
            · exact lt_trans hlt (hn'.1 e he)
        · exact heq
        · have := h d.1
          rw [Mem.read_cons d, if_pos rfl, Mem.read_below] at this
          · cases this
          · intro e he
            rcases List.mem_cons.1 he with rfl | he
            · exact hlt
            · exact lt_trans hlt (hm'.1 e he)
      have hv : c.2 = d.2 := by
        have := h c.1
        rw [Mem.read_cons, if_pos rfl, Mem.read_cons, if_pos key] at this
        exact Option.some.inj this
      have hcd : c = d := Prod.ext key hv
      subst hcd
      congr 1
      refine ih hm'.2 hn'.2 fun a => ?_
      have := h a
      rw [Mem.read_cons, Mem.read_cons] at this
      by_cases ha : a = c.1
      · subst ha
        rw [Mem.read_below hm'.1, Mem.read_below hn'.1]
      · simpa [ha] using this

end Sys2Proof.Machine
end

