-- ==== Sys2Proof/Laws/PerInstr.lean ====
section
/-! SUPPORT. A statement made for every command, one lemma per constructor. -/

/-- The word the encoder writes for a command is legal (R103), whatever its operand. -/
def Sys2Proof.Laws.EncodeLegal.Statement (i : Sys2Proof.Instr) : Prop :=
  Sys2Proof.legalWord (Sys2Proof.encode i) = true

namespace Sys2Proof.Laws.EncodeLegal

theorem nop : Statement .nop := by unfold Statement; decide

theorem srst : Statement .srst := by unfold Statement; decide

theorem bwOpen : Statement .bwOpen := by unfold Statement; decide

theorem bwWritebit (b : Bool) : Statement (.bwWritebit b) := by unfold Statement; cases b <;> decide

theorem bwClose : Statement .bwClose := by unfold Statement; decide

theorem brOpen : Statement .brOpen := by unfold Statement; decide

theorem brHasnext : Statement .brHasnext := by unfold Statement; decide

theorem brReadbit : Statement .brReadbit := by unfold Statement; decide

theorem brClose : Statement .brClose := by unfold Statement; decide

theorem encSym (s : Symbol) : Statement (.encSym s) := by unfold Statement; revert s; decide

theorem encRun : Statement .encRun := by unfold Statement; decide

theorem decStart : Statement .decStart := by unfold Statement; decide

theorem decBit : Statement .decBit := by unfold Statement; decide

theorem decEnd : Statement .decEnd := by unfold Statement; decide

theorem decRun : Statement .decRun := by unfold Statement; decide

end Sys2Proof.Laws.EncodeLegal
end

