-- ==== Sys2Proof/Laws/Reads.lean ====
section
/-! SUPPORT. The words a command reads (R172, R192): where they are written its procedure does not stop (R50, log 5), and
what R282 and R283 ask the host to write is enough for that. -/

namespace Sys2Proof.Machine

theorem State.holds_congr {s t : State} (ht : t.tree = s.tree) (hc : t.ctab = s.ctab) (l : Loc) :
    t.holds l = s.holds l := by
  cases l <;> simp only [State.holds, ht, hc]

/-- All of these words are written. -/
def State.allHeld (s : State) (ls : List Loc) : Prop := ∀ l ∈ ls, s.holds l = true

theorem State.writtenFor_iff (s : State) (i : Instr) : s.writtenFor i = true ↔ s.allHeld (readsOf i s) := by
  simp [State.writtenFor, State.allHeld]

theorem State.allHeld_append (s : State) (l m : List Loc) : s.allHeld (l ++ m) ↔ s.allHeld l ∧ s.allHeld m := by
  simp only [State.allHeld, List.mem_append]
  exact ⟨fun h => ⟨fun x hx => h x (.inl hx), fun x hx => h x (.inr hx)⟩, fun h x hx => hx.elim (h.1 x) (h.2 x)⟩

theorem State.allHeld_congr {s t : State} (ht : t.tree = s.tree) (hc : t.ctab = s.ctab) (ls : List Loc) :
    t.allHeld ls ↔ s.allHeld ls := by
  simp only [State.allHeld, State.holds_congr ht hc]

/-! ### The encoder -/

/-- What an encode of a symbol may miss is a word it reads (R172). -/
theorem State.MissingCode.mem {s : State} {x : Symbol} {k : Nat} (h : s.MissingCode x k) :
    .ctab (ctabOffset x k) ∈ s.entryReads x := by
  obtain ⟨-, rfl | ⟨w, hw, hv, h1, h2⟩⟩ := h
  · exact List.mem_cons_self
  · unfold State.entryReads
    rw [hw]
    simp only [hv, if_true]
    exact List.mem_cons_of_mem _ (List.mem_map.2 ⟨k - 1, by rw [List.mem_range]; omega, by rw [Nat.sub_add_cancel h1]⟩)

theorem State.MissingCode.not_held {s : State} {x : Symbol} {k : Nat} (h : s.MissingCode x k)
    (hh : s.allHeld (s.entryReads x)) : False := by
  have := hh _ h.mem
  have h1 := h.1
  unfold State.ctabAt at h1
  simp [State.holds, h1] at this

theorem encSym_held {x : Symbol} {s : State} (h : s.allHeld (s.entryReads x)) : ∃ r, encSym x s = .ok r := by
  cases he : encSym x s with
  | ok r => exact ⟨r, rfl⟩
  | error f =>
    obtain ⟨k, -, hm⟩ := encSym_error he
    exact (hm.not_held h).elim

theorem encLoop_held {n : Nat} {s : State} (h : s.allHeld (encReads n s)) : ∃ r, encLoop n s = .ok r := by
  induction n generalizing s with
  | zero =>
    have hg := s.getSymbol_frame.1
    rw [encReads] at h
    rw [encLoop]
    cases hs : s.get .ssrc with
    | mk g t =>
      rw [hs] at hg h
      cases g with
      | eof => exact ⟨_, rfl⟩
      | fail => exact ⟨_, rfl⟩
      | item x =>
        rw [State.allHeld_append, ← State.allHeld_congr hg.tree hg.ctab] at h
        obtain ⟨r, hr⟩ := encSym_held h.1
        simp only [hr]
        cases r <;> exact ⟨_, rfl⟩
  | succ n ih =>
    have hg := s.getSymbol_frame.1
    rw [encReads] at h
    rw [encLoop]
    cases hs : s.get .ssrc with
    | mk g t =>
      rw [hs] at hg h
      cases g with
      | eof => exact ⟨_, rfl⟩
      | fail => exact ⟨_, rfl⟩
      | item x =>
        rw [State.allHeld_append, ← State.allHeld_congr hg.tree hg.ctab] at h
        obtain ⟨r, hr⟩ := encSym_held h.1
        rw [hr] at h
        simp only [hr]
        cases r with
        | raised e u => exact ⟨_, rfl⟩
        | ok a u =>
          have f := (encSym_frame hr).1
          exact ih ((State.allHeld_congr (f.tree.trans hg.tree) (f.ctab.trans hg.ctab) _).2 h.2)

theorem encRun_held {s : State} (h : s.allHeld s.encRunReads) : ∃ r, procedure .encRun s = .ok r := by
  unfold State.encRunReads at h
  simp only [procedure]
  split
  · exact ⟨_, rfl⟩
  · rename_i ho
    rw [if_neg ho] at h
    cases hf : s.env.fails
    · rw [State.acquireSource_ok _ hf] at h ⊢
      have f := openWriter_frame (s.afterDraw.setSource .ssrc { s.source .ssrc with held := true })
      simp only at h ⊢
      split <;> rename_i hw <;> rw [hw] at f h
      · exact ⟨_, rfl⟩
      · unfold encBody
        obtain ⟨r, hr⟩ := encLoop_held ((State.allHeld_congr (s := s) f.tree f.ctab _).2 h)
        simp only [Res.state_ok] at hr
        rw [hr]; exact ⟨_, rfl⟩
    · rw [State.acquireSource_fail _ hf]; exact ⟨_, rfl⟩

/-! ### The decoder -/

theorem followEdge_held {b : Bool} {s : State} (h : s.allHeld (s.edgeReads b)) : ∃ r, followEdge b s = .ok r := by
  cases he : followEdge b s with
  | ok r => exact ⟨r, rfl⟩
  | error f =>
    obtain ⟨n, -, hn, hm⟩ := followEdge_error he
    have : s.holds (.tree n.toNat) = true := by
      refine h _ ?_
      unfold State.edgeReads
      rcases hm with rfl | hm
      · exact List.mem_cons_self
      · rw [hm]; exact List.mem_cons_of_mem _ List.mem_cons_self
    unfold State.treeAt at hn
    simp [State.holds, hn] at this

theorem decBit_held {s : State} (h : s.allHeld s.bitReads) : ∃ r, decBit s = .ok r := by
  have f := readBit_frame s
  unfold State.bitReads at h
  unfold decBit
  split <;> rename_i hb <;> rw [hb] at f h
  · exact ⟨_, rfl⟩
  · exact followEdge_held ((State.allHeld_congr (s := s) f.1.tree f.1.ctab _).2 h)

theorem decLoop_held {n : Nat} {s : State} (h : s.allHeld (decReads n s)) : ∃ r, decLoop n s = .ok r := by
  induction n generalizing s with
  | zero => exact ⟨_, rfl⟩
  | succ n ih =>
    rw [decReads] at h
    rw [decLoop]
    split
    · rename_i hn
      rw [if_pos hn, State.allHeld_append] at h
      obtain ⟨r, hr⟩ := decBit_held h.1
      rw [hr] at h ⊢
      cases r with
      | raised e u => exact ⟨_, rfl⟩
      | ok a u => exact ih ((State.allHeld_congr (decBit_frame hr).tree (decBit_frame hr).ctab _).2 h.2)
    · exact ⟨_, rfl⟩

theorem decRun_held {s : State} (h : s.allHeld s.decRunReads) : ∃ r, procedure .decRun s = .ok r := by
  unfold State.decRunReads at h
  simp only [procedure]
  split
  · exact ⟨_, rfl⟩
  · rename_i ho
    rw [if_neg ho] at h
    split
    · rename_i hp
      rw [if_pos hp] at h
      have F := (openReader_frame s).1
      split <;> rename_i hr <;> rw [hr] at F h
      · exact ⟨_, rfl⟩
      · rename_i t
        have G := (startDecode_frame t).1
        unfold decBody
        simp only at h
        split <;> rename_i hd <;> rw [hd] at G h
        · exact ⟨_, rfl⟩
        · have e1 := G.tree.trans F.tree
          have e2 := G.ctab.trans F.ctab
          obtain ⟨r, hr⟩ := decLoop_held ((State.allHeld_congr (s := s) e1 e2 _).2 h)
          simp only [Res.state_ok] at hr
          rw [hr]; exact ⟨_, rfl⟩
    · exact ⟨_, rfl⟩

/-! ### What R282 and R283 ask the host to write is enough -/

theorem State.TableWritten.entryReads {s : State} (h : s.TableWritten) (x : Symbol) : s.allHeld (s.entryReads x) := by
  obtain ⟨w, hw, hk⟩ := h x
  have h0 : ∀ k, (s.ctabAt x k).isSome = true → s.holds (.ctab (ctabOffset x k)) = true := fun k hk => hk
  intro l hl
  unfold State.entryReads at hl
  rw [hw] at hl
  rcases List.mem_cons.1 hl with rfl | hl
  · exact h0 0 (by rw [hw]; rfl)
  · split at hl
    · rename_i heq
      cases heq
      split at hl
      · rename_i hv
        obtain ⟨k, hkr, rfl⟩ := List.mem_map.1 hl
        rw [List.mem_range] at hkr
        exact h0 _ (hk hv (k + 1) (by omega) (by omega))
      · cases hl
    · cases hl

theorem State.TableWritten.congr {s t : State} (h : s.TableWritten) (hc : t.ctab = s.ctab) : t.TableWritten := by
  unfold State.TableWritten
  simp only [State.ctabAt_congr hc]
  exact h

theorem State.TableWritten.encReads {n : Nat} {s : State} (h : s.TableWritten) : s.allHeld (Machine.encReads n s) := by
  have nil : ∀ t : State, t.allHeld [] := fun _ => nofun
  induction n generalizing s with
  | zero =>
    have hg := s.getSymbol_frame.1
    rw [Machine.encReads]
    split <;> rename_i t ht <;> rw [ht] at hg
    · exact nil s
    · exact nil s
    · rename_i x
      refine (s.allHeld_append _ _).2 ⟨(State.allHeld_congr hg.tree hg.ctab _).1 ((h.congr hg.ctab).entryReads x), ?_⟩
      split <;> exact nil s
  | succ n ih =>
    have hg := s.getSymbol_frame.1
    rw [Machine.encReads]
    split <;> rename_i t ht <;> rw [ht] at hg
    · exact nil s
    · exact nil s
    · rename_i x
      refine (s.allHeld_append _ _).2 ⟨(State.allHeld_congr hg.tree hg.ctab _).1 ((h.congr hg.ctab).entryReads x), ?_⟩
      split
      · exact nil s
      · exact nil s
      · rename_i u hu
        have f := (encSym_frame hu).1
        have e1 : u.tree = s.tree := f.tree.trans hg.tree
        have e2 : u.ctab = s.ctab := f.ctab.trans hg.ctab
        exact (State.allHeld_congr e1 e2 _).1 (ih (h.congr e2))

theorem State.TreeWritten.held {s : State} (h : s.TreeWritten) {n : NodeIdx} (hr : s.Reach n) :
    s.holds (.tree n.toNat) = true := h n hr

theorem State.TreeWritten.congr {s t : State} (h : s.TreeWritten) (ht : t.tree = s.tree) (hc : t.cfg = s.cfg) :
    t.TreeWritten := by
  unfold State.TreeWritten
  simp only [State.reach_congr ht hc, State.treeAt_congr ht]
  exact h

theorem State.TreeWritten.edgeReads {s : State} (h : s.TreeWritten) (hr : s.Reach s.dec.node) (b : Bool) :
    s.allHeld (s.edgeReads b) := by
  intro l hl
  unfold State.edgeReads at hl
  rcases List.mem_cons.1 hl with rfl | hl
  · exact h.held hr
  · split at hl
    · rename_i n hn
      rcases List.mem_cons.1 hl with rfl | hl
      · exact h.held (hr.child hn)
      · cases hl
    · cases hl

theorem State.TreeWritten.bitReads {s : State} (h : s.TreeWritten) (hr : s.Reach s.dec.node) : s.allHeld s.bitReads := by
  have f := readBit_frame s
  unfold State.bitReads
  split <;> rename_i hb <;> rw [hb] at f
  · exact nofun
  · rename_i b t
    have hd : t.dec = s.dec := f.2.1
    have hr' : t.Reach t.dec.node := by rw [hd]; exact (State.reach_congr f.1.tree f.1.cfg _).2 hr
    exact (State.allHeld_congr (s := s) f.1.tree f.1.ctab _).1 ((h.congr f.1.tree f.1.cfg).edgeReads hr' b)

theorem State.TreeWritten.decReads {n : Nat} {s : State} (h : s.TreeWritten) (hr : s.Reach s.dec.node) :
    s.allHeld (Machine.decReads n s) := by
  have nil : ∀ t : State, t.allHeld [] := fun _ => nofun
  induction n generalizing s with
  | zero => exact nil s
  | succ n ih =>
    rw [Machine.decReads]
    split
    · refine (s.allHeld_append _ _).2 ⟨h.bitReads hr, ?_⟩
      split
      · exact nil s
      · exact nil s
      · rename_i a t hb
        have f := decBit_frame hb
        have e1 : t.tree = s.tree := f.tree
        have e2 : t.cfg = s.cfg := f.cfg
        exact (State.allHeld_congr f.tree f.ctab _).1
          (ih (h.congr f.tree f.cfg) ((State.reach_congr e1 e2 _).2 (decBit_reach hb hr)))
    · exact nil s

theorem State.TableWritten.encRunReads {s : State} (h : s.TableWritten) : s.allHeld s.encRunReads := by
  have nil : s.allHeld [] := nofun
  unfold State.encRunReads
  split
  · exact nil
  · cases hf : s.env.fails
    · rw [State.acquireSource_ok _ hf]
      have f := openWriter_frame (s.afterDraw.setSource .ssrc { s.source .ssrc with held := true })
      simp only
      split <;> rename_i hw <;> rw [hw] at f
      · exact nil
      · exact (State.allHeld_congr (s := s) f.tree f.ctab _).1 (State.TableWritten.encReads (h.congr f.ctab))
    · rw [State.acquireSource_fail _ hf]; exact nil

theorem State.TreeWritten.decRunReads {s : State} (h : s.TreeWritten) : s.allHeld s.decRunReads := by
  have nil : s.allHeld [] := nofun
  unfold State.decRunReads
  split
  · exact nil
  · split
    · have F := (openReader_frame s).1
      split <;> rename_i hr <;> rw [hr] at F
      · exact nil
      · rename_i t
        have G := (startDecode_frame t).1
        split <;> rename_i hd <;> rw [hd] at G
        · exact nil
        · rename_i u
          have e1 : u.tree = s.tree := G.tree.trans F.tree
          have e2 : u.ctab = s.ctab := G.ctab.trans F.ctab
          have e3 : u.cfg = s.cfg := G.cfg.trans F.cfg
          have hn : u.dec.node = u.treeRoot := by
            cases hf : t.env.fails
            · rw [startDecode_ok _ hf] at hd; cases hd; rfl
            · rw [startDecode_fail _ hf] at hd; cases hd
          exact (State.allHeld_congr e1 e2 _).1
            (State.TreeWritten.decReads (h.congr e1 e3) (by rw [hn]; exact u.reach_root))
    · exact nil

end Sys2Proof.Machine
end

