-- ==== Sys2Proof/Laws/Results.lean ====
section
/-! SUPPORT. The bits of the result registers (R38 to R40): what each field of the words that a command's end records
holds. -/

namespace Sys2Proof.Machine

/-- Every bit of `RESULT` (R38). -/
theorem resultWord_getLsbD (opc : BitVec 8) (sym : Symbol) (e v : Bool) (c : BitVec 4) (i : Nat) :
    (resultWord opc sym e v c).getLsbD i =
      if i < 4 then c.getLsbD i else if i < 8 then false else if i = 8 then v else if i = 9 then e
      else if i < 16 then false else if i < 24 then sym.getLsbD (i - 16) else opc.getLsbD (i - 24) := by
  unfold resultWord
  rw [BitVec.getLsbD_append, BitVec.getLsbD_append, BitVec.getLsbD_append, BitVec.getLsbD_append,
    BitVec.getLsbD_append, BitVec.getLsbD_append]
  by_cases h0 : i < 4
  · simp [h0]
  by_cases h1 : i < 8
  · simp [h0, h1]; intro h; omega
  by_cases h2 : i = 8
  · subst h2; simp
  by_cases h3 : i = 9
  · subst h3; simp
  by_cases h4 : i < 16
  · simp [h0, h1, h2, h3, h4, show ¬ i - 4 < 4 by omega, show ¬ i - 4 - 4 < 1 by omega,
      show ¬ i - 4 - 4 - 1 < 1 by omega, show i - 4 - 4 - 1 - 1 < 6 by omega]
  · have e1 : i - 4 - 4 - 1 - 1 - 6 = i - 16 := by omega
    have e2 : i - 16 - 8 = i - 24 := by omega
    simp only [h0, h1, h2, h3, h4, show ¬ i - 4 < 4 by omega, show ¬ i - 4 - 4 < 1 by omega,
      show ¬ i - 4 - 4 - 1 < 1 by omega, show ¬ i - 4 - 4 - 1 - 1 < 6 by omega, if_false, e1, e2]
    by_cases h5 : i < 24
    · rw [if_pos (by omega), if_pos h5]
    · rw [if_neg (by omega), if_neg h5]

/-- Every field of `RESULT` (R38); its reserved bits are 0. -/
theorem resultWord_fields (opc : BitVec 8) (sym : Symbol) (e v : Bool) (c : BitVec 4) :
    (resultWord opc sym e v c).extractLsb' 0 4 = c ∧ (resultWord opc sym e v c).extractLsb' 24 8 = opc ∧
      (resultWord opc sym e v c).extractLsb' 16 8 = sym ∧ (resultWord opc sym e v c).getLsbD 8 = v ∧
      (resultWord opc sym e v c).getLsbD 9 = e ∧ resultWord opc sym e v c &&& 0x0000FCF0 = 0 := by
  refine ⟨?_, ?_, ?_, ?_, ?_, ?_⟩
  · apply BitVec.eq_of_getLsbD_eq; intro i hi
    rw [BitVec.getLsbD_extractLsb', resultWord_getLsbD]; simp [hi]
  · apply BitVec.eq_of_getLsbD_eq; intro i hi
    rw [BitVec.getLsbD_extractLsb', resultWord_getLsbD]
    simp [hi, show ¬ 24 + i < 4 by omega, show ¬ 24 + i < 8 by omega, show ¬ 24 + i = 8 by omega,
      show ¬ 24 + i = 9 by omega, show ¬ 24 + i < 24 by omega, show ¬ 24 + i < 16 by omega]
  · apply BitVec.eq_of_getLsbD_eq; intro i hi
    rw [BitVec.getLsbD_extractLsb', resultWord_getLsbD]
    simp [hi, show ¬ 16 + i < 4 by omega, show ¬ 16 + i < 8 by omega, show ¬ 16 + i = 8 by omega,
      show ¬ 16 + i = 9 by omega, show 16 + i < 24 by omega]
  · rw [resultWord_getLsbD]; simp
  · rw [resultWord_getLsbD]; simp
  · apply BitVec.eq_of_getLsbD_eq; intro i hi
    rw [BitVec.getLsbD_and, resultWord_getLsbD]
    interval_cases i <;> simp

/-- The codes of failures are 1 to 6 (R250). -/
theorem Failure.code_range (e : Failure) : e.code ≠ 0 ∧ e.code.toNat ≤ 6 := by
  cases e <;> simp only [Failure.code] <;> decide

/-- The reserved bits of `ERRINFO` are 0 (R39). -/
theorem Failure.info_reserved (e : Failure) : e.info &&& 0xFF800000 = 0 := by
  cases e with
  | ioSink p => cases p <;> decide
  | ioSource p => cases p <;> decide
  | unknownSymbol x => revert x; decide
  | absentChild n b => cases b <;> (revert n; decide)
  | midCode n => revert n; decide
  | illegalCommand => decide
  | badState => decide
  | endOfStream => decide

/-- A failure is recorded in the bit of `ERRLOG` that its code numbers (R40). -/
theorem Failure.logBit_code (e : Failure) :
    (logBit e.code).getLsbD e.code.toNat = true ∧ logBit e.code &&& 0xFFFFFE81 = 0 := by
  cases e <;> simp only [Failure.code, logBit] <;> decide

end Sys2Proof.Machine
end

