-- ==== Sys2Proof/Laws/Runs.lean ====
section
/-! SUPPORT. Commands one after another: what ends OK and what fails (R10), and `DEC.RUN` as the stepwise commands it does
(R203). -/

namespace Sys2Proof.Machine

/-! ### No procedure of the decoder reads the result registers -/

/-- A state with other result registers. -/
def State.withRes (s : State) (r : ResultRegs) : State := { s with res := r }

/-- A procedure's answer with other result registers in its state. -/
def Res.withRes {α : Type} (a : Res α) (r : ResultRegs) : Res α :=
  match a with
  | .ok a s => .ok a (s.withRes r)
  | .raised e s => .raised e (s.withRes r)

variable (r : ResultRegs) (s : State)

theorem refill_withRes : refill (s.withRes r) = ((refill s).1, (refill s).2.withRes r) := by
  cases hf : s.env.fails
  · cases hd : s.bsrc.data with
    | nil => rw [refill_eof s hf hd, refill_eof _ (by exact hf) (by exact hd)]; rfl
    | cons v vs => rw [refill_item s hf hd, refill_item _ (by exact hf) (by exact hd)]; rfl
  · rw [refill_fail s hf, refill_fail _ (by exact hf)]; rfl

theorem readBit_withRes : readBit (s.withRes r) = (readBit s).withRes r := by
  by_cases hc : s.br.cnt = 1
  · cases hf : s.env.fails
    · cases hd : s.bsrc.data with
      | nil => rw [readBit_last s hc hf hd, readBit_last _ (by exact hc) (by exact hf) (by exact hd)]; rfl
      | cons v vs => rw [readBit_item s hc hf hd, readBit_item _ (by exact hc) (by exact hf) (by exact hd)]; rfl
    · rw [readBit_fail s hc hf, readBit_fail _ (by exact hc) (by exact hf)]; rfl
  · rw [readBit_within s hc, readBit_within _ (by exact hc)]; rfl

theorem openReader_withRes : openReader (s.withRes r) = (openReader s).withRes r := by
  cases hf : s.env.fails
  · cases hg : s.env.advance.fails
    · cases hd : s.bsrc.data with
      | nil => rw [openReader_empty s hf hg hd, openReader_empty _ (by exact hf) (by exact hg) (by exact hd)]; rfl
      | cons v vs => rw [openReader_item s hf hg hd, openReader_item _ (by exact hf) (by exact hg) (by exact hd)]; rfl
    · rw [openReader_readAhead_fail s hf hg, openReader_readAhead_fail _ (by exact hf) (by exact hg)]; rfl
  · rw [openReader_fail s hf, openReader_fail _ (by exact hf)]; rfl

theorem startDecode_withRes : startDecode (s.withRes r) = (startDecode s).withRes r := by
  cases hf : s.env.fails
  · rw [startDecode_ok s hf, startDecode_ok _ (by exact hf)]; rfl
  · rw [startDecode_fail s hf, startDecode_fail _ (by exact hf)]; rfl

theorem abortDecode_withRes : abortDecode (s.withRes r) = (abortDecode s).withRes r := by
  cases ho : s.br.isOpen
  · rw [abortDecode_closed s ho, abortDecode_closed _ (by exact ho)]; rfl
  · rw [abortDecode_open s ho, abortDecode_open _ (by exact ho)]; rfl

theorem emitLeaf_withRes (b : Bool) (w : Word) : emitLeaf b w (s.withRes r) = (emitLeaf b w s).withRes r := by
  cases hf : s.env.fails
  · rw [emitLeaf_ok s b w hf, emitLeaf_ok _ b w (by exact hf)]; rfl
  · rw [emitLeaf_fail s b w hf, emitLeaf_fail _ b w (by exact hf)]
    exact congrArg (Res.raised _) (abortDecode_withRes r { s with
      ssink := { s.ssink with data := Config.sinkAfterFailure s.env.advance.freeIdx, bad := true }
      env := s.env.afterFailedPut })

theorem endDecode_withRes : endDecode (s.withRes r) = (endDecode s).withRes r := by
  by_cases h : s.dec.node = s.treeRoot
  · rw [endDecode_root s h, endDecode_root _ (by exact h)]; rfl
  · rw [endDecode_midCode s h, endDecode_midCode _ (by exact h), abortDecode_withRes]; rfl

theorem followEdge_withRes (b : Bool) : followEdge b (s.withRes r) =
    match followEdge b s with
    | .error f => .error f
    | .ok a => .ok (a.withRes r) := by
  cases h : s.treeAt s.dec.node with
  | none => rw [followEdge, followEdge, readNode_unwritten s h, readNode_unwritten (s.withRes r) (by exact h)]; rfl
  | some w =>
    cases hc : nodeHasChild w b
    · rw [followEdge_absent s h hc, followEdge_absent (s.withRes r) h hc, abortDecode_withRes]; rfl
    · cases h2 : s.treeAt (nodeChild w b) with
      | none =>
        have e : ∀ t : State, t.treeAt t.dec.node = some w → t.treeAt (nodeChild w b) = none →
            followEdge b t = .error (.unwrittenTree (nodeChild w b).toNat) := fun t k k2 => by
          simp [followEdge, readNode_eq _ k, hc, readNode_unwritten _ k2]
        rw [e s h h2, e (s.withRes r) h h2]
      | some w2 =>
        cases hl : nodeIsLeaf w2
        · rw [followEdge_internal s h hc h2 hl, followEdge_internal (s.withRes r) h hc h2 hl]; rfl
        · rw [followEdge_leaf s h hc h2 hl, followEdge_leaf (s.withRes r) h hc h2 hl, emitLeaf_withRes]

/-- R192: `DecBit` does the same whatever the result registers hold. -/
theorem decBit_withRes : decBit (s.withRes r) =
    match decBit s with
    | .error f => .error f
    | .ok a => .ok (a.withRes r) := by
  rw [decBit, decBit, readBit_withRes]
  cases readBit s with
  | raised e t => rfl
  | ok b t => exact followEdge_withRes r t b

/-- A bit read is one fewer to hand out. -/
theorem readBit_bitsLeft {s t : State} {b : Bool} (h : readBit s = .ok b t) (hn : s.hasNext = true) :
    s.bitsLeft = t.bitsLeft + 1 ∧ t.br.isOpen = true := by
  obtain ⟨ho, hc, -⟩ := (hasNext_iff s).1 hn
  by_cases h1 : s.br.cnt = 1
  · cases hf : s.env.fails
    · cases hd : s.bsrc.data with
      | nil =>
        rw [readBit_last s h1 hf hd] at h; cases h
        refine ⟨?_, ho⟩
        simp [State.bitsLeft, h1, hd]
      | cons v vs =>
        rw [readBit_item s h1 hf hd] at h; cases h
        refine ⟨?_, ho⟩
        simp [State.bitsLeft, h1, hd]; omega
    · rw [readBit_fail s h1 hf] at h; cases h
  · rw [readBit_within s h1] at h; cases h
    refine ⟨?_, ho⟩
    simp only [State.bitsLeft]
    have : (s.br.cnt - 1).toNat + 1 = s.br.cnt.toNat := by bv_omega
    omega

theorem emitLeaf_keeps {b : Bool} {w : Word} {s t : State} {a : Reply} (h : emitLeaf b w s = .ok a t) :
    t.br = s.br ∧ t.bsrc = s.bsrc ∧ t.dec.active = s.dec.active := by
  cases hf : s.env.fails
  · rw [emitLeaf_ok s b w hf] at h; cases h; exact ⟨rfl, rfl, rfl⟩
  · rw [emitLeaf_fail s b w hf] at h; cases h

theorem followEdge_keeps {b : Bool} {s t : State} {a : Reply} (h : followEdge b s = .ok (.ok a t)) :
    t.br = s.br ∧ t.bsrc = s.bsrc ∧ t.dec.active = s.dec.active := by
  unfold followEdge at h
  split at h
  · cases h
  · split at h
    · split at h
      · cases h
      · split at h
        · injection h with h; exact emitLeaf_keeps h
        · cases h; exact ⟨rfl, rfl, rfl⟩
    · cases h

/-- R192: a `DecBit` that returns has taken one bit, and both sessions go on. -/
theorem decBit_bitsLeft {s t : State} {a : Reply} (h : decBit s = .ok (.ok a t)) (hn : s.hasNext = true)
    (ha : s.dec.active = true) : s.bitsLeft = t.bitsLeft + 1 ∧ t.br.isOpen = true ∧ t.dec.active = true := by
  have f := readBit_frame s
  unfold decBit at h
  split at h <;> rename_i hb <;> rw [hb] at f
  · cases h
  · rename_i b u
    obtain ⟨h1, h2⟩ := readBit_bitsLeft hb hn
    obtain ⟨k1, k2, k3⟩ := followEdge_keeps h
    have hd : u.dec = s.dec := f.2.1
    exact ⟨by unfold State.bitsLeft at h1 ⊢; rw [k1, k2]; exact h1, by rw [k1]; exact h2, by rw [k3, hd]; exact ha⟩


/-! ### Commands that end OK, and commands that fail (R10) -/

theorem exec_ok {i : Instr} {s t : State} (h : exec i s = .next t) (h0 : t.res.result.extractLsb' 0 4 = 0) :
    ∃ a v, procedure i s = .ok (.ok a v) ∧ t = v.done (opcodeOf i) a := by
  obtain ⟨r, hr, rfl⟩ := exec_next h
  cases r with
  | ok a v => exact ⟨a, v, hr, rfl⟩
  | raised e v => exact absurd ((resultWord_fields _ _ _ _ _).1.symm.trans h0) e.code_range.1

theorem exec_failed {i : Instr} {s t : State} (h : exec i s = .next t) (h0 : t.res.result.extractLsb' 0 4 ≠ 0) :
    ∃ e v, procedure i s = .ok (.raised e v) ∧ t = v.raise (opcodeOf i) e := by
  obtain ⟨r, hr, rfl⟩ := exec_next h
  cases r with
  | ok a v => exact absurd (resultWord_fields _ _ _ _ _).1 h0
  | raised e v => exact ⟨e, v, hr, rfl⟩

theorem runOk_cons {i : Instr} {is : List Instr} {s u : State} (h : runOk (i :: is) s = some u) :
    ∃ a v, procedure i s = .ok (.ok a v) ∧ runOk is (v.done (opcodeOf i) a) = some u := by
  rw [runOk] at h
  split at h
  · rename_i t ht
    split at h
    · rename_i h0
      obtain ⟨a, v, hp, rfl⟩ := exec_ok ht h0
      exact ⟨a, v, hp, h⟩
    · cases h
  · cases h
  · cases h

/-! ### `DEC.RUN` as its steps (R203) -/

/-- `DEC.BIT`s that end OK are turns of the loop of `DEC.RUN`. -/
theorem runOk_decBits {n : Nat} {s u : State} {r : ResultRegs} (ha : s.dec.active = true) (ho : s.br.isOpen = true)
    (h : runOk (List.replicate n .decBit) (s.withRes r) = some u) :
    ∃ v q, u = v.withRes q ∧ q.errinfo = r.errinfo ∧ q.errlog = r.errlog ∧ v.res = s.res ∧ v.dec.active = true ∧
      v.br.isOpen = true ∧ ∀ fuel, s.bitsLeft ≤ fuel → ∃ left, v.bitsLeft ≤ left ∧ decLoop fuel s = decLoop left v := by
  induction n generalizing s r with
  | zero => cases h; exact ⟨s, r, rfl, rfl, rfl, rfl, ha, ho, fun fuel hf => ⟨fuel, hf, rfl⟩⟩
  | succ n ih =>
    obtain ⟨a, v, hp, hr⟩ := runOk_cons h
    simp only [procedure] at hp
    split at hp
    · cases hp
    · split at hp
      · rename_i hn
        have hn : s.hasNext = true := hn
        rw [decBit_withRes] at hp
        split at hp
        · cases hp
        · rename_i b hb
          cases b with
          | raised e w => cases hp
          | ok c w =>
            cases hp
            obtain ⟨h1, h2, h3⟩ := decBit_bitsLeft hb hn ha
            obtain ⟨z, q, e1, e2, e3, e4, e5, e6, e7⟩ := ih (s := w) h3 h2 hr
            refine ⟨z, q, e1, e2, e3, e4.trans (decBit_frame hb).res, e5, e6, fun fuel hf => ?_⟩
            obtain ⟨left, l1, l2⟩ := e7 (fuel - 1) (by omega)
            obtain ⟨fuel, rfl⟩ : ∃ k, fuel = k + 1 := ⟨fuel - 1, by omega⟩
            refine ⟨left, l1, ?_⟩
            rw [decLoop, if_pos hn, hb]; exact l2
      · cases hp

/-- After finitely many `DEC.BIT`s that end OK no bit is left, or the next one does not end OK (R299). -/
theorem runOk_decBits_ends (k : Nat) (s : State) (hk : s.bitsLeft ≤ k) (ha : s.dec.active = true)
    (ho : s.br.isOpen = true) : ∃ n u, runOk (List.replicate n .decBit) s = some u ∧
      (u.hasNext = true → ∀ t, exec .decBit u = .next t → t.res.result.extractLsb' 0 4 ≠ 0) := by
  induction k generalizing s with
  | zero =>
    refine ⟨0, s, rfl, fun hn => ?_⟩
    have := ((hasNext_iff s).1 hn).2.1
    unfold State.bitsLeft at hk; omega
  | succ k ih =>
    by_cases hc : s.hasNext = true → ∀ t, exec .decBit s = .next t → t.res.result.extractLsb' 0 4 ≠ 0
    · exact ⟨0, s, rfl, hc⟩
    · simp only [Classical.not_imp, not_forall, not_not] at hc
      obtain ⟨hn, t, ht, h0⟩ := hc
      obtain ⟨a, v, hp, rfl⟩ := exec_ok ht h0
      have hp : decBit s = .ok (.ok a v) := by simpa [procedure, ha, ho, hn] using hp
      obtain ⟨h1, h2, h3⟩ := decBit_bitsLeft hp hn ha
      have hk : (v.done (opcodeOf .decBit) a).bitsLeft ≤ k := by
        change v.bitsLeft ≤ k
        omega
      obtain ⟨n, u, hu, hq⟩ := ih (v.done (opcodeOf .decBit) a) hk h3 h2
      refine ⟨n + 1, u, ?_, hq⟩
      rw [List.replicate_succ, runOk, ht]
      simp only [h0, if_true]
      exact hu

theorem openReader_isOpen {s t : State} (h : openReader s = .ok () t) : t.br.isOpen = true := by
  cases hf : s.env.fails
  · cases hg : s.env.advance.fails
    · cases hd : s.bsrc.data with
      | nil => rw [openReader_empty s hf hg hd] at h; cases h; rfl
      | cons v vs => rw [openReader_item s hf hg hd] at h; cases h; rfl
    · rw [openReader_readAhead_fail s hf hg] at h; cases h
  · rw [openReader_fail s hf] at h; cases h

theorem startDecode_active {s t : State} (h : startDecode s = .ok () t) : t.dec.active = true := by
  cases hf : s.env.fails
  · rw [startDecode_ok s hf] at h; cases h; rfl
  · rw [startDecode_fail s hf] at h; cases h

/-- The commands `BR.OPEN`, `DEC.START` and `DEC.BIT`, each ending OK, are the first part of `DEC.RUN`. -/
theorem decRun_reaches {s u : State} {n : Nat} (ha : s.dec.active = false) (ho : s.br.isOpen = false)
    (hp : s.treePresent = true) (h : runOk (.brOpen :: .decStart :: List.replicate n .decBit) s = some u) :
    ∃ v q left, u = v.withRes q ∧ q.errinfo = s.res.errinfo ∧ q.errlog = s.res.errlog ∧ v.res = s.res ∧
      v.dec.active = true ∧ v.br.isOpen = true ∧ v.bitsLeft ≤ left ∧
      procedure .decRun s =
        match decLoop left v with
        | .error f => .error f
        | .ok r => .ok (r.andThen fun _ w => decClose w) := by
  obtain ⟨a, v, h1, h⟩ := runOk_cons h
  obtain ⟨b, w, h2, h⟩ := runOk_cons h
  simp only [procedure, ho, Bool.false_eq_true, if_false] at h1
  cases hr : openReader s with
  | raised e t => rw [hr] at h1; cases h1
  | ok c t =>
    have F := (openReader_frame s).1
    rw [hr] at h1 F
    have h1 : t = v := by injection h1 with h1; injection h1
    subst h1
    simp only [procedure] at h2
    split at h2
    · cases h2
    · change Except.ok ((startDecode (t.withRes (t.done _ a).res)).andThen _) = _ at h2
      rw [startDecode_withRes] at h2
      cases hd : startDecode t with
      | raised e z => rw [hd] at h2; cases h2
      | ok c z =>
        have G := startDecode_frame t
        rw [hd] at h2 G
        have h2 : z.withRes (t.done (opcodeOf .brOpen) a).res = w := by injection h2 with h2; injection h2
        subst h2
        have hz : z.br.isOpen = true := G.2.1 ▸ openReader_isOpen hr
        obtain ⟨x, q, e1, e2, e3, e4, e5, e6, e7⟩ := runOk_decBits (startDecode_active hd) hz h
        obtain ⟨left, l1, l2⟩ := e7 _ (Nat.le_refl _)
        have hres : t.res = s.res := F.res
        refine ⟨x, q, left, e1, ?_, ?_, e4.trans (G.1.res.trans hres), e5, e6, l1, ?_⟩
        · exact e2.trans (show t.res.errinfo = s.res.errinfo by rw [hres])
        · exact e3.trans (show t.res.errlog = s.res.errlog by rw [hres])
        · simp only [procedure, ha, ho, hp, hr, decBody, hd, l2]
          rfl

end Sys2Proof.Machine
end

