-- ==== Sys2Proof/Laws/Streams.lean ====
section
/-! SUPPORT. The compressed stream (R106, R107) and the writer: what a list of bits does to `WR_ACC` and `BSINK`, and
from it the loops of `EncSym` and `ENC.RUN` (R133, R172, R176), each as one equation. -/

namespace Sys2Proof.Machine

/-! ### `Pack` -/

@[simp] theorem pack_nil : pack [] = [] := rfl

theorem pack_cons8 {x : List Bool} (y : List Bool) (h : x.length = 8) : pack (x ++ y) = packByte x :: pack y := by
  unfold pack
  have e : ((x ++ y).length + 7) / 8 = (y.length + 7) / 8 + 1 := by rw [List.length_append, h]; omega
  rw [e, List.range_succ_eq_map, List.map_cons, List.map_map]
  congr 1
  · rw [Nat.mul_zero, List.drop_zero, List.take_append_of_le_length (by omega), List.take_of_length_le (by omega)]
  · apply List.map_congr_left
    intro j _
    simp only [Function.comp]
    rw [show 8 * (j + 1) = x.length + 8 * j by omega, List.drop_append, List.drop_eq_nil_of_le (by omega)]
    simp

theorem pack_short {x : List Bool} (h0 : x ≠ []) (h : x.length ≤ 8) : pack x = [packByte x] := by
  unfold pack
  have : 0 < x.length := List.length_pos_iff.2 h0
  rw [show (x.length + 7) / 8 = 1 by omega]
  simp [List.take_of_length_le h]

theorem pack_append {x : List Bool} (y : List Bool) (h : x.length % 8 = 0) : pack (x ++ y) = pack x ++ pack y := by
  obtain ⟨k, hk⟩ : ∃ k, x.length = 8 * k := ⟨x.length / 8, by omega⟩
  clear h
  induction k generalizing x with
  | zero => rw [List.length_eq_zero_iff.1 (by omega : x.length = 0)]; rfl
  | succ k ih =>
    have e : x = x.take 8 ++ x.drop 8 := (List.take_append_drop 8 x).symm
    have h8 : (x.take 8).length = 8 := by rw [List.length_take]; omega
    rw [e, List.append_assoc, pack_cons8 _ h8, pack_cons8 _ h8, List.cons_append,
      ih (by rw [List.length_drop]; omega)]

@[simp] theorem pack_length (x : List Bool) : (pack x).length = (x.length + 7) / 8 := by simp [pack]

/-- Writing a bit at its place extends the byte begun (R133, R22). -/
theorem packByte_snoc (p : List Bool) (b : Bool) (h : p.length < 8) :
    setByteBit (packByte p) (7 - p.length) b = packByte (p ++ [b]) := by
  match p with
  | [] => revert b; decide
  | [a0] => revert a0 b; decide
  | [a0, a1] => revert a0 a1 b; decide
  | [a0, a1, a2] => revert a0 a1 a2 b; decide
  | [a0, a1, a2, a3] => revert a0 a1 a2 a3 b; decide
  | [a0, a1, a2, a3, a4] => revert a0 a1 a2 a3 a4 b; decide
  | [a0, a1, a2, a3, a4, a5] => revert a0 a1 a2 a3 a4 a5 b; decide
  | [a0, a1, a2, a3, a4, a5, a6] => revert a0 a1 a2 a3 a4 a5 a6 b; decide
  | _ :: _ :: _ :: _ :: _ :: _ :: _ :: _ :: _ => simp at h; omega

/-- The whole bytes of `L ++ M` are those of `L` and those of what is left of `L` together with `M`. -/
theorem stream_split (L M : List Bool) :
    let P := L.drop (8 * (L.length / 8))
    (L ++ M).length / 8 = L.length / 8 + (P ++ M).length / 8 ∧ (L ++ M).length % 8 = (P ++ M).length % 8 ∧
      (L ++ M).drop (8 * ((L ++ M).length / 8)) = (P ++ M).drop (8 * ((P ++ M).length / 8)) ∧
      pack ((L ++ M).take (8 * ((L ++ M).length / 8))) =
        pack (L.take (8 * (L.length / 8))) ++ pack ((P ++ M).take (8 * ((P ++ M).length / 8))) := by
  intro P
  have hT : (L.take (8 * (L.length / 8))).length = 8 * (L.length / 8) := by rw [List.length_take]; omega
  have e : L ++ M = L.take (8 * (L.length / 8)) ++ (P ++ M) := by
    rw [← List.append_assoc, List.take_append_drop]
  have hlen : (L ++ M).length = 8 * (L.length / 8) + (P ++ M).length := by
    conv_lhs => rw [e, List.length_append, hT]
  have hq : (L ++ M).length / 8 = L.length / 8 + (P ++ M).length / 8 := by omega
  have hm : 8 * ((L ++ M).length / 8) = (L.take (8 * (L.length / 8))).length + 8 * ((P ++ M).length / 8) := by omega
  refine ⟨hq, by omega, ?_, ?_⟩
  · rw [hm]; conv_lhs => rw [e]
    rw [List.drop_length_add_append]
  · rw [hm]; conv_lhs => rw [e]
    rw [List.take_length_add_append, pack_append _ (by omega)]

/-! ### Writing a list of bits -/

/-- `WriteBit` of each bit in turn, until one raises. -/
def writeBits : List Bool → State → Res Unit
  | [], s => .ok () s
  | b :: c, s => (writeBit b s).andThen fun _ t => writeBits c t

/-- The writer is open and `p` are the bits it has pending (R22, R23). -/
structure State.Pending (s : State) (p : List Bool) : Prop where
  isOpen : s.bw.isOpen = true
  acc : s.bw.acc = packByte p
  cnt : s.bw.cnt.toNat = p.length
  short : p.length < 8

/-- The bits handed in since the last whole byte stand at the top of `WR_ACC`, and zeros below them (R22, R30 (a)). -/
theorem packByte_take_unpackByte (v : Byte) (n : BitVec 3) (h : ∀ k, k < 8 - n.toNat → v.getLsbD k = false) :
    packByte ((unpackByte v).take n.toNat) = v := by
  revert h n v; decide +kernel

theorem State.pending_of_accLow {s : State} (ho : s.bw.isOpen = true)
    (h : ∀ k, k < 8 - s.bw.cnt.toNat → s.bw.acc.getLsbD k = false) :
    s.Pending ((unpackByte s.bw.acc).take s.bw.cnt.toNat) := by
  have := s.bw.cnt.isLt
  have hl : ((unpackByte s.bw.acc).take s.bw.cnt.toNat).length = s.bw.cnt.toNat := by
    rw [List.length_take]; simp [unpackByte]; omega
  exact ⟨ho, (packByte_take_unpackByte _ _ h).symm, hl.symm, by omega⟩

theorem writeBits_eq (c : List Bool) (s : State) (p : List Bool) (h : s.Pending p)
    (hf : s.env.NoFail ((p ++ c).length / 8)) :
    writeBits c s = .ok () { s with
      bw := { isOpen := true
              acc := packByte ((p ++ c).drop (8 * ((p ++ c).length / 8)))
              cnt := BitVec.ofNat 3 ((p ++ c).length % 8)
              total := s.bw.total + BitVec.ofNat 64 c.length }
      bsink := { s.bsink with data := s.bsink.data ++ pack ((p ++ c).take (8 * ((p ++ c).length / 8))) }
      env := s.env.advanceN ((p ++ c).length / 8) } := by
  induction c generalizing s p with
  | nil =>
    have hl := h.short
    have hq : (p ++ []).length / 8 = 0 := by simp; omega
    rw [writeBits, hq]
    have : s.bw.cnt = BitVec.ofNat 3 ((p ++ []).length % 8) := by
      apply BitVec.eq_of_toNat_eq
      rw [h.cnt]; simp; omega
    rw [← this]
    simp [← h.acc, ← h.isOpen]
  | cons b c ih =>
    have hl := h.short
    rw [writeBits]
    have etot : s.bw.total + 1 + BitVec.ofNat 64 c.length = s.bw.total + BitVec.ofNat 64 (b :: c).length := by
      rw [List.length_cons, Nat.add_comm c.length 1, BitVec.ofNat_add, BitVec.add_assoc]; rfl
    have eapp : p ++ b :: c = (p ++ [b]) ++ c := by simp
    by_cases h7 : p.length < 7
    · rw [writeBit_within _ _ (by rw [h.cnt]; exact h7), Res.andThen_ok]
      have h' : State.Pending { s with bw := { s.bw with
          acc := setByteBit s.bw.acc (7 - s.bw.cnt.toNat) b
          cnt := s.bw.cnt + 1
          total := s.bw.total + 1 } } (p ++ [b]) :=
        { isOpen := h.isOpen
          acc := by simp only; rw [h.acc, h.cnt, packByte_snoc _ _ hl]
          cnt := by simp only [BitVec.toNat_add, h.cnt, List.length_append]; simp; omega
          short := by simp; omega }
      rw [ih _ _ h' (by rw [← eapp]; exact hf)]
      simp only [← eapp, etot]
    · have h8 : (p ++ [b]).length = 8 := by simp; omega
      have hq : (p ++ b :: c).length / 8 = c.length / 8 + 1 := by simp; omega
      rw [hq] at hf ⊢
      have hcnt : ¬ s.bw.cnt.toNat < 7 := by rw [h.cnt]; exact h7
      rw [writeBit_fills_ok _ _ hcnt hf.1, Res.andThen_ok]
      have h' : State.Pending { s with
          bw := { s.bw with acc := 0, cnt := 0, total := s.bw.total + 1 }
          bsink := { s.bsink with data := s.bsink.data ++ [setByteBit s.bw.acc (7 - s.bw.cnt.toNat) b] }
          env := s.env.advance } [] :=
        { isOpen := h.isOpen
          acc := rfl
          cnt := rfl
          short := by decide }
      rw [ih _ _ h' hf.2]
      have e1 : (p ++ b :: c).drop (8 * (c.length / 8 + 1)) = ([] ++ c).drop (8 * (c.length / 8)) := by
        rw [eapp, Nat.mul_add, Nat.add_comm, ← List.drop_drop, show 8 * 1 = (p ++ [b]).length by omega,
          List.drop_left]; rfl
      have e2 : (p ++ b :: c).take (8 * (c.length / 8 + 1)) = (p ++ [b]) ++ ([] ++ c).take (8 * (c.length / 8)) := by
        rw [eapp, Nat.mul_add, Nat.add_comm, List.take_add, show 8 * 1 = (p ++ [b]).length by omega, List.take_left,
          List.drop_left]; rfl
      have e3 : (p ++ b :: c).length % 8 = ([] ++ c).length % 8 := by simp; omega
      rw [e1, e2, e3, pack_cons8 _ h8, h.acc, h.cnt, packByte_snoc _ _ hl]
      simp only [List.nil_append, List.append_assoc, List.singleton_append, etot, Environment.advanceN_succ]

/-- The pending bits of a writer that has pending `p` and is given `c`. -/
theorem pending_after (p c : List Bool) (s : State) : State.Pending { s with
      bw := { isOpen := true
              acc := packByte ((p ++ c).drop (8 * ((p ++ c).length / 8)))
              cnt := BitVec.ofNat 3 ((p ++ c).length % 8)
              total := s.bw.total + BitVec.ofNat 64 c.length } } ((p ++ c).drop (8 * ((p ++ c).length / 8))) := by
  have hP := List.length_drop (i := 8 * ((p ++ c).length / 8)) (l := p ++ c)
  exact ⟨rfl, rfl, by simp only [BitVec.toNat_ofNat]; omega, by omega⟩

/-- R133 with a failing `Put`: of the bits `c`, those that fill `j` bytes are put, and the `Put` of the next byte fails. -/
theorem writeBits_fail (c : List Bool) (s : State) (p : List Bool) (j : Nat) (h : s.Pending p)
    (hj : j < (p ++ c).length / 8) (hf : s.env.NoFail j) (hx : (s.env.advanceN j).fails = true) :
    ∃ data : List Byte, writeBits c s = .raised (.ioSink .bsink) { s with
      bw := { isOpen := false, acc := 0, cnt := 0
              total := s.bw.total + BitVec.ofNat 64 (8 * (j + 1) - p.length) }
      bsink := { held := false, data := data, bad := true }
      env := (s.env.advanceN j).afterFailedPut } := by
  induction c generalizing s p j with
  | nil => have := h.short; simp at hj; omega
  | cons b c ih =>
    have hl := h.short
    rw [writeBits]
    have etot : ∀ n, s.bw.total + 1 + BitVec.ofNat 64 n = s.bw.total + BitVec.ofNat 64 (n + 1) := fun n => by
      rw [Nat.add_comm n 1, BitVec.ofNat_add, BitVec.add_assoc]; rfl
    by_cases h7 : p.length < 7
    · rw [writeBit_within _ _ (by rw [h.cnt]; exact h7), Res.andThen_ok]
      have h' : State.Pending { s with bw := { s.bw with
          acc := setByteBit s.bw.acc (7 - s.bw.cnt.toNat) b
          cnt := s.bw.cnt + 1
          total := s.bw.total + 1 } } (p ++ [b]) :=
        { isOpen := h.isOpen
          acc := by simp only; rw [h.acc, h.cnt, packByte_snoc _ _ hl]
          cnt := by simp only [BitVec.toNat_add, h.cnt, List.length_append]; simp; omega
          short := by simp; omega }
      obtain ⟨data, hd⟩ := ih _ _ j h' (by simpa using hj) hf hx
      refine ⟨data, hd.trans ?_⟩
      have e : 8 * (j + 1) - (p ++ [b]).length + 1 = 8 * (j + 1) - p.length := by simp; omega
      simp only [etot, e]
    · have hcnt : ¬ s.bw.cnt.toNat < 7 := by rw [h.cnt]; exact h7
      cases j with
      | zero =>
        rw [writeBit_fills_fail _ _ hcnt hx, Res.andThen_raised]
        refine ⟨Config.sinkAfterFailure s.env.advance.freeIdx, ?_⟩
        have e : 8 * (0 + 1) - p.length = 1 := by omega
        rw [e]
        rfl
      | succ j =>
        rw [writeBit_fills_ok _ _ hcnt hf.1, Res.andThen_ok]
        have h' : State.Pending { s with
            bw := { s.bw with acc := 0, cnt := 0, total := s.bw.total + 1 }
            bsink := { s.bsink with data := s.bsink.data ++ [setByteBit s.bw.acc (7 - s.bw.cnt.toNat) b] }
            env := s.env.advance } [] :=
          { isOpen := h.isOpen
            acc := rfl
            cnt := rfl
            short := by decide }
        obtain ⟨data, hd⟩ := ih _ _ j h' (by simp at hj ⊢; omega) hf.2 hx
        refine ⟨data, hd.trans ?_⟩
        have e : 8 * (j + 1) - ([] : List Bool).length + 1 = 8 * (j + 1 + 1) - p.length := by simp; omega
        simp only [etot, e]
        rfl

/-- R135 after whole bytes have gone out: the pending bits are put, padded, and the writer closed. -/
theorem closeWriter_pending {s : State} {p : List Bool} (h : s.Pending p) (hf : s.env.NoFail ((p.length + 7) / 8)) :
    closeWriter s = (true, { s with
      bw := { s.bw with isOpen := false, acc := 0, cnt := 0 }
      bsink := { s.bsink with held := false, data := s.bsink.data ++ pack p }
      env := s.env.advanceN ((p.length + 7) / 8) }) := by
  have hs := h.short
  cases p with
  | nil =>
    have h0 : s.bw.cnt = 0 := BitVec.eq_of_toNat_eq h.cnt
    rw [closeWriter_empty s h0]
    simp
  | cons b p =>
    have h0 : s.bw.cnt ≠ 0 := by
      intro h0
      have := h.cnt
      rw [h0] at this
      simp at this
    have e : ((b :: p).length + 7) / 8 = 1 := by simp at hs ⊢; omega
    rw [e] at hf ⊢
    rw [closeWriter_ok s h0 hf.1, pack_short (by simp) (by omega), h.acc]
    rfl

/-- R135 with pending bits and a failing `Put`. -/
theorem closeWriter_pending_fail {s : State} {p : List Bool} (h : s.Pending p) (h0 : p ≠ []) (hf : s.env.fails = true) :
    ∃ data : List Byte, closeWriter s = (false, { s with
      bw := { s.bw with isOpen := false, acc := 0, cnt := 0 }
      bsink := { held := false, data := data, bad := true }
      env := s.env.afterFailedPut }) := by
  have hc : s.bw.cnt ≠ 0 := by
    intro hc
    have := h.cnt
    rw [hc] at this
    exact h0 (List.length_eq_zero_iff.1 this.symm)
  exact ⟨_, closeWriter_fail s hc hf⟩

/-! ### `EncSym` -/

theorem State.codeBit_congr {s t : State} (h : t.ctab = s.ctab) (x : Symbol) (i : Nat) : t.codeBit x i = s.codeBit x i := by
  unfold State.codeBit State.readEntry
  rw [State.ctabAt_congr h]

theorem State.codeBits_congr {s t : State} (h : t.ctab = s.ctab) (x : Symbol) (i n : Nat) :
    t.codeBits x i n = s.codeBits x i n := by
  induction n generalizing i with
  | zero => rfl
  | succ n ih => simp only [State.codeBits, State.codeBit_congr h, ih]

theorem State.entryCode_congr {s t : State} (h : t.ctab = s.ctab) (x : Symbol) : t.entryCode x = s.entryCode x := by
  unfold State.entryCode
  simp only [State.ctabAt_congr h, State.codeBits_congr h]

theorem State.encodeBits_congr {s t : State} (h : t.ctab = s.ctab) (xs : List Symbol) :
    t.encodeBits xs = s.encodeBits xs := by
  induction xs with
  | nil => rfl
  | cons x xs ih => simp only [State.encodeBits, State.entryCode_congr h, ih]

/-- A code is what an entry holds if every bit of it stands at its place (R73). -/
theorem State.codeBits_of_places {s : State} {x : Symbol} (code : List Bool) (i : Nat)
    (h : ∀ j b, code[j]? = some b → ∃ w, s.ctabAt x (codeBitWord (i + j)) = some w ∧ w.getLsbD (codeBitPlace (i + j)) = b) :
    s.codeBits x i code.length = some code := by
  induction code generalizing i with
  | nil => rfl
  | cons b c ih =>
    obtain ⟨w, h1, h2⟩ := h 0 b rfl
    rw [Nat.add_zero] at h1 h2
    have hb : s.codeBit x i = .ok b := by
      unfold State.codeBit
      rw [readEntry_eq s h1]
      exact congrArg _ h2
    have hc := ih (i + 1) fun j d hj => by
      rw [Nat.add_right_comm i 1 j]; exact h (j + 1) d hj
    simp only [List.length_cons, State.codeBits, hb, hc]
/-- The loop of `EncSym` is the writing of the code bits, if their words are written (R172). -/
theorem encBits_eq {x : Symbol} {i n : Nat} {s : State} {c : List Bool} (h : s.codeBits x i n = some c) :
    encBits x i n s = .ok (writeBits c s) := by
  induction n generalizing i s c with
  | zero => cases h; rfl
  | succ n ih =>
    simp only [State.codeBits] at h
    split at h
    · rename_i b bs hb hbs
      cases h
      simp only [encBits, hb, writeBits]
      have f := writeBit_frame b s
      cases hw : writeBit b s <;> rw [hw] at f
      · rename_i t
        exact ih ((State.codeBits_congr f.ctab x (i + 1) n).trans hbs)
      · rfl
    · cases h

theorem encSym_eq {x : Symbol} {s : State} {c : List Bool} (h : s.entryCode x = some c) :
    encSym x s = .ok (writeBits c s) := by
  unfold State.entryCode at h
  split at h
  · rename_i hd hh
    split at h
    · rename_i hv
      rw [encSym, readEntry_eq s hh]
      simp only [hv, if_true]
      exact encBits_eq h
    · cases h
  · cases h

/-- `WriteBit` of each bit returns if no `Put` on the way fails; the table is not changed. -/
theorem writeBits_returns (l : List Bool) (s : State) (hf : s.env.NoFail ((s.bw.cnt.toNat + l.length) / 8)) :
    ∃ t, writeBits l s = .ok () t := by
  induction l generalizing s with
  | nil => exact ⟨s, rfl⟩
  | cons b l ih =>
    rw [writeBits]
    rw [List.length_cons] at hf
    have hlt := s.bw.cnt.isLt
    by_cases h : s.bw.cnt.toNat < 7
    · rw [writeBit_within s b h, Res.andThen_ok]
      refine ih _ ?_
      have e : (s.bw.cnt + 1).toNat = s.bw.cnt.toNat + 1 := by rw [BitVec.toNat_add]; simp; omega
      simp only [e]
      rwa [Nat.add_right_comm, Nat.add_assoc]
    · have e : (s.bw.cnt.toNat + (l.length + 1)) / 8 = l.length / 8 + 1 := by omega
      rw [e] at hf
      rw [writeBit_fills_ok s b h hf.1, Res.andThen_ok]
      refine ih _ ?_
      simpa using hf.2

/-- The loop of `EncSym` stops at the first unwritten code word, if no `Put` before it fails (R172, log 6). -/
theorem encBits_stops {x : Symbol} {f : Fault} (l : List Bool) (i m : Nat) (s t : State) (hm : l.length < m)
    (hl : ∀ j b, l[j]? = some b → s.codeBit x (i + j) = .ok b) (hf : s.codeBit x (i + l.length) = .error f)
    (hw : writeBits l s = .ok () t) : encBits x i m s = .error f := by
  induction l generalizing i m s with
  | nil =>
    obtain ⟨m, rfl⟩ : ∃ n, m = n + 1 := ⟨m - 1, by simp at hm; omega⟩
    rw [encBits, show s.codeBit x i = .error f from hf]
  | cons b l ih =>
    obtain ⟨m, rfl⟩ : ∃ n, m = n + 1 := ⟨m - 1, by simp at hm; omega⟩
    rw [encBits, show s.codeBit x i = .ok b from hl 0 b rfl]
    rw [writeBits] at hw
    have g := writeBit_frame b s
    cases hb : writeBit b s with
    | raised e u => rw [hb] at hw; cases hw
    | ok a u =>
      rw [hb] at hw g
      have hc : u.ctab = s.ctab := g.ctab
      simp only [hb]
      refine ih (i + 1) m u (by simp at hm; omega) (fun j d hj => ?_) ?_ hw
      · rw [State.codeBit_congr hc, Nat.add_right_comm, Nat.add_assoc]; exact hl (j + 1) d hj
      · rw [State.codeBit_congr hc, Nat.add_right_comm, Nat.add_assoc]; exact hf

theorem State.FirstMissing.congr {s t : State} {x : Symbol} {code : List Bool} {k : Nat} (h : s.FirstMissing x code k)
    (hc : t.ctab = s.ctab) : t.FirstMissing x code k := by
  simpa only [State.FirstMissing, State.ctabAt_congr hc] using h

/-- `EncSym` stops at the first word of the entry it finds unwritten, if no `Put` before it fails (R50, R172). -/
theorem encSym_stops {x : Symbol} {code : List Bool} {k : Nat} {s : State} (h : s.FirstMissing x code k)
    (hf : s.env.NoFail ((s.bw.cnt.toNat + code.length) / 8)) : encSym x s = .error (.unwrittenCtab x.toNat k) := by
  obtain ⟨hk, ⟨rfl, rfl⟩ | ⟨rfl, w, hw, hv, hlen, hl⟩⟩ := h
  · rw [encSym, readEntry_unwritten s hk]
  · obtain ⟨t, ht⟩ := writeBits_returns code s hf
    rw [encSym, readEntry_eq s hw]
    have hv : entryValid w = true := hv
    simp only [hv, if_true]
    refine encBits_stops code 0 _ s t hlen (fun j b hj => ?_) ?_ ht
    · obtain ⟨v, h1, h2⟩ := hl j b hj
      rw [Nat.zero_add, State.codeBit, codeBitWord, readEntry_eq s h1]
      exact congrArg _ h2
    · rw [Nat.zero_add, State.codeBit, codeBitWord, readEntry_unwritten s hk]

/-! ### `ENC.RUN` -/

/-- The loop of `ENC.RUN` over symbols that have a code: their bits are written, and it goes on with the others. -/
theorem encLoop_prefix (xs ys : List Symbol) (n : Nat) (s : State) (p bits : List Bool) (hx : s.ssrc.data = xs ++ ys)
    (h : s.Pending p) (hb : s.encodeBits xs = some bits) (hf : s.env.NoFail (xs.length + (p ++ bits).length / 8)) :
    encLoop (xs.length + n) s = encLoop n { s with
      bw := { isOpen := true
              acc := packByte ((p ++ bits).drop (8 * ((p ++ bits).length / 8)))
              cnt := BitVec.ofNat 3 ((p ++ bits).length % 8)
              total := s.bw.total + BitVec.ofNat 64 bits.length }
      bsink := { s.bsink with data := s.bsink.data ++ pack ((p ++ bits).take (8 * ((p ++ bits).length / 8))) }
      ssrc := { s.ssrc with data := ys }
      env := s.env.advanceN (xs.length + (p ++ bits).length / 8) } := by
  induction xs generalizing s p bits with
  | nil =>
    cases hb
    have hw := writeBits_eq [] s p h
    have hq : (p ++ []).length / 8 = 0 := by have := h.short; simp; omega
    rw [hq] at hw ⊢
    have hw := hw trivial
    injection hw with _ hw
    have e1 := congrArg State.bw hw
    have e2 := congrArg State.bsink hw
    simp only [List.length_nil] at e1 e2
    rw [List.nil_append] at hx
    simp only [List.length_nil, Nat.zero_add, Environment.advanceN, ← e1, ← e2, ← hx]
  | cons x xs ih =>
    simp only [State.encodeBits] at hb
    split at hb
    · rename_i c cs hc hcs
      cases hb
      obtain ⟨e1, e2, e3, e4⟩ := stream_split (p ++ c) cs
      rw [List.append_assoc] at e1 e2 e3 e4
      have hpend := pending_after p c
      generalize hPdef : (p ++ c).drop (8 * ((p ++ c).length / 8)) = P at e1 e2 e3 e4 hpend
      have eops : (x :: xs).length + (p ++ (c ++ cs)).length / 8 =
          1 + (p ++ c).length / 8 + (xs.length + (P ++ cs).length / 8) := by
        rw [e1, List.length_cons]; omega
      rw [eops] at hf ⊢
      rw [Environment.noFail_add, Environment.noFail_add] at hf
      obtain ⟨⟨⟨hf1, -⟩, hf2⟩, hf3⟩ := hf
      rw [List.length_cons, Nat.add_right_comm, encLoop, State.get_item .ssrc hf1 hx]
      obtain ⟨u, hu⟩ : ∃ u, u = s.afterDraw.setSource .ssrc { s.source .ssrc with data := xs ++ ys } := ⟨_, rfl⟩
      rw [show s.afterDraw.setSource .ssrc { s.source .ssrc with data := xs.append ys } = u from hu.symm]
      have hctab : u.ctab = s.ctab := by rw [hu]; rfl
      have hc' : u.entryCode x = some c := (State.entryCode_congr hctab x).trans hc
      have hp : u.Pending p := by rw [hu]; exact ⟨h.isOpen, h.acc, h.cnt, h.short⟩
      have hfu : u.env.NoFail ((p ++ c).length / 8) := by rw [hu]; exact hf2
      have hxu : u.ssrc.data = xs ++ ys := by rw [hu]; rfl
      simp only [encSym_eq hc', writeBits_eq c u p hp hfu, hPdef]
      have hq := hpend u
      rw [ih _ P cs ?_ ⟨rfl, ?_, ?_, hq.short⟩ ?_ ?_]
      · have etot : s.bw.total + BitVec.ofNat 64 c.length + BitVec.ofNat 64 cs.length =
            s.bw.total + BitVec.ofNat 64 (c ++ cs).length := by
          rw [List.length_append, BitVec.ofNat_add, BitVec.add_assoc]
        have eenv : ∀ a b, Environment.advanceN (1 + a + b) s.env =
            Environment.advanceN b (Environment.advanceN a s.env.advance) := fun a b => by
          rw [Environment.advanceN_add, Environment.advanceN_add]; rfl
        rw [e2, e3, e4, ← etot, eenv, hu]
        simp only [List.append_assoc]
        rfl
      · exact hxu
      · rfl
      · exact hq.cnt
      · refine (State.encodeBits_congr (s := s) ?_ xs).trans hcs
        exact hctab
      · rw [hu]; rw [Environment.advanceN_add] at hf3; exact hf3
    · cases hb

/-- The loop of `ENC.RUN` over symbols that all have a code: their bits are written, the end of `SSRC` is met. -/
theorem encLoop_eq (xs : List Symbol) (s : State) (p bits : List Bool) (hx : s.ssrc.data = xs) (h : s.Pending p)
    (hb : s.encodeBits xs = some bits) (hf : s.env.NoFail (xs.length + 1 + (p ++ bits).length / 8)) :
    encLoop xs.length s = .ok (.ok () { s with
      bw := { isOpen := true
              acc := packByte ((p ++ bits).drop (8 * ((p ++ bits).length / 8)))
              cnt := BitVec.ofNat 3 ((p ++ bits).length % 8)
              total := s.bw.total + BitVec.ofNat 64 bits.length }
      bsink := { s.bsink with data := s.bsink.data ++ pack ((p ++ bits).take (8 * ((p ++ bits).length / 8))) }
      ssrc := { s.ssrc with data := [] }
      env := s.env.advanceN (xs.length + 1 + (p ++ bits).length / 8) }) := by
  rw [Nat.add_right_comm, Environment.noFail_add] at hf
  rw [Nat.add_right_comm, ← Environment.advanceN_advance]
  have e := encLoop_prefix xs [] 0 s p bits (by rw [hx, List.append_nil]) h hb hf.1
  rw [Nat.add_zero] at e
  rw [e, encLoop, State.get_eof .ssrc hf.2.1 rfl]
  rfl

/-- `ENC.RUN` once the symbols `xs` are encoded as `bits` and `ys` stand in `SSRC` (R176). -/
def State.encoded (s : State) (ys : List Symbol) (bits : List Bool) (e : Environment) : State := { s with
  bw := { isOpen := true, acc := packByte (bits.drop (8 * (bits.length / 8)))
          cnt := BitVec.ofNat 3 (bits.length % 8), total := BitVec.ofNat 64 bits.length }
  bsink := { held := true, data := pack (bits.take (8 * (bits.length / 8))), bad := false }
  ssrc := { held := true, data := ys }
  env := e }

theorem State.encoded_pending (s : State) (ys : List Symbol) (bits : List Bool) (e : Environment) :
    (s.encoded ys bits e).Pending (bits.drop (8 * (bits.length / 8))) := by
  have h := List.length_drop (i := 8 * (bits.length / 8)) (l := bits)
  exact ⟨rfl, rfl, by simp only [State.encoded, BitVec.toNat_ofNat]; omega, by omega⟩

/-- The first part of `ENC.RUN` (R176): both acquisitions, and the turns of the loop for symbols that have a code. -/
theorem encRun_reaches {s : State} {xs ys : List Symbol} {bits : List Bool} (ho : s.bw.isOpen = false)
    (hx : s.ssrc.data = xs ++ ys) (hb : s.encodeBits xs = some bits)
    (hf : s.env.NoFail (2 + xs.length + bits.length / 8)) :
    procedure .encRun s =
      match encLoop ys.length (s.encoded ys bits (s.env.advanceN (2 + xs.length + bits.length / 8))) with
      | .error f => .error f
      | .ok r => .ok (r.andThen fun _ t => encClose t) := by
  have hops : 2 + xs.length + bits.length / 8 = 1 + (1 + (xs.length + ([] ++ bits).length / 8)) := by
    rw [List.nil_append]; omega
  rw [hops] at hf ⊢
  obtain ⟨⟨hf1, -⟩, hf⟩ := (Environment.noFail_add _ _ _).1 hf
  obtain ⟨⟨hf2, -⟩, hf3⟩ := (Environment.noFail_add _ _ _).1 hf
  obtain ⟨u, hu⟩ : ∃ u : State, u = { s with
      bw := { isOpen := true, acc := 0, cnt := 0, total := 0 }
      bsink := { held := true, data := [], bad := false }
      ssrc := { held := true, data := s.ssrc.data }
      env := s.env.advance.advance } := ⟨_, rfl⟩
  have hp : u.Pending [] := by rw [hu]; exact ⟨rfl, rfl, rfl, by decide⟩
  have hxu : u.ssrc.data = xs ++ ys := by rw [hu]; exact hx
  have hbu : u.encodeBits xs = some bits := (State.encodeBits_congr (by rw [hu]) _).trans hb
  have hl := encLoop_prefix xs ys ys.length u [] bits hxu hp hbu (by rw [hu]; exact hf3)
  have hw : openWriter (s.afterDraw.setSource .ssrc { s.source .ssrc with held := true }) = .ok () u := by
    rw [openWriter_ok _ hf2, hu]; rfl
  have hn : u.ssrc.data.length = xs.length + ys.length := by rw [hxu, List.length_append]
  have hbody : procedure .encRun s = encBody u := by
    simp only [procedure, ho, Bool.false_eq_true, if_false, State.acquireSource_ok .ssrc hf1, hw]
  have eenv : ∀ a, Environment.advanceN (1 + (1 + a)) s.env = Environment.advanceN a s.env.advance.advance := fun a => by
    rw [Environment.advanceN_add, Environment.advanceN_add]; rfl
  have z : ∀ x : Count, 0 + x = x := BitVec.zero_add
  have hloop : encLoop u.ssrc.data.length u = encLoop ys.length (s.encoded ys bits
      (Environment.advanceN (1 + (1 + (xs.length + ([] ++ bits).length / 8))) s.env)) := by
    rw [hn, hl, eenv, hu]
    simp only [List.nil_append, State.encoded, z]
  exact hbody.trans (congrArg (fun r : Except Fault (Res Unit) => (match r with
    | .error f => .error f
    | .ok r => .ok (r.andThen fun _ t => encClose t) : Except Fault (Res Reply))) hloop)

/-- R262: the clean-up close of a writer with whole bytes out and `bits` written in all. -/
theorem closeWriter_encoded (s : State) (ys : List Symbol) (bits : List Bool) (e : Environment)
    (hf : bits.length % 8 ≠ 0 → e.fails = false) :
    closeWriter (s.encoded ys bits e) = (true, { s with
      bw := { isOpen := false, acc := 0, cnt := 0, total := BitVec.ofNat 64 bits.length }
      bsink := { held := false, data := pack bits, bad := false }
      ssrc := { held := true, data := ys }
      env := if bits.length % 8 = 0 then e else e.advance }) := by
  have hd := List.length_drop (i := 8 * (bits.length / 8)) (l := bits)
  have hpk : pack (bits.take (8 * (bits.length / 8))) ++ pack (bits.drop (8 * (bits.length / 8))) = pack bits := by
    rw [← pack_append _ (by rw [List.length_take]; omega), List.take_append_drop]
  by_cases h : bits.length % 8 = 0
  · have h0 : ((bits.drop (8 * (bits.length / 8))).length + 7) / 8 = 0 := by omega
    rw [closeWriter_pending (s.encoded_pending ys bits e) (by rw [h0]; trivial), h0, if_pos h, ← hpk]
    rfl
  · have h1 : ((bits.drop (8 * (bits.length / 8))).length + 7) / 8 = 1 := by omega
    rw [closeWriter_pending (s.encoded_pending ys bits e) (by rw [h1]; exact ⟨hf h, trivial⟩), h1, if_neg h, ← hpk]
    rfl

/-- The same close with pending bits and a failing `Put`. -/
theorem closeWriter_encoded_fail (s : State) (ys : List Symbol) (bits : List Bool) (e : Environment)
    (h : bits.length % 8 ≠ 0) (hf : e.fails = true) :
    ∃ data : List Byte, closeWriter (s.encoded ys bits e) = (false, { s with
      bw := { isOpen := false, acc := 0, cnt := 0, total := BitVec.ofNat 64 bits.length }
      bsink := { held := false, data := data, bad := true }
      ssrc := { held := true, data := ys }
      env := e.afterFailedPut }) := by
  have hd := List.length_drop (i := 8 * (bits.length / 8)) (l := bits)
  exact closeWriter_pending_fail (s.encoded_pending ys bits e) (fun h0 => by rw [h0] at hd; simp at hd; omega) hf

end Sys2Proof.Machine
end

