-- ==== Sys2Proof/Tests/Slice0.lean ====
section
/-! SUPPORT. The model's own tests, their expected values from the spec's vectors, and for every obligation with
hypotheses a named witness: concrete states and operands that meet them, clause by clause. -/

namespace Sys2Proof.Tests

open Sys2Proof.Machine

/-! ### Helpers -/

/-- The state of an outcome, if it is a next state. -/
def nextOf : Host.Outcome State Fault Refusal → Option State
  | .next s => some s
  | .fault _ => none
  | .refused _ => none

/-- The fault of an outcome, if it is one. -/
def faultOf : Host.Outcome State Fault Refusal → Option Fault
  | .next _ => none
  | .fault f => some f
  | .refused _ => none

/-- The next state of an outcome, or the reset state. -/
def after (o : Host.Outcome State Fault Refusal) : State := (nextOf o).getD State.reset

/-- The reset state with the environment's answers fixed. -/
def withDraws (ds : List Bool) : State := { State.reset with env := { State.reset.env with draws := ds } }

/-- Reset, and forty port operations that answer `ok`. -/
def base : State := withDraws (List.replicate 40 false)

/-- Reset, and a port operation that answers `fail`. -/
def failing : State := withDraws [true]

/-- A writer session with `n` bits pending in `v`, `t` bits written. -/
def writing (s : State) (v : Byte) (n : BitVec 3) (t : Count) : State :=
  { s with bw := { isOpen := true, acc := v, cnt := n, total := t }, bsink := { s.bsink with held := true } }

/-- A reader session with `n` bits of `v` unread and `vs` behind it, `t` bits read. -/
def reading (s : State) (v : Byte) (n : BitVec 4) (t : Count) (vs : List Byte) : State :=
  { s with br := { isOpen := true, byte := v, cnt := n, total := t }, bsrc := { held := true, data := vs } }

/-- A decode session with the pointer at `n`. -/
def decoding (s : State) (n : NodeIdx) : State :=
  { s with dec := { active := true, node := n }, ssink := { s.ssink with held := true } }

/-- The state whose next host action is `a`. -/
def asking (s : State) (as : List HostAction) : State := { s with env := { s.env with script := as } }

/-- Configuration E1 (`95_test_vectors.md` section 1): every header written, and four codes. -/
def e1 : State := { base with
  cfg := { base.cfg with treecfg := 0x200 }
  tree := [(0, 0x60040400), (1, 0x600C0800), (2, 0x80000061), (3, 0x80000062), (4, 0x60140C00), (5, 0x80000063),
    (6, 0x80000064)]
  ctab := (List.range 256).flatMap fun x =>
    if x = 0x61 then [(0x610, 0x80000001), (0x611, 0x80000000)]
    else if x = 0x62 then [(0x620, 0x80000002), (0x621, 0x00000000)]
    else if x = 0x63 then [(0x630, 0x80000003), (0x631, 0x40000000)]
    else if x = 0x64 then [(0x640, 0x80000003), (0x641, 0x60000000)]
    else [(16 * x, 0)] }

/-- The tree of configuration E2, the single-symbol tree. -/
def e2 : State := { base with
  cfg := { base.cfg with treecfg := 0x200 }, tree := [(0, 0x40040000), (1, 0x80000061)] }

/-- Configuration E4: a tree with a missing child. -/
def e4 : State := { base with
  cfg := { base.cfg with treecfg := 0x200 }
  tree := [(0, 0x60040400), (1, 0x400C0000), (2, 0x80000061), (3, 0x80000062)] }

/-- A state with the given items in `SSRC`. -/
def toEncode (s : State) (xs : List Symbol) : State := { s with ssrc := { held := false, data := xs } }

/-- Configuration E1 with the environment's answers fixed. -/
def e1With (ds : List Bool) : State := { e1 with env := (withDraws ds).env }

/-- A state with the given bytes in `BSRC`. -/
def toDecode (s : State) (vs : List Byte) : State := { s with bsrc := { held := false, data := vs } }

/-- A state with the reader's limit on. -/
def limit (s : State) (n : Count) : State := { s with cfg := { s.cfg with rdctl := 1, rdlimit := n } }

/-! ### Well-formed words (R103) -/

/-- T-ILL-1: `RSV` is not 0. -/
theorem test_wf_rsv : rsvClear 0x80000010 = false ∧ legalWord 0x80000010 = false := by decide

/-- T-ILL-1: an unassigned opcode. -/
theorem test_wf_opc : opcDefined 0x00000013 = false ∧ legalWord 0x00000013 = false := by decide

/-- T-ILL-1: `ARG` of format N and of format B. -/
theorem test_wf_arg : argFits 0x00000131 = false ∧ argFits 0x00000211 = false ∧ legalWord 0x00000131 = false ∧
    legalWord 0x00000211 = false := by decide

theorem test_wf_legal : legalWord 0x00000111 = true ∧ legalWord 0x0000FF30 = true := by decide

/-! ### Decoding (the words of `95_test_vectors.md` section 3.1) -/

theorem test_decode_nop : decode 0x00000000 = .ok .nop := by rfl
theorem test_decode_srst : decode 0x00000001 = .ok .srst := by rfl
theorem test_decode_bwOpen : decode 0x00000010 = .ok .bwOpen := by rfl
theorem test_decode_bwWritebit : decode 0x00000011 = .ok (.bwWritebit false) ∧
    decode 0x00000111 = .ok (.bwWritebit true) := ⟨rfl, rfl⟩
theorem test_decode_bwClose : decode 0x00000012 = .ok .bwClose := by rfl
theorem test_decode_brOpen : decode 0x00000020 = .ok .brOpen := by rfl
theorem test_decode_brHasnext : decode 0x00000021 = .ok .brHasnext := by rfl
theorem test_decode_brReadbit : decode 0x00000022 = .ok .brReadbit := by rfl
theorem test_decode_brClose : decode 0x00000023 = .ok .brClose := by rfl
theorem test_decode_encSym : decode 0x00006130 = .ok (.encSym 0x61) ∧ decode 0x00000030 = .ok (.encSym 0x00) ∧
    decode 0x0000FF30 = .ok (.encSym 0xFF) := ⟨rfl, rfl, rfl⟩
theorem test_decode_encRun : decode 0x00000031 = .ok .encRun := by rfl
theorem test_decode_decStart : decode 0x00000040 = .ok .decStart := by rfl
theorem test_decode_decBit : decode 0x00000041 = .ok .decBit := by rfl
theorem test_decode_decEnd : decode 0x00000042 = .ok .decEnd := by rfl
theorem test_decode_decRun : decode 0x00000043 = .ok .decRun := by rfl

/-- T-ILL-1: the reasons. -/
theorem test_decode_illegal : decode 0x00000110 = .error (.argOutOfFormat 1) ∧
    decode 0x0000FF11 = .error (.argOutOfFormat 0xFF) ∧ decode 0x00000032 = .error (.unknownOpcode 0x32) ∧
    decode 0x00010030 = .error .reservedNotZero := ⟨rfl, rfl, rfl, rfl⟩

theorem test_decodeTableWord : decodeTableWord 32 0x00006130 = some (.encSym 0x61) ∧
    decodeTableWord 32 0x00000211 = none := ⟨rfl, rfl⟩

/-! ### The host's side -/

/-- T-ILL-1, first row. -/
theorem test_step_illegal : (after (step (State.reset.withFetchWord 32 0x00000211))).res =
    { result := 0x11000004, errinfo := 0, errlog := 0x10 } := by decide

/-- T-REG-1: only `ROOT` and `PRESENT` of `TREECFG` exist. -/
theorem test_write_treecfg :
    (after (act (.write 0x0005 0xFFFFFFFF) State.reset)).readLoc (locate 0x0005) = 0x000003FF := by decide

/-- T-LOCK-1: `wr RDLIMIT_LO, 5` under the lock. -/
theorem test_locked_write :
    let t := after (act (.write 0x0008 5) (reading e1 0xA0 8 0 []))
    t.cfg.rdlimit = 0 ∧ t.res.errlog = 0x100 := by decide

/-- T-LOCK-1: the reserved word 9 of `CTAB['a']`. -/
theorem test_reserved_write : after (act (.write 0x1619 0xFFFFFFFF) (reading base 0xA0 8 0 [])) = reading base 0xA0 8 0 [] := by
  rfl

/-- T-REG-1: reserved bits of a tree word are stored. -/
theorem test_tree_write :
    (after (act (.write 0x0805 0x1FFFFFFF) e1)).readLoc (locate 0x0805) = 0x1FFFFFFF := by decide

/-- T-REG-1: `RDLIMIT_HI` is the high half. -/
theorem test_rdlimit_halves :
    (after (act (.write 0x0008 2) (after (act (.write 0x0009 1) State.reset)))).cfg.rdlimit = 0x100000002 := by decide

/-- T-SYS-1, row `bw.writebit 1`: `STATUS` with three units open. -/
theorem test_status : (writing (decoding (reading e1 0x89 7 1 [0x80]) 0) 0x80 1 1).status = 0x8980071F := by decide

/-- R280: the hard reset keeps the data of the sources. -/
theorem test_hard_reset :
    let t := after (act .hardReset (reading e1 0x89 7 1 [0x80]))
    t.bsrc = { held := false, data := [0x80] } ∧ t.tree = [] ∧ t.br.isOpen = false := by decide

/-! ### One step of every command -/

/-- T-SYS-1. -/
theorem test_nop : (after (exec .nop (reading e1 0x89 7 1 [0x80]))).res.result = 0x00000000 ∧
    (after (exec .nop (reading e1 0x89 7 1 [0x80]))).br.cnt = 7 := by decide

/-- T-SYS-1: the port data and the configuration stay. -/
theorem test_srst :
    let t := after (exec .srst (writing (reading e1 0x89 7 1 [0x80]) 0x80 1 1))
    t.res.result = 0x01000000 ∧ t.status = 0 ∧ t.bsrc = { held := false, data := [0x80] } ∧ t.cfg.treecfg = 0x200 := by
  decide

/-- T-BW-9: the open empties the sink. -/
theorem test_bwOpen :
    let t := after (exec .bwOpen { base with bsink := { held := false, data := [0x55], bad := true } })
    t.res.result = 0x10000000 ∧ t.bsink = { held := true, data := [], bad := false } := by decide

/-- T-BW-7: the `Acquire` fails. -/
theorem test_bwOpen_fail :
    (after (exec .bwOpen failing)).res = { result := 0x10000001, errinfo := 0x00100000, errlog := 0x2 } := by decide

/-- T-BW-1, third bit. -/
theorem test_bwWritebit : (after (exec (.bwWritebit true) (writing base 0x80 2 2))).status = 0x00A00031 := by decide

/-- T-CNT-1: the eighth bit flushes, and the counter wraps. -/
theorem test_bwWritebit_wrap :
    let t := after (exec (.bwWritebit true) (writing base 0xFE 7 0xFFFFFFFFFFFFFFFF))
    t.bsink.data = [0xFF] ∧ t.bw = { isOpen := true, acc := 0, cnt := 0, total := 0 } := by decide

/-- T-BW-1: the close flushes the partial byte. -/
theorem test_bwClose :
    let t := after (exec .bwClose (writing base 0xA0 3 3))
    t.bsink.data = [0xA0] ∧ t.bw = { isOpen := false, acc := 0, cnt := 0, total := 3 } := by decide

/-- T-BW-8: the `Put` in the close fails. -/
theorem test_bwClose_fail :
    let t := after (exec .bwClose (writing failing 0x80 1 1))
    t.res = { result := 0x12000001, errinfo := 0x00100000, errlog := 0x2 } ∧ t.bsink.bad = true ∧ t.bw.isOpen = false := by
  decide

/-- T-BR-4. -/
theorem test_brOpen :
    let t := after (exec .brOpen (toDecode base [0x89, 0x80]))
    t.status = 0x8900080A ∧ t.bsrc.data = [0x80] := by decide

/-- T-BR-9b: the read-ahead in the open fails. -/
theorem test_brOpen_fail :
    let t := after (exec .brOpen (toDecode (withDraws [false, true]) [0x89, 0x80]))
    t.res.errinfo = 0x00200000 ∧ t.bsrc = { held := false, data := [0x89, 0x80] } ∧ t.status = 0 := by decide

/-- T-BR-1 and T-BR-7: with a bit, and with a limit of 0. -/
theorem test_brHasnext : (after (exec .brHasnext (reading base 0xA0 8 0 []))).res.result = 0x21000100 ∧
    (after (exec .brHasnext (limit (reading base 0xFF 8 0 []) 0))).res.result = 0x21000000 := by decide

/-- T-BR-4, eighth read: the bit is 1 and the next byte is taken. -/
theorem test_brReadbit :
    let t := after (exec .brReadbit (reading base 0x89 1 7 [0x80]))
    t.res.result = 0x22000100 ∧ t.status = 0x8000080A ∧ t.br.total = 8 := by decide

/-- T-BR-5: the read-ahead fails, the bit is counted and not delivered. -/
theorem test_brReadbit_fail :
    let t := after (exec .brReadbit (reading failing 0x89 1 7 [0x80]))
    t.res.result = 0x22000001 ∧ t.br = { isOpen := false, byte := 0, cnt := 0, total := 8 } ∧ t.bsrc.data = [0x80] := by
  decide

/-- T-BR-2. -/
theorem test_brClose :
    (after (exec .brClose (reading base 0xA0 5 3 []))).br = { isOpen := false, byte := 0, cnt := 0, total := 3 } := by decide

/-- T-ENC-1, 'd' after "abc": the code "011" completes a byte. -/
theorem test_encSym :
    let t := after (exec (.encSym 0x64) (writing e1 0x88 6 6))
    t.res.result = 0x30640000 ∧ t.status = 0x00800011 ∧ t.bsink.data = [0x89] := by decide +kernel

/-- T-ENC-3b: 'e' has no valid entry. T-ENC-10: the `Put` fails in the middle of the code, eight bits are counted. -/
theorem test_encSym_fails :
    (let t := after (exec (.encSym 0x65) (writing e1 0x80 1 1))
     t.res = { result := 0x30000002, errinfo := 0x65, errlog := 0x4 } ∧ t.bsink.data = [0x80] ∧ t.bw.isOpen = false) ∧
    (let t := after (exec (.encSym 0x64) (writing (e1With [true]) 0x88 6 6))
     t.res = { result := 0x30000001, errinfo := 0x00100000, errlog := 0x2 } ∧ t.bw.total = 8 ∧ t.bw.isOpen = false ∧
       t.bsink.bad = true) := by decide +kernel

/-- T-ENC-2. -/
theorem test_encRun :
    let t := after (exec .encRun (toEncode e1 [0x61, 0x62, 0x63, 0x64]))
    t.res.result = 0x31000000 ∧ t.bsink.data = [0x89, 0x80] ∧ t.bw.total = 9 ∧ t.ssrc.data = [] := by decide +kernel

/-- T-ENC-3a; and R176, the port of `Acquire` of `SSRC` and of `BSINK`, of `Get`, and of the `Put` of the close. -/
theorem test_encRun_fails :
    (let t := after (exec .encRun (toEncode e1 [0x61, 0x62, 0x65, 0x62]))
     t.res = { result := 0x31000002, errinfo := 0x65, errlog := 0x4 } ∧ t.bsink.data = [0x80] ∧ t.ssrc.data = [0x62] ∧
       t.bw.total = 3) ∧
    (after (exec .encRun (toEncode (e1With [true]) [0x61]))).res.errinfo = 0x00400000 ∧
    (after (exec .encRun (toEncode (e1With [false, true]) [0x61]))).res.errinfo = 0x00100000 ∧
    (after (exec .encRun (toEncode (e1With [false, false, true]) [0x61]))).res.errinfo = 0x00400000 ∧
    (after (exec .encRun (toEncode (e1With [false, false, false, false, true]) [0x61]))).res.errinfo = 0x00100000 := by
  decide +kernel

/-- T-SYS-1. -/
theorem test_decStart : (after (exec .decStart (reading e1 0x89 8 0 [0x80]))).status = 0x8900080E := by decide

/-- T-SYS-1: the first bit is the code of 'a'. -/
theorem test_decBit :
    let t := after (exec .decBit (decoding (reading e1 0x89 8 0 [0x80]) 0))
    t.res.result = 0x41610300 ∧ t.ssink.data = [0x61] ∧ t.status = 0x8900070E := by decide

/-- R50: the root of a tree never written. R259: an absent child wins over a symbol sink that would fail, and asks it
nothing. R192: a `Put` that fails after a read-ahead that did not: port 3, and the byte taken is gone. -/
theorem test_decBit_fails :
    faultOf (exec .decBit (decoding (reading base 0x89 8 0 [0x80]) 0)) = some (.unwrittenTree 0) ∧
    (let t := after (exec .decBit (decoding (reading { e2 with env := failing.env } 0x80 8 0 []) 0))
     t.res = { result := 0x41000003, errinfo := 0x00060000, errlog := 0x8 } ∧ t.env.draws = [true]) ∧
    (let t := after (exec .decBit (decoding (reading (e1With [false, true]) 0x89 1 7 [0x80, 0x01]) 0))
     t.res = { result := 0x41000001, errinfo := 0x00300000, errlog := 0x2 } ∧
       t.bsrc = { held := false, data := [0x01] } ∧ t.br.total = 8 ∧ t.ssink.bad = true) := by decide

/-- R194: the pointer is not at the root. -/
theorem test_decEnd : (after (exec .decEnd (decoding e1 4))).res.errinfo = 0x00080400 := by decide

/-- Program P3: the nine bits of "abcd". -/
theorem test_decRun :
    let t := after (exec .decRun (limit (toDecode e1 [0x89, 0x80]) 9))
    t.res.result = 0x43000000 ∧ t.ssink.data = [0x61, 0x62, 0x63, 0x64] ∧ t.br.total = 9 := by decide +kernel

/-- T-DEC-5's tree: a 1 bit in the single-symbol tree; and R203, the port of `Acquire` and `Get` of `BSRC`, of `Acquire`
and `Put` of `SSINK`. -/
theorem test_decRun_fails :
    (let t := after (exec .decRun (toDecode e2 [0x80]))
     t.res.result = 0x43000003 ∧ t.res.errinfo = 0x00060000 ∧ t.br.isOpen = false) ∧
    (after (exec .decRun (toDecode (e1With [true]) [0x89]))).res.errinfo = 0x00200000 ∧
    (after (exec .decRun (toDecode (e1With [false, true]) [0x89]))).res.errinfo = 0x00200000 ∧
    (after (exec .decRun (toDecode (e1With [false, false, true]) [0x89]))).res.errinfo = 0x00300000 ∧
    (after (exec .decRun (toDecode (e1With [false, false, false, true]) [0x89]))).res.errinfo = 0x00300000 := by
  decide +kernel

/-- T-REF-1, first row: the codes of E1. -/
theorem test_builders : buildTable (buildTree (fun _ _ => false) [(0x61, 5), (0x62, 2), (0x63, 1), (0x64, 1)]) =
    [(0x62, [false, false]), (0x63, [false, true, false]), (0x64, [false, true, true]), (0x61, [true])] := by decide

/-- S10: `Pack` of "abcd" under E1. -/
theorem test_pack : pack [true, false, false, false, true, false, false, true, true] = [0x89, 0x80] := by decide

/-! ### The tree and table of E1 are well formed (`95_test_vectors.md` section 1) -/

/-- The paths of E1 and the nodes at their ends. -/
def e1Paths : List (List Bool × NodeIdx) :=
  [([], 0), ([false], 1), ([true], 2), ([false, false], 3), ([false, true], 4), ([false, true, false], 5),
    ([false, true, true], 6)]

/-- The codes of E1. -/
def e1Codes : List (Symbol × List Bool) :=
  [(0x61, [true]), (0x62, [false, false]), (0x63, [false, true, false]), (0x64, [false, true, true])]

/-- The paths of E1 are these and no others. -/
theorem e1_walk {p : List Bool} {i : NodeIdx} (h : e1.walk e1.treeRoot p = some i) : (p, i) ∈ e1Paths := by
  rcases p with _ | ⟨a, _ | ⟨b, _ | ⟨c, _ | ⟨d, p⟩⟩⟩⟩
  · cases h; decide
  · cases a <;> (cases h; decide)
  · cases a <;> cases b <;> first | (cases h; decide) | cases h
  · cases a <;> cases b <;> cases c <;> first | (cases h; decide) | cases h
  · exfalso
    have hn : ∀ a b c d, e1.walk e1.treeRoot [a, b, c, d] = none := by decide
    rw [show a :: b :: c :: d :: p = [a, b, c, d] ++ p from rfl, State.walk_append, hn] at h
    cases h

/-- What the host's construction of E1 placed: every code is the path to its symbol, and no other path is a code. -/
theorem e1_treeCode (x : Symbol) (p : List Bool) : e1.TreeCode x p ↔ (x, p) ∈ e1Codes := by
  constructor
  · rintro ⟨i, h, hl⟩
    have hm := e1_walk h
    simp only [e1Paths, List.mem_cons, Prod.mk.injEq, List.not_mem_nil, or_false] at hm
    rcases hm with ⟨rfl, rfl⟩ | ⟨rfl, rfl⟩ | ⟨rfl, rfl⟩ | ⟨rfl, rfl⟩ | ⟨rfl, rfl⟩ | ⟨rfl, rfl⟩ | ⟨rfl, rfl⟩ <;>
      first | (cases hl; done) | (cases Option.some.inj hl; decide)
  · intro h
    simp only [e1Codes, List.mem_cons, Prod.mk.injEq, List.not_mem_nil, or_false] at h
    rcases h with ⟨rfl, rfl⟩ | ⟨rfl, rfl⟩ | ⟨rfl, rfl⟩ | ⟨rfl, rfl⟩
    · exact ⟨2, rfl, rfl⟩
    · exact ⟨3, rfl, rfl⟩
    · exact ⟨5, rfl, rfl⟩
    · exact ⟨6, rfl, rfl⟩

theorem e1_reach {i : NodeIdx} (h : e1.Reach i) : i ∈ ([0, 1, 2, 3, 4, 5, 6] : List NodeIdx) := by
  obtain ⟨p, hp⟩ := h
  have hm := e1_walk hp
  simp only [e1Paths, List.mem_cons, Prod.mk.injEq, List.not_mem_nil, or_false] at hm ⊢
  tauto

theorem e1_words : ∀ i ∈ ([0, 1, 2, 3, 4, 5, 6] : List NodeIdx), (e1.treeAt i).isSome := by decide

/-- Every internal node of E1 has both children. -/
theorem e1_children : ∀ i ∈ ([0, 1, 2, 3, 4, 5, 6] : List NodeIdx), e1.leafAt i = none →
    (e1.childAt i false).isSome ∧ (e1.childAt i true).isSome := by decide

/-- No two leaves of E1 carry the same symbol. -/
theorem e1_symbols : ∀ i ∈ ([0, 1, 2, 3, 4, 5, 6] : List NodeIdx), ∀ j ∈ ([0, 1, 2, 3, 4, 5, 6] : List NodeIdx),
    e1.leafAt i ≠ none → e1.leafAt i = e1.leafAt j → i = j := by decide

/-- No two paths of E1 end at the same node. -/
theorem e1_ends : ∀ a ∈ e1Paths, ∀ b ∈ e1Paths, a.2 = b.2 → a.1 = b.1 := by decide

theorem e1_wfTree : e1.WfTree where
  present := by decide
  written i h := e1_words i (e1_reach h)
  isTree p q i hp hq := e1_ends _ (e1_walk hp) _ (e1_walk hq) rfl
  rootInternal := by decide
  shape := by
    refine .inl ⟨fun i h hl b => ?_, 2, 3, by decide, ⟨[true], rfl⟩, ⟨[false, false], rfl⟩, by decide, by decide⟩
    have := e1_children i (e1_reach h) hl
    cases b
    · exact this.1
    · exact this.2
  symbols i j x hi hj h1 h2 := e1_symbols i (e1_reach hi) j (e1_reach hj) (by rw [h1]; exact Option.some_ne_none x) (by rw [h1, h2])

/-- A state with the tree of E1. -/
theorem e1_tree_walk {s : State} (ht : s.tree = e1.tree) (hc : s.cfg.treecfg = e1.cfg.treecfg) :
    s.treeRoot = e1.treeRoot ∧ (∀ p, s.walk s.treeRoot p = e1.walk e1.treeRoot p) ∧ (∀ i, s.Reach i ↔ e1.Reach i) ∧
      ∀ x p, s.TreeCode x p ↔ e1.TreeCode x p := by
  have hr : s.treeRoot = e1.treeRoot := by unfold State.treeRoot; rw [hc]
  have hw : ∀ p, s.walk s.treeRoot p = e1.walk e1.treeRoot p := fun p => by rw [hr, State.walk_congr ht]
  refine ⟨hr, hw, fun i => ?_, fun x p => ?_⟩
  · unfold State.Reach; simp only [hw]
  · unfold State.TreeCode; simp only [hw, State.leafAt, State.treeAt_congr ht]

theorem e1_tree_wf {s : State} (ht : s.tree = e1.tree) (hc : s.cfg.treecfg = e1.cfg.treecfg) : s.WfTree := by
  obtain ⟨hr, hw, hi, -⟩ := e1_tree_walk ht hc
  have hl : ∀ i, s.leafAt i = e1.leafAt i := fun i => by unfold State.leafAt; rw [State.treeAt_congr ht]
  have hb : ∀ i b, s.childAt i b = e1.childAt i b := fun i b => by unfold State.childAt; rw [State.treeAt_congr ht]
  refine ⟨?_, ?_, ?_, ?_, ?_, ?_⟩
  · unfold State.treePresent; rw [hc]; decide
  · simpa only [hi, State.treeAt_congr ht] using e1_wfTree.written
  · simpa only [hw] using e1_wfTree.isTree
  · rw [hr, hl]; exact e1_wfTree.rootInternal
  · unfold State.GeneralShape State.SingleShape
    simp only [hi, hl, hb, hr]; exact e1_wfTree.shape
  · simpa only [hi, hl] using e1_wfTree.symbols

theorem e1_headers : ∀ x : Symbol, (e1.ctabAt x 0).isSome = true ∧
    (∀ h, e1.ctabAt x 0 = some h → entryValid h = true → x ∈ e1Codes.map Prod.fst) := by
  have key : ∀ x : Symbol, (match e1.ctabAt x 0 with
      | some h => !entryValid h || decide (x ∈ e1Codes.map Prod.fst) | none => false) = true := by decide +kernel
  intro x
  have := key x
  split at this
  · rename_i h hx
    rw [hx]
    refine ⟨rfl, fun k hk hv => ?_⟩
    cases hk
    simpa [hv] using this
  · cases this

/-- The table of E1 holds the four codes. -/
theorem e1_entries : ∀ c ∈ e1Codes, ∀ h, e1.ctabAt c.1 0 = some h → e1.entryCode c.1 = some c.2 ∧ entryLen h = c.2.length := by
  have key : ∀ c ∈ e1Codes, (match e1.ctabAt c.1 0 with
      | some h => decide (e1.entryCode c.1 = some c.2 ∧ entryLen h = c.2.length) | none => false) = true := by
    decide +kernel
  intro c hc h hx
  have := key c hc
  rw [hx] at this
  exact of_decide_eq_true this

theorem e1_wfTable : e1.WfTable := by
  intro x
  obtain ⟨hs, hv⟩ := e1_headers x
  obtain ⟨h, hx⟩ := Option.isSome_iff_exists.1 hs
  refine ⟨h, hx, fun p _ hp => e1_entries _ ((e1_treeCode x p).1 hp) h hx, fun hn => ?_⟩
  cases hval : entryValid h
  · rfl
  · exfalso
    obtain ⟨c, hc, rfl⟩ := List.mem_map.1 (hv h hx hval)
    rcases hn with hn | hn
    · exact absurd hn (by decide)
    · exact hn ⟨c.2, (e1_treeCode _ _).2 hc⟩

theorem e1_table_wf {s : State} (ht : s.tree = e1.tree) (hc : s.cfg.treecfg = e1.cfg.treecfg) (hb : s.ctab = e1.ctab) :
    s.WfTable := by
  have hp : s.treePresent = e1.treePresent := by unfold State.treePresent; rw [hc]
  unfold State.WfTable
  simp only [State.ctabAt_congr hb, State.entryCode_congr hb, hp, (e1_tree_walk ht hc).2.2.2]
  exact e1_wfTable

/-! ### Witnesses: what each obligation assumes is met -/

theorem base_noFail {n : Nat} (h : n ≤ 40) : base.env.NoFail n :=
  (Environment.noFail_of_draws 40 base.env [] (by decide)).le h

theorem witness_StepRunsDecodedCommand :
    (State.reset.withFetchWord 32 0x6130).env.script = [.write 0x0000 0x00006130] ∧
      decode 0x00006130 = .ok (.encSym 0x61) := ⟨by decide, rfl⟩

theorem witness_StepTakesNextAction : State.reset.env.script = [] ∧
    (asking base [.read 0x0004]).env.script = [.read 0x0004] ∧ (∀ r, HostAction.hardReset ≠ .read r) ∧
    base.bsrc.held = false ∧ base.ssrc.held = false ∧ (reading base 0 0 0 []).bsrc.held = true ∧
    { base with ssrc := { held := true, data := [] } }.ssrc.held = true :=
  ⟨by decide, by decide, nofun, by decide, by decide, by decide, by decide⟩

/-- Two reads of one address, of a written word and of one never written. -/
theorem witness_StepTakesNextAction_reads :
    (asking e1 [.read 0x0800, .read 0x0800]).env.script = .read 0x0800 :: .read 0x0800 :: [] ∧
      (asking base [.read 0x0800, .read 0x0800]).treeAt 0 = none := by decide

theorem witness_IllegalWordOnlyRecords :
    (State.reset.withFetchWord 32 0x00000211).env.script = [.write 0x0000 0x00000211] ∧ legalWord 0x00000211 = false := by
  decide

/-- The clauses of the statement at the ends of their ranges. -/
theorem witness_ReservedAddressesAreInert :
    ∀ a ∈ ([0x0007, 0x0010, 0x07FF, 0x0A00, 0x0FFF, 0x2000, 0xFFFF, 0x1009, 0x100F, 0x1FF9, 0x1FFF] : List RegAddr),
      a = 0x0007 ∨ (0x0010 ≤ a.toNat ∧ a.toNat ≤ 0x07FF) ∨ (0x0A00 ≤ a.toNat ∧ a.toNat ≤ 0x0FFF) ∨
        0x2000 ≤ a.toNat ∨ (0x1000 ≤ a.toNat ∧ a.toNat < 0x2000 ∧ 9 ≤ a.toNat % 16) := by
  intro a h
  simp only [List.mem_cons, List.not_mem_nil, or_false] at h
  rcases h with rfl | rfl | rfl | rfl | rfl | rfl | rfl | rfl | rfl | rfl | rfl <;> simp

/-- Unlocked and locked, at both ends of the window, written and unwritten. -/
theorem witness_TreeWindow : e1.locked = false ∧ (reading e1 0xA0 8 0 []).locked = true ∧
    e1.treeAt 0 = some 0x60040400 ∧ e1.treeAt 511 = none ∧ base.treeAt 0 = none := by decide

theorem witness_TreeWindow_ends : locate (0x0800 + (0 : NodeIdx).setWidth 16) = .tree 0 ∧
    locate (0x0800 + (511 : NodeIdx).setWidth 16) = .tree 511 := by decide

/-- Words 0, 8, 9 and 15, of the first and the last entry. -/
theorem witness_CtabWindow : e1.ctabAt 0x00 0 = some 0 ∧ e1.ctabAt 0xFF 8 = none ∧
    locate (BitVec.ofNat 16 (0x1000 + 16 * (0xFF : Symbol).toNat + 8)) = .ctab (16 * 255 + 8) ∧
    locate (BitVec.ofNat 16 (0x1000 + 16 * (0x00 : Symbol).toNat + 9)) = .reserved ∧
    locate (BitVec.ofNat 16 (0x1000 + 16 * (0xFF : Symbol).toNat + 15)) = .reserved := by decide +kernel

theorem witness_ConfigRegisterWrites : State.reset.locked = false ∧ e1.locked = false := by decide

/-- Each unit open, and every range of addresses at its ends. -/
theorem witness_LockedWriteOnlyRecords : (writing base 0 0 0).bw.isOpen = true ∧ (reading base 0 0 0 []).br.isOpen = true ∧
    (decoding e1 0).dec.active = true := by decide

theorem witness_LockedWriteOnlyRecords_addresses :
    (∀ a ∈ ([0x0005, 0x0006, 0x0008, 0x0009, 0x0800, 0x09FF, 0x1000, 0x1008, 0x1FF0, 0x1FF8] : List RegAddr),
      a = 0x0005 ∨ a = 0x0006 ∨ a = 0x0008 ∨ a = 0x0009 ∨ (0x0800 ≤ a.toNat ∧ a.toNat ≤ 0x09FF) ∨
        (0x1000 ≤ a.toNat ∧ a.toNat ≤ 0x1FFF ∧ a.toNat % 16 ≤ 8)) := by
  intro a h
  simp only [List.mem_cons, List.not_mem_nil, or_false] at h
  rcases h with rfl | rfl | rfl | rfl | rfl | rfl | rfl | rfl | rfl | rfl <;> simp

/-- A write under the lock, and a command. -/
theorem witness_OpenSessionKeepsConfiguration :
    (∀ as ∈ ([[.write 0x0800 0], [.write 0x0000 0x10]] : List (List HostAction)),
      let s := asking (reading e1 0x89 8 0 []) as
      step s = .next (after (step s)) ∧ s.locked = true) ∧
    (∀ rest, (asking (reading e1 0x89 8 0 []) [.write 0x0800 0]).env.script ≠ .hardReset :: rest) := by
  refine ⟨?_, nofun⟩
  intro as h
  simp only [List.mem_cons, List.not_mem_nil, or_false] at h
  rcases h with rfl | rfl <;> exact ⟨rfl, rfl⟩

theorem witness_ResetLeavesSpecValues : (asking (reading e1 0x89 7 1 [0x80]) [.hardReset]).env.script = .hardReset :: [] := by
  decide

/-- The step of `BW.WRITEBIT` in the middle of a session. -/
theorem witness_StepKeepsUnitInvariants :
    let s := asking (writing base 0x80 1 1) [.write 0x0000 0x0111]
    s.UnitInv ∧ step s = .next (after (step s)) := by
  refine ⟨⟨by decide, nofun, fun _ => ⟨rfl, rfl⟩, rfl, rfl, rfl, rfl, fun _ => by decide, nofun, by decide⟩, rfl⟩

/-- The reader open, a session on the internal node 4. -/
theorem witness_StepKeepsPointerOffLeaves :
    let s := asking (decoding (reading e1 0x89 7 1 []) 4) [.write 0x0000 0x0041]
    s.PointerInv ∧ s.dec.active = true ∧ s.dec.node ≠ s.treeRoot ∧ step s = .next (after (step s)) :=
  ⟨fun _ _ => ⟨0x60140C00, by decide, by decide⟩, rfl, by decide, rfl⟩

theorem witness_StepKeepsMemoryCanonical :
    let s := asking e4 [.write 0x0805 0x80000061]
    s.memWf ∧ step s = .next (after (step s)) := ⟨by decide, rfl⟩

theorem witness_StepKeepsResultRegistersWellFormed :
    let s := asking e1 [.write 0x0000 0x0111]
    s.res.Wf ∧ step s = .next (after (step s)) := ⟨⟨by decide, by decide, by decide, by decide⟩, rfl⟩

theorem witness_ErrlogIsSticky :
    let s := asking { base with res := { base.res with errlog := 0x172 } } [.write 0x0000 0x0010]
    step s = .next (after (step s)) ∧ (∀ rest, s.env.script ≠ .hardReset :: rest) ∧
      (∀ rest, s.env.script ≠ .write 0x0000 0x00000001 :: rest) := by
  refine ⟨rfl, nofun, fun rest h => ?_⟩
  exact absurd (congrArg List.head? h) (show some (HostAction.write 0 0x0010) ≠ some (.write 0 0x00000001) by decide)

/-- Both columns of the table for a command of every unit. -/
theorem witness_BadStateTable : badStateWhen .decStart base = true ∧ badStateWhen .decStart (decoding e1 0) = true ∧
    badStateWhen .decStart e1 = false ∧ badStateWhen .bwOpen (writing base 0 0 0) = true ∧
    badStateWhen .bwOpen base = false ∧ badStateWhen (.encSym 0x61) base = true ∧
    badStateWhen .decRun (reading e1 0 0 0 []) = true ∧ exec .bwOpen base = .next (after (exec .bwOpen base)) := by
  refine ⟨by decide, by decide, by decide, by decide, by decide, by decide, by decide, rfl⟩

/-- The end of the source, and the limit. -/
theorem witness_EndOfStreamOnlyRecords :
    (∀ s ∈ [reading base 0 0 8 [], limit (reading base 0xA0 5 3 []) 3, decoding (reading e1 0 0 8 []) 0],
      s.br.isOpen = true ∧ ¬ (0 < s.br.cnt.toNat ∧ (s.cfg.rdctl = 0 ∨ s.br.total.toNat < s.cfg.rdlimit.toNat))) ∧
    (decoding (reading e1 0 0 8 []) 0).dec.active = true := by decide

/-- A command that ends OK, one that fails, and one with a noted second failure. -/
theorem witness_EveryCommandWritesResult :
    exec .bwOpen base = .next (after (exec .bwOpen base)) ∧
    (after (exec .bwOpen base)).res.result.extractLsb' 0 4 = 0 ∧
    exec .bwClose base = .next (after (exec .bwClose base)) ∧
    (after (exec .bwClose base)).res.result.extractLsb' 0 4 ≠ 0 := ⟨rfl, by decide, rfl, by decide⟩

theorem witness_EveryCommandWritesResult_noted :
    let t := after (exec (.encSym 0x65) (writing { e1 with env := failing.env } 0x80 1 1))
    t.res.result.extractLsb' 0 4 = 2 ∧ t.res.errlog = 0x6 := by decide +kernel

theorem witness_CommandsKeepConfiguration : exec .srst e1 = .next (after (exec .srst e1)) := rfl

theorem witness_WriterFrame : (∃ t, exec .bwOpen base = .next t) ∧ (∃ t, exec .bwClose (writing base 0x80 1 1) = .next t) ∧
    (∃ t, exec (.bwWritebit true) (writing base 0x80 1 1) = .next t) ∧ (∃ t, exec .encRun base = .next t) :=
  ⟨⟨_, rfl⟩, ⟨_, rfl⟩, ⟨_, rfl⟩, ⟨_, rfl⟩⟩

theorem witness_WriterFrame_encSym : (nextOf (exec (.encSym 0x61) (writing e1 0x80 1 1))).isSome = true := by
  decide +kernel

theorem witness_ReaderFrame : (∃ t, exec .brOpen (toDecode base [0x89]) = .next t) ∧
    (∃ t, exec .brHasnext (reading base 0x89 8 0 []) = .next t) ∧
    (∃ t, exec .brReadbit (reading base 0x89 8 0 []) = .next t) ∧
    (∃ t, exec .brClose (reading base 0x89 8 0 []) = .next t) := ⟨⟨_, rfl⟩, ⟨_, rfl⟩, ⟨_, rfl⟩, ⟨_, rfl⟩⟩

theorem witness_DecoderFrame : (∃ t, exec .decStart e1 = .next t) ∧
    (∃ t, exec .decBit (decoding (reading e1 0x89 8 0 []) 0) = .next t) ∧
    (∃ t, exec .decEnd (decoding e1 0) = .next t) ∧ (∃ t, exec .decRun (toDecode e1 [0x89, 0x80]) = .next t) :=
  ⟨⟨_, rfl⟩, ⟨_, rfl⟩, ⟨_, rfl⟩, ⟨_, rfl⟩⟩

/-- An encode with a tree in place, and a decode with a table in place. -/
theorem witness_EncoderIgnoresTreeDecoderIgnoresTable :
    (nextOf (exec .encRun (toEncode e1 [0x61, 0x64]))).isSome = true ∧
    (nextOf (exec .decRun (toDecode e1 [0x89, 0x80]))).isSome = true := by decide +kernel

/-- A state in which two words of `CTAB` are written, those of the entry of 'a'. -/
def onlyA : State := { base with ctab := [(0x610, 0x80000001), (0x611, 0x80000000)] }

/-- Every bit of a code at its place, from a check of the places. -/
theorem code_places {s : State} {x : Symbol} {code : List Bool}
    (h : ∀ i < code.length, (s.ctabAt x (1 + i / 32)).map (fun w => w.getLsbD (31 - i % 32)) = code[i]?) (i : Nat)
    (b : Bool) (hb : code[i]? = some b) : ∃ w, s.ctabAt x (1 + i / 32) = some w ∧ w.getLsbD (31 - i % 32) = b := by
  have := h i (List.getElem?_eq_some_iff.1 hb).1
  rw [hb] at this
  exact Option.map_eq_some_iff.1 this

/-- Every one of the four commands meets an unwritten word in some state. -/
theorem witness_UnwrittenWordsStop :
    faultOf (exec .decBit (decoding (reading base 0x89 8 0 []) 7)) = some (.unwrittenTree 7) ∧
    faultOf (exec .decRun { toDecode base [0x89] with cfg := { base.cfg with treecfg := 0x3FF } }) =
      some (.unwrittenTree 511) ∧
    faultOf (exec (.encSym 0x61) (writing base 0 0 0)) = some (.unwrittenCtab 0x61 0) ∧
    faultOf (exec .encRun { toEncode base [0x62] with ctab := [(0x620, 0x800000FF)] }) =
      some (.unwrittenCtab 0x62 1) := by decide +kernel

/-- `DEC.BIT`: the node unwritten, and the child that bit 1 leads to. -/
theorem witness_UnwrittenWordsStop_tree :
    (∀ s ∈ [decoding (reading base 0x89 8 0 []) 7, decoding (reading { e1 with tree := [(0, 0x60040400)] } 0x89 8 0 []) 0],
      s.dec.active = true ∧ s.br.isOpen = true ∧ s.hasNext = true ∧ s.br.cnt ≠ 1) ∧
    base.treeAt 7 = none ∧ { e1 with tree := [(0, 0x60040400)] }.treeAt 0 = some 0x60040400 ∧
    (0x60040400 : Word).getLsbD 31 = false ∧ (0x60040400 : Word).getLsbD 29 = true ∧
    (0x60040400 : Word).extractLsb' 9 9 = 2 ∧ { e1 with tree := [(0, 0x60040400)] }.treeAt 2 = none := by decide

/-- `DEC.RUN` on a tree whose root was never written. -/
theorem witness_UnwrittenWordsStop_decRun : ∃ u f, runOk [.brOpen, .decStart] (toDecode { e1 with tree := [] } [0x40]) = some u ∧
    u.hasNext = true ∧ exec .decBit u = .fault f := ⟨_, _, rfl, by decide, rfl⟩

/-- The header unwritten, the first code word, and the second, which holds the last of 33 bits. -/
theorem witness_UnwrittenWordsStop_table : base.FirstMissing 0x62 [] 0 ∧
    { base with ctab := [(0x620, 0x800000FF)] }.FirstMissing 0x62 [] 1 ∧
    { base with ctab := [(0x650, 0x80000021), (0x651, 0)] }.FirstMissing 0x65 (List.replicate 32 false) 2 ∧
    (writing base 0 0 0).bw.isOpen = true ∧ base.env.NoFail ((0 + (List.replicate 32 false).length) / 8) :=
  ⟨⟨by decide, .inl ⟨rfl, rfl⟩⟩, ⟨by decide, .inr ⟨rfl, 0x800000FF, by decide, by decide, by decide, nofun⟩⟩,
    ⟨by decide, .inr ⟨rfl, 0x80000021, by decide, by decide, by decide, code_places (by decide)⟩⟩, rfl,
    base_noFail (by decide)⟩

/-- `ENC.RUN` of "ab" where only the entry of 'a' is written. -/
theorem witness_UnwrittenWordsStop_encRun : (toEncode onlyA [0x61, 0x62]).bw.isOpen = false ∧
    (toEncode onlyA [0x61, 0x62]).ssrc.data = [0x61] ++ 0x62 :: [] ∧
    (toEncode onlyA [0x61, 0x62]).encodeBits [0x61] = some [true] ∧
    (toEncode onlyA [0x61, 0x62]).FirstMissing 0x62 [] 0 ∧ (toEncode onlyA [0x61, 0x62]).env.NoFail 4 :=
  ⟨rfl, rfl, by decide, ⟨by decide, .inl ⟨rfl, rfl⟩⟩, base_noFail (by decide)⟩

theorem e1_tableWritten : e1.TableWritten := by
  have key : ∀ x : Symbol, (match e1.ctabAt x 0 with
      | some h => !entryValid h || decide (∀ k ∈ List.range ((entryLen h + 31) / 32), (e1.ctabAt x (k + 1)).isSome)
      | none => false) = true := by decide +kernel
  intro x
  have := key x
  split at this
  · rename_i h hx
    refine ⟨h, hx, fun hv k h1 h2 => ?_⟩
    rw [hv] at this
    have hk := of_decide_eq_true (by simpa using this : decide _ = true)
    obtain ⟨j, rfl⟩ : ∃ j, k = j + 1 := ⟨k - 1, by omega⟩
    exact hk j (by omega)
  · cases this

/-- What R282 and R283 ask for, under E1. -/
theorem witness_WrittenCommandsComplete : e1.TableWritten ∧ e1.TreeWritten ∧ (decoding e1 4).TreeWritten ∧
    (decoding e1 4).Reach (decoding e1 4).dec.node :=
  ⟨e1_tableWritten, e1_wfTree.written, (e1_tree_wf (s := decoding e1 4) rfl rfl).written, [false, true], rfl⟩

/-- An encode of 'a' reads its entry and no other word; and a run of three actions. -/
theorem witness_WrittenCommandsComplete_written :
    (writing onlyA 0 0 0).writtenFor (.encSym 0x61) = true ∧ (toEncode onlyA [0x61]).writtenFor .encRun = true ∧
    (decoding (reading e4 0x89 8 0 []) 0).writtenFor .decBit = true ∧
    (asking onlyA [.write 0x0000 0x10, .write 0x0000 0x6130, .read 0x1610]).writtenRun 3 = true := by decide +kernel

/-- R297: one word read and not written, by a command and by the host, and `Written` does not hold. -/
theorem test_written_not : (writing onlyA 0 0 0).writtenFor (.encSym 0x62) = false ∧
    (asking onlyA [.write 0x0000 0x10, .write 0x0000 0x6230]).writtenRun 2 = false ∧
    (asking onlyA [.read 0x0800]).writtenRun 1 = false := by decide +kernel

/-- A run that opens and closes the writer, a host read in between: one answer is used up, and it is `ok`. -/
theorem witness_NoIoFailRunRecordsNoIoFailure :
    let s := asking (withDraws [false]) [.write 0x0000 0x10, .read 0x0004, .write 0x0000 0x12]
    s.NoIoFailRun 3 ∧ ∃ t, runSteps 3 s = .next t ∧ s.env.answersUntil t.env = 1 := by
  refine ⟨fun m hm t h => ?_, _, rfl, rfl⟩
  have : m = 0 ∨ m = 1 ∨ m = 2 ∨ m = 3 := by omega
  rcases this with rfl | rfl | rfl | rfl <;> cases h <;> first | exact trivial | exact ⟨rfl, trivial⟩

/-- R297, log 2: past the fixed answers the next port operation asks for the same answer, whatever lies before it. -/
theorem test_answers : (after (step (asking State.reset [.write 0x0005 0, .write 0x0000 0x10]))).env.fails =
    State.reset.env.fails ∧ (after (step (asking base [.write 0x0000 0x10]))).env.answered = 1 := ⟨rfl, by decide⟩

theorem base_idle : base.Idle := ⟨rfl, rfl, rfl, rfl, rfl, rfl, rfl⟩

theorem witness_RunsReleaseEverything : base.Idle ∧ (∃ t, exec .encRun base = .next t) ∧
    (toDecode e2 [0x80]).Idle ∧ (∃ t, exec .decRun (toDecode e2 [0x80]) = .next t) :=
  ⟨base_idle, ⟨_, rfl⟩, ⟨rfl, rfl, rfl, rfl, rfl, rfl, rfl⟩, ⟨_, rfl⟩⟩

theorem witness_RunsReleaseEverything_ok : ∃ t, exec .encRun base = .next t ∧ t.res.result.extractLsb' 0 4 = 0 :=
  ⟨_, rfl, by decide⟩

/-- R298: after one `BW.OPEN` the log is empty, but the end is not final, so it is not clean. -/
theorem test_clean_not : (after (exec .bwOpen base)).res.errlog = 0 ∧ ¬ base.CleanSince (after (exec .bwOpen base)) :=
  ⟨by decide, fun h => absurd h.final.writer (by decide)⟩

theorem witness_NopOnlyWritesResult : (0x00000100 : Word).extractLsb' 0 8 = 0x00 ∧ (0x00000100 : Word) ≠ 0 := by decide

theorem witness_SoftResetEffect : (0x00010001 : Word).extractLsb' 0 8 = 0x01 ∧ (0x00010001 : Word) ≠ 1 := by decide

theorem witness_BwOpenStartsWriter : base.bw.isOpen = false ∧ base.env.fails = false ∧ failing.bw.isOpen = false ∧
    failing.env.fails = true := by decide

/-- A bit that is not the last of its byte (places 7 and 1), and the eighth. -/
theorem witness_BwWritebitPlacesBit : (writing base 0 0 0).bw.isOpen = true ∧ (writing base 0 0 0).bw.cnt.toNat < 7 ∧
    (writing base 0 6 6).bw.cnt.toNat < 7 ∧ (writing base 0xFE 7 7).bw.cnt = 7 ∧
    (writing base 0xFE 7 7).env.fails = false ∧ (writing failing 0xFE 7 7).bw.cnt = 7 ∧
    (writing failing 0xFE 7 7).env.fails = true := by decide

theorem witness_BwCloseFlushesPartialByte : (writing base 0 0 8).bw.isOpen = true ∧ (writing base 0 0 8).bw.cnt = 0 ∧
    (writing base 0x80 1 1).bw.cnt ≠ 0 ∧ (writing base 0x80 1 1).env.fails = false ∧
    (writing failing 0xFE 7 7).bw.cnt ≠ 0 ∧ (writing failing 0xFE 7 7).env.fails = true := by decide

/-- The nine bits of T-BW-2. -/
def nineBits : List Bool := [true, false, false, false, true, false, false, true, true]

theorem witness_WriterOutputLaw : base.bw.isOpen = false ∧ nineBits.length < 2 ^ 64 ∧
    base.env.NoFail (1 + (nineBits.length + 7) / 8) := ⟨rfl, by decide, base_noFail (by decide)⟩

/-- The acquisition fails, the read-ahead fails, a byte, and an empty source. -/
theorem witness_BrOpenReadsAhead : failing.br.isOpen = false ∧ failing.env.fails = true ∧
    (withDraws [false, true]).env.fails = false ∧ (withDraws [false, true]).env.advance.fails = true ∧
    base.env.fails = false ∧ base.env.advance.fails = false ∧ (toDecode base [0x89, 0x80]).bsrc.data = [0x89, 0x80] ∧
    base.bsrc.data = [] := by decide

/-- With no limit, one bit below it and at it. -/
theorem witness_BrHasnextAnswers : (reading base 0xA0 8 0 []).br.isOpen = true ∧
    (∀ s ∈ [reading base 0xA0 8 0 [], limit (reading base 0xA0 6 2 []) 3],
      0 < s.br.cnt.toNat ∧ (s.cfg.rdctl = 0 ∨ s.br.total.toNat < s.cfg.rdlimit.toNat)) ∧
    (∀ s ∈ [reading base 0 0 8 [], limit (reading base 0xA0 5 3 []) 3],
      ¬ (0 < s.br.cnt.toNat ∧ (s.cfg.rdctl = 0 ∨ s.br.total.toNat < s.cfg.rdlimit.toNat))) := by decide

/-- A bit that is not the last of its byte, and the last with a byte behind it, none, and a failure. -/
theorem witness_BrReadbitHandsOutBit : (reading base 0x89 8 0 [0x80]).hasNext = true ∧ (reading base 0x89 8 0 [0x80]).br.cnt ≠ 1 ∧
    (reading base 0x89 2 6 [0x80]).br.cnt ≠ 1 ∧ (reading base 0x89 1 7 [0x80]).br.cnt = 1 ∧
    (reading base 0x89 1 7 [0x80]).hasNext = true ∧ (reading base 0x89 1 7 [0x80]).env.fails = false ∧
    (reading base 0x89 1 7 [0x80]).bsrc.data = [0x80] ∧ (reading base 0x89 1 7 []).bsrc.data = [] ∧
    (reading failing 0x89 1 7 []).hasNext = true ∧ (reading failing 0x89 1 7 []).env.fails = true := by decide

theorem witness_BrCloseReleasesSource : (reading base 0x89 8 0 [0x80]).br.isOpen = true := rfl

/-- Sixteen bits with no limit, and nine of nine. -/
theorem witness_ReaderOutputLaw : (toDecode base [0x89, 0x80]).br.isOpen = false ∧
    16 ≤ 8 * (toDecode base [0x89, 0x80]).bsrc.data.length ∧ (toDecode base [0x89, 0x80]).limited = false ∧
    (limit (toDecode base [0x89, 0x80]) 9).limited = true ∧
    9 ≤ (limit (toDecode base [0x89, 0x80]) 9).cfg.rdlimit.toNat ∧ base.env.NoFail (2 + 16 / 8) ∧
    unpack (toDecode base [0x89, 0x80]).bsrc.data ≠ [] :=
  ⟨by decide, by decide, by decide, by decide, by decide, base_noFail (by decide), by decide⟩

/-- The nine bits of program P1, read back with the limit and without. -/
theorem witness_WriterReaderGuarantee :
    ∃ t, runCommands (.bwOpen :: nineBits.map .bwWritebit ++ [.bwClose]) base = some t ∧
      t.bsink.data = [0x89, 0x80] ∧ t.env.NoFail (2 + (nineBits.length + 7) / 8) ∧
      (⟨0, 1, 9⟩ : ConfigRegs).rdlimit = BitVec.ofNat 64 nineBits.length := by
  refine ⟨_, rfl, by decide, ?_, by decide⟩
  exact ((Environment.noFail_of_draws 37 _ [] (by decide))).le (by decide)

/-- The nine bits with no limit, the seven pad bits after them, and what stands at both ends. -/
theorem witness_WriterReaderGuarantee_unlimited :
    (⟨0, 0, 0⟩ : ConfigRegs).rdctl = 0 ∧
    (let pad := List.replicate ((8 - nineBits.length % 8) % 8) false
     16 ≤ (nineBits ++ pad).length ∧ (nineBits ++ pad)[0]? = some true ∧ (nineBits ++ pad)[15]? = some false) := by decide

/-- T-ENC-1: 'd' with six bits pending; the `Put` answers `ok`, and `fail`. -/
theorem witness_EncSymWritesCode :
    (∀ s ∈ [writing e1 0x88 6 6, writing (e1With [true]) 0x88 6 6],
      s.bw.isOpen = true ∧ (∀ k, k < 8 - s.bw.cnt.toNat → s.bw.acc.getLsbD k = false) ∧
        s.ctabAt 0x64 0 = some 0x80000003) ∧
    (0x80000003 : Word).getLsbD 31 = true ∧ [false, true, true].length = ((0x80000003 : Word).extractLsb' 0 8).toNat ∧
    (writing (e1With [true]) 0x88 6 6).env.NoFail 0 ∧
    ((writing (e1With [true]) 0x88 6 6).env.advanceN 0).fails = true :=
  ⟨by decide +kernel, by decide, by decide, trivial, by decide⟩

theorem witness_EncSymWritesCode_code : (writing e1 0x88 6 6).env.NoFail 1 ∧
    ∀ i b, [false, true, true][i]? = some b →
      ∃ w, (writing e1 0x88 6 6).ctabAt 0x64 (1 + i / 32) = some w ∧ w.getLsbD (31 - i % 32) = b :=
  ⟨base_noFail (by decide), code_places (by decide +kernel)⟩

/-- A code of 33 bits, whose last is the first of the second code word. -/
theorem witness_EncSymWritesCode_long :
    let s := { base with ctab := [(0x650, 0x80000021), (0x651, 0), (0x652, 0x80000000)] }
    let code := List.replicate 32 false ++ [true]
    s.ctabAt 0x65 0 = some 0x80000021 ∧ code.length = ((0x80000021 : Word).extractLsb' 0 8).toNat ∧
    ∀ i b, code[i]? = some b → ∃ w, s.ctabAt 0x65 (1 + i / 32) = some w ∧ w.getLsbD (31 - i % 32) = b :=
  ⟨by decide, by decide, code_places (by decide)⟩

/-- 'e' under E1, with no bit pending, with one, and with a flush that fails. -/
theorem witness_EncSymUnknownSymbol :
    (∀ s ∈ [writing e1 0 0 8, writing e1 0x80 1 1, writing { e1 with env := failing.env } 0x80 1 1],
      s.bw.isOpen = true ∧ s.ctabAt 0x65 0 = some 0 ∧ (0 : Word).getLsbD 31 = false) ∧
    (writing e1 0 0 8).bw.cnt = 0 ∧ (writing e1 0x80 1 1).bw.cnt ≠ 0 ∧ (writing e1 0x80 1 1).env.fails = false ∧
    (writing { e1 with env := failing.env } 0x80 1 1).env.fails = true := by decide +kernel

/-- "abcd" under E1. -/
theorem witness_EncoderOutputLaw :
    let s := toEncode e1 [0x61, 0x62, 0x63, 0x64]
    s.bw.isOpen = false ∧ s.encodeBits s.ssrc.data = some nineBits ∧
      s.env.NoFail (2 + (s.ssrc.data.length + 1) + (nineBits.length + 7) / 8) :=
  ⟨rfl, by decide +kernel, base_noFail (by decide)⟩

/-- The acquisitions fail. -/
theorem witness_EncRunFailures : failing.bw.isOpen = false ∧ failing.env.fails = true ∧
    (withDraws [false, true]).env.fails = false ∧ (withDraws [false, true]).env.advance.fails = true := by decide

/-- `Get` fails with no bit pending; with one pending, whose flush succeeds, and fails; the close fails after "a". -/
theorem witness_EncRunFailures_get :
    e1.encodeBits [] = some [] ∧ e1.encodeBits [0x61] = some [true] ∧
    ((withDraws [false, false, true]).env.NoFail 2 ∧ ((withDraws [false, false, true]).env.advanceN 2).fails = true) ∧
    (∀ f : Bool,
      let e := (withDraws [false, false, false, true, f]).env
      e.NoFail 3 ∧ (e.advanceN 3).fails = true ∧ (e.advanceN 3).advance.fails = f) ∧
    (let e := (withDraws [false, false, false, false, true]).env;
      e.NoFail 3 ∧ (e.advanceN 3).fails = false ∧ (e.advanceN 3).advance.fails = true) := by
  refine ⟨rfl, by decide +kernel, ⟨⟨rfl, rfl, trivial⟩, rfl⟩, fun f => ⟨⟨rfl, rfl, rfl, trivial⟩, rfl, rfl⟩,
    ⟨rfl, rfl, rfl, trivial⟩, rfl, rfl⟩

/-- T-ENC-3a: 'e' after "ab", its flush ok and failing, and as the first symbol. -/
theorem witness_EncRunFailures_unknown :
    (toEncode e1 [0x61, 0x62, 0x65, 0x62]).ssrc.data = [0x61, 0x62] ++ 0x65 :: [0x62] ∧
    e1.encodeBits [0x61, 0x62] = some [true, false, false] ∧ e1.ctabAt 0x65 0 = some 0 ∧
    (0 : Word).getLsbD 31 = false ∧
    (∀ f : Bool,
      let e := (withDraws [false, false, false, false, false, f]).env
      e.NoFail 4 ∧ (e.advanceN 4).fails = false ∧ (e.advanceN 4).advance.fails = f) ∧
    (base.env.NoFail 2 ∧ (base.env.advanceN 2).fails = false) := by
  refine ⟨rfl, by decide +kernel, by decide +kernel, rfl, fun f => ⟨⟨rfl, rfl, rfl, rfl, trivial⟩, rfl, rfl⟩,
    ⟨rfl, rfl, trivial⟩, rfl⟩

/-- T-ENC-10: 'd' after "abc", six bits pending, and the `Put` of the first byte fails. -/
theorem witness_EncRunFailures_put :
    let e := (withDraws [false, false, false, false, false, false, true]).env
    e1.encodeBits [0x61, 0x62, 0x63] = some [true, false, false, false, true, false] ∧
    e1.entryCode 0x64 = some [false, true, true] ∧ 0 < (6 % 8 + [false, true, true].length) / 8 ∧ e.NoFail 5 ∧
    (e.advanceN 5).fails = false ∧ ((e.advanceN 5).advance.advanceN 0).fails = true :=
  ⟨by decide +kernel, by decide +kernel, by decide, ⟨rfl, rfl, rfl, rfl, rfl, trivial⟩, rfl, rfl⟩

theorem witness_DecStartAtRoot : e1.dec.active = false ∧ e1.cfg.treecfg.getLsbD 9 = true ∧ e1.env.fails = false ∧
    { e1 with env := failing.env }.env.fails = true := by decide

/-- The next bit 0 leads from the root to node 1, an internal node, with a symbol sink that would fail; 1 leads to node 2,
a leaf; in E2 1 leads nowhere, with a symbol sink that would fail; and the last bit of a byte. -/
theorem witness_DecBitFollowsEdge :
    (∀ s ∈ [decoding (reading (e1With [true]) 0x09 8 0 []) 0, decoding (reading e1 0x89 8 0 []) 0,
        decoding (reading { e2 with env := failing.env } 0x80 8 0 []) 0, decoding (reading e1 0x88 1 7 [0x80]) 0],
      s.dec.active = true ∧ s.br.isOpen = true ∧ s.hasNext = true ∧ (s.br.cnt = 1 → s.env.fails = false) ∧
        (s.treeAt s.dec.node).isSome) ∧
    (e1With [true]).env.fails = true ∧ e1.env.fails = false ∧ e1.env.advance.fails = false ∧
    e1.treeAt 0 = some 0x60040400 ∧ (0x60040400 : Word).getLsbD 31 = false ∧ (0x60040400 : Word).getLsbD 30 = true ∧
    (0x60040400 : Word).getLsbD 29 = true ∧ (0x60040400 : Word).extractLsb' 18 9 = 1 ∧
    (0x60040400 : Word).extractLsb' 9 9 = 2 ∧ e1.treeAt 1 = some 0x600C0800 ∧ (0x600C0800 : Word).getLsbD 31 = false ∧
    e1.treeAt 2 = some 0x80000061 ∧ (0x80000061 : Word).getLsbD 31 = true ∧
    e2.treeAt 0 = some 0x40040000 ∧ (0x40040000 : Word).getLsbD 29 = false := by decide

/-- The last bit of a byte, its read-ahead failing; the `Put` failing at a leaf, before the last bit and at it. -/
theorem witness_DecBitIoFailures :
    (let s := decoding (reading (e1With [true]) 0x89 1 7 [0x80]) 0;
      s.dec.active = true ∧ s.br.isOpen = true ∧ s.hasNext = true ∧ s.env.fails = true ∧ s.br.cnt = 1) ∧
    (let s := decoding (reading (e1With [true]) 0x89 8 0 []) 0;
      s.hasNext = true ∧ s.env.fails = true ∧ s.br.cnt ≠ 1 ∧ s.treeAt s.dec.node = some 0x60040400 ∧
        s.br.byte.getLsbD (s.br.cnt.toNat - 1) = true) ∧
    (let s := decoding (reading (e1With [false, true]) 0x89 1 7 [0x80]) 0;
      s.hasNext = true ∧ s.env.fails = false ∧ s.env.advance.fails = true ∧ s.br.cnt = 1 ∧
        s.treeAt s.dec.node = some 0x60040400 ∧ s.br.byte.getLsbD (s.br.cnt.toNat - 1) = true) ∧
    (0x60040400 : Word).getLsbD 31 = false ∧ (0x60040400 : Word).getLsbD 29 = true ∧
    e1.treeAt ((0x60040400 : Word).extractLsb' 9 9) = some 0x80000061 ∧ (0x80000061 : Word).getLsbD 31 = true := by
  decide

theorem witness_DecEndChecksRoot : (decoding e1 0).dec.active = true ∧
    (decoding e1 0).dec.node = (decoding e1 0).cfg.treecfg.extractLsb' 0 9 ∧
    (decoding e1 4).dec.node ≠ (decoding e1 4).cfg.treecfg.extractLsb' 0 9 ∧ (decoding e1 4).br.isOpen = false ∧
    (decoding (reading e1 0 0 8 []) 4).br.isOpen = true := by decide

/-- The codes of "abcd" under E1: nine bits. -/
def codesAbcd : List (List Bool) := [[true], [false, false], [false, true, false], [false, true, true]]

theorem e1_abcd {s : State} (ht : s.tree = e1.tree) (hc : s.cfg.treecfg = e1.cfg.treecfg) :
    List.Forall₂ s.TreeCode [0x61, 0x62, 0x63, 0x64] codesAbcd := by
  have h : ∀ x p, (x, p) ∈ e1Codes → s.TreeCode x p := fun x p k =>
    ((e1_tree_walk ht hc).2.2.2 x p).2 ((e1_treeCode x p).2 k)
  exact .cons (h _ _ (by decide)) (.cons (h _ _ (by decide)) (.cons (h _ _ (by decide)) (.cons (h _ _ (by decide)) .nil)))

/-- The three draws before the first bit. -/
theorem witness_DecRunFollowsSteps : e1.dec.active = false ∧ e1.br.isOpen = false ∧
    e1.cfg.treecfg.getLsbD 9 = true ∧ (e1With [true]).env.fails = true ∧ (e1With [false, true]).env.fails = false ∧
    (e1With [false, true]).env.advance.fails = true ∧ (e1With [false, false, true]).env.NoFail 2 ∧
    ((e1With [false, false, true]).env.advanceN 2).fails = true ∧ e1.env.NoFail 3 :=
  ⟨rfl, rfl, by decide, rfl, rfl, rfl, ⟨rfl, rfl, trivial⟩, rfl, base_noFail (by decide)⟩

/-- The commands that `DEC.RUN` does before it stops. -/
def steps (n : Nat) : List Instr := .brOpen :: .decStart :: List.replicate n .decBit

/-- The second bit leads nowhere in E4; the root was never written; nine bits end at the root of E1; one bit does not. -/
theorem witness_DecRunFollowsSteps_ends :
    (∃ u t, runOk (steps 1) (toDecode e4 [0x40]) = some u ∧ u.hasNext = true ∧ exec .decBit u = .next t ∧
      t.res.result.extractLsb' 0 4 ≠ 0) ∧
    (∃ u f, runOk (steps 0) (toDecode { e1 with tree := [] } [0x40]) = some u ∧ u.hasNext = true ∧
      exec .decBit u = .fault f) ∧
    (∃ u t, runOk (steps 9) (limit (toDecode e1 [0x89, 0x80]) 9) = some u ∧ u.hasNext = false ∧
      exec .decEnd u = .next t ∧ t.res.result.extractLsb' 0 4 = 0) ∧
    (∃ u t, runOk (steps 1) (limit (toDecode e1 [0x00]) 1) = some u ∧ u.hasNext = false ∧
      exec .decEnd u = .next t ∧ t.res.result.extractLsb' 0 4 ≠ 0) :=
  ⟨⟨_, _, rfl, by decide, rfl, by decide⟩, ⟨_, _, rfl, by decide, rfl⟩, ⟨_, _, rfl, by decide, rfl, by decide⟩,
    ⟨_, _, rfl, by decide, rfl, by decide⟩⟩

/-- Under the limit of nine bits. -/
theorem witness_DecoderOutputLaw :
    let s := limit (toDecode e1 [0x89, 0x80]) 9
    s.WfTree ∧ s.dec.active = false ∧ s.br.isOpen = false ∧
      List.Forall₂ s.TreeCode [0x61, 0x62, 0x63, 0x64] codesAbcd ∧ codesAbcd.flatten.length < 2 ^ 64 ∧
      s.bsrc.data = pack codesAbcd.flatten ∧ s.Limit (BitVec.ofNat 64 codesAbcd.flatten.length) ∧
      s.env.NoFail (3 + 4 + codesAbcd.flatten.length / 8) :=
  ⟨e1_tree_wf rfl rfl, rfl, rfl, e1_abcd rfl rfl, by decide, by decide, ⟨by decide, by decide⟩, base_noFail (by decide)⟩

/-- With no limit, "bbbb": eight bits, no pad bit. -/
theorem witness_DecoderOutputLaw_unlimited :
    let s := toDecode e1 [0x00]
    s.WfTree ∧ List.Forall₂ s.TreeCode (List.replicate 4 0x62) (List.replicate 4 [false, false]) ∧
      s.bsrc.data = pack (List.replicate 4 [false, false]).flatten ∧ s.limited = false ∧
      (List.replicate 4 [false, false]).flatten.length % 8 = 0 := by
  have h : (toDecode e1 [0x00]).TreeCode 0x62 [false, false] :=
    ((e1_tree_walk (s := toDecode e1 [0x00]) rfl rfl).2.2.2 _ _).2 ((e1_treeCode _ _).2 (by decide))
  exact ⟨e1_tree_wf rfl rfl, .cons h (.cons h (.cons h (.cons h .nil))), by decide, by decide, by decide⟩

/-- "abcd" with no limit: seven pad bits follow. -/
theorem witness_UnlimitedDecodeReadsPadBits :
    let s := toDecode e1 [0x89, 0x80]
    s.WfTree ∧ s.dec.active = false ∧ s.br.isOpen = false ∧
      List.Forall₂ s.TreeCode [0x61, 0x62, 0x63, 0x64] codesAbcd ∧ codesAbcd.flatten.length < 2 ^ 64 ∧
      0 < codesAbcd.flatten.length % 8 ∧ s.bsrc.data = pack codesAbcd.flatten ∧ s.limited = false ∧
      s.env.NoFail (10 + 4 + (codesAbcd.flatten.length + 7) / 8) :=
  ⟨e1_tree_wf rfl rfl, rfl, rfl, e1_abcd rfl rfl, by decide, by decide, by decide, by decide, base_noFail (by decide)⟩

theorem witness_EmptyInputIsNoFailure : base.dec.active = false ∧ base.br.isOpen = false ∧
    base.cfg.treecfg.getLsbD 9 = false ∧ base.bw.isOpen = false ∧ base.ssrc.data = [] ∧ base.env.NoFail 3 :=
  ⟨rfl, rfl, by decide, rfl, rfl, base_noFail (by decide)⟩

/-- E2: the tree, a 0 bit and a 1 bit at the root, and five copies of its symbol with no limit. -/
theorem witness_SingleSymbolTree : e2.treePresent = true ∧ e2.leafAt e2.treeRoot = none ∧
    e2.childAt e2.treeRoot false = some 1 ∧ e2.leafAt 1 = some 0x61 ∧ e2.childAt e2.treeRoot true = none ∧
    (decoding (reading e2 0x80 8 0 []) 0).hasNext = true ∧ (decoding (reading e2 0x80 8 0 []) 0).dec.node = e2.treeRoot ∧
    (reading e2 0x80 7 1 []).br.byte.getLsbD (7 - 1) = false ∧ (reading e2 0x80 8 0 []).br.byte.getLsbD (8 - 1) = true ∧
    e2.limited = false ∧ (toDecode e2 [0x00]).bsrc.data = pack (List.replicate 5 false) ∧
    e2.env.NoFail (3 + 9 * ((5 + 7) / 8)) :=
  ⟨by decide, by decide, by decide, by decide, by decide, by decide, by decide, by decide, by decide, by decide, by decide,
    base_noFail (by decide)⟩

theorem witness_TreeCodesPrefixFree : e1.WfTree ∧ e1.TreeCode 0x61 [true] ∧ e1.TreeCode 0x62 [false, false] ∧
    (0x61 : Symbol) ≠ 0x62 :=
  ⟨e1_wfTree, (e1_treeCode _ _).2 (by decide), (e1_treeCode _ _).2 (by decide), by decide⟩

/-- Programs P2 and P3: "abcd" under E1. -/
theorem witness_EncodeDecodeRoundTrip :
    let s := toEncode e1 [0x61, 0x62, 0x63, 0x64]
    s.Idle ∧ s.WfTree ∧ s.WfTable ∧ List.Forall₂ s.TreeCode s.ssrc.data codesAbcd ∧ codesAbcd.flatten.length < 2 ^ 64 ∧
      s.env.NoFail (6 + 2 * s.ssrc.data.length + (codesAbcd.flatten.length + 7) / 8 + codesAbcd.flatten.length / 8) :=
  ⟨⟨rfl, rfl, rfl, rfl, rfl, rfl, rfl⟩, e1_tree_wf rfl rfl, e1_table_wf rfl rfl rfl, e1_abcd rfl rfl, by decide, base_noFail (by decide)⟩

theorem witness_BuiltTableIsPrefixFree :
    (([(0x61, 5), (0x62, 2), (0x63, 1), (0x64, 1)] : List (Symbol × Nat)).map Prod.fst).Nodup := by decide

end Sys2Proof.Tests
end

/-! ## Proofs: the statements of `00_scope.md` -/

namespace Sys2Proof.Machine

/-! ### What a command's procedure changes (R2, R10, R262) -/

/-- What no command changes: the memories, the configuration, and what the host is about to do and has read. -/
structure State.SameSetup (s t : State) : Prop where
  cfg : t.cfg = s.cfg
  tree : t.tree = s.tree
  ctab : t.ctab = s.ctab
  env : s.env.SameHost t.env

theorem State.DecoderOnly.sameSetup {s t : State} (h : s.DecoderOnly t) : s.SameSetup t :=
  ⟨h.cfg, h.tree, h.ctab, h.env⟩

theorem State.EncoderOnly.sameSetup {s t : State} (h : s.EncoderOnly t) : s.SameSetup t :=
  ⟨h.cfg, h.tree, h.ctab, h.env⟩

theorem State.SameSetup.finish {s : State} {r : Res Reply} (h : s.SameSetup r.state) (opc : BitVec 8) :
    s.SameSetup (State.finish opc r) := by
  rw [State.finish_eq]; exact ⟨h.cfg, h.tree, h.ctab, h.env⟩

/-- A procedure stays on the reader's and decoder's side, or on the writer's; on the writer's it may note a second
failure, but not if it returns (R262). -/
def State.OneSide {α : Type} (s : State) (r : Res α) : Prop :=
  s.DecoderOnly r.state ∨ s.EncoderOnly r.state ∧ ∀ a t, r = .ok a t → t.res = s.res

/-- A command refused before it did anything. -/
theorem State.OneSide.unchanged {α : Type} {s : State} {r : Res α} (h : r.state = s) : s.OneSide r :=
  .inl (h ▸ .refl _)

/-- On the writer's side, a procedure that notes nothing whichever way it ends. -/
theorem State.OneSide.writer {α : Type} {s : State} {r : Res α} (h : s.EncoderOnly r.state)
    (hr : r.state.res = s.res) : s.OneSide r :=
  .inr ⟨h, fun _ _ e => by rw [e] at hr; exact hr⟩

/-- Turning the value of a procedure into the command's reply changes no state. -/
theorem State.OneSide.reply {α : Type} {s : State} {r : Res α} (h : s.OneSide r) (f : α → Reply) :
    s.OneSide (r.andThen fun a t => .ok (f a) t) := by
  rw [State.OneSide, Res.andThen_state]
  refine h.imp_right fun ⟨hf, hr⟩ => ⟨hf, fun b t e => ?_⟩
  cases r with
  | ok a u => cases e; exact hr a t rfl
  | raised e' u => cases e

theorem State.OneSide.sameSetup {α : Type} {s : State} {r : Res α} (h : s.OneSide r) : s.SameSetup r.state :=
  h.elim (·.sameSetup) (·.1.sameSetup)

theorem State.OneSide.notedIo {α : Type} {s : State} {r : Res α} (h : s.OneSide r) : s.res.NotedIo r.state.res :=
  h.elim (fun d => .inl d.res) (·.1.res)

theorem State.OneSide.res_of_ok {α : Type} {s t : State} {a : α} (h : s.OneSide (.ok a t)) : t.res = s.res :=
  h.elim (·.res) fun e => e.2 a t rfl

/-- R261: every command but `SRST` stays on one side of the block. -/
theorem procedure_oneSide {i : Instr} {s : State} {r : Res Reply} (hi : i ≠ .srst) (h : procedure i s = .ok r) :
    s.OneSide r := by
  cases i with
  | nop => cases h; exact .unchanged rfl
  | srst => exact absurd rfl hi
  | bwOpen =>
    cases h; split
    exacts [.unchanged rfl, State.OneSide.reply (.writer (openWriter_frame s) (openWriter_res s)) _]
  | bwWritebit b =>
    cases h; split
    exacts [State.OneSide.reply (.writer (writeBit_frame b s) (writeBit_res b s)) _, .unchanged rfl]
  | bwClose =>
    cases h; split
    · have hf := closeWriter_frame s
      have hr := closeWriter_res s
      split <;> rename_i t ht <;> rw [ht] at hf hr <;> exact .writer hf hr
    · exact .unchanged rfl
  | brOpen =>
    cases h; split
    exacts [.unchanged rfl, State.OneSide.reply (.inl (openReader_frame s).1) _]
  | brHasnext => cases h; split <;> exact .unchanged rfl
  | brReadbit =>
    cases h; split
    · split
      exacts [State.OneSide.reply (.inl (readBit_frame s).1) _, .unchanged rfl]
    · exact .unchanged rfl
  | brClose =>
    cases h; split
    exacts [.inl (closeReader_frame s).1, .unchanged rfl]
  | encSym x =>
    simp only [procedure] at h
    split at h
    · cases hq : encSym x s with
      | error f => rw [hq] at h; cases h
      | ok q =>
        rw [hq] at h; cases h
        exact State.OneSide.reply (.inr ⟨(encSym_frame hq).1, fun _ _ e => encSym_res (hq.trans (congrArg _ e))⟩) _
    · cases h; exact .unchanged rfl
  | encRun => exact .inr ⟨encRun_frame h, fun _ _ e => encRun_res (h.trans (congrArg _ e))⟩
  | decStart =>
    cases h; split
    exacts [.unchanged rfl, State.OneSide.reply (.inl (startDecode_frame s).1) _]
  | decBit =>
    simp only [procedure] at h
    split at h
    · cases h; exact .unchanged rfl
    · split at h
      · exact .inl (decBit_frame h)
      · cases h; exact .unchanged rfl
  | decEnd =>
    cases h; split
    exacts [State.OneSide.reply (.inl (endDecode_frame s)) _, .unchanged rfl]
  | decRun => exact .inl (decRun_frame h)

theorem procedure_sameSetup {i : Instr} {s : State} {r : Res Reply} (h : procedure i s = .ok r) :
    s.SameSetup r.state := by
  by_cases hi : i = .srst
  · subst hi; cases h; exact ⟨rfl, rfl, rfl, .refl _⟩
  · exact (procedure_oneSide hi h).sameSetup

/-- Settles O24: every command ends one procedure, which keeps tree, table, configuration and the host's side. -/
theorem commandsKeepConfiguration : Obligations.CommandsKeepConfiguration := by
  intro i s t h
  obtain ⟨r, hr, rfl⟩ := exec_next h
  obtain ⟨hcfg, htree, hctab, hscript, hread⟩ := (procedure_sameSetup hr).finish (opcodeOf i)
  exact ⟨fun _ => State.treeAt_congr htree _, fun _ _ => State.ctabAt_congr hctab _ _, htree, hctab, hcfg, hscript,
    hread⟩

/-- Settles O23: `RESULT` is one word of R38 written by `done` or `raise`; before it a procedure has at most noted an
`IoFailure`, and that only where it raises. -/
theorem everyCommandWritesResult : Obligations.EveryCommandWritesResult := by
  intro i s t h code
  obtain ⟨r, hr, rfl⟩ := exec_next h
  cases r with
  | ok a u =>
    obtain ⟨hcode, hopc, -⟩ := resultWord_fields (opcodeOf i) a.sym a.emit a.val 0
    refine ⟨hopc, fun _ hi => ?_, fun hne => absurd hcode hne⟩
    have hres : u.res = s.res := (procedure_oneSide hi hr).res_of_ok
    simp [hres]
  | raised e u =>
    obtain ⟨hcode, hopc, hsym, hval, hemit, -⟩ := resultWord_fields (opcodeOf i) 0 false false e.code
    have hcode : code = e.code := hcode
    refine ⟨hopc, fun h0 => absurd (hcode.symm.trans h0) e.code_range.1, fun _ => ⟨hval, hemit, hsym, ?_⟩⟩
    have hi : i ≠ .srst := by rintro rfl; cases hr
    rw [hcode]
    exact (procedure_oneSide hi hr).notedIo.imp (congrArg fun q : ResultRegs => q.errlog ||| logBit e.code)
      (congrArg fun q : ResultRegs => q.errlog ||| logBit e.code)

/-! ### Steps -/

theorem locateReg_eq_cmd {n : Nat} (h : locateReg n = .cmd) : n = 0 := by
  unfold locateReg at h
  split at h
  · rfl
  all_goals cases h

/-- `CMD` is the word at address 0 and nowhere else (R62). -/
theorem locate_eq_cmd {a : RegAddr} (h : locate a = .cmd) : a = 0x0000 := by
  unfold locate at h
  split_ifs at h
  exact BitVec.eq_of_toNat_eq (locateReg_eq_cmd h)

theorem act_write_cmd (w : Word) (s : State) : act (.write 0x0000 w) s = command w s := rfl

theorem act_write_register {a : RegAddr} (ha : a ≠ 0x0000) (w : Word) (s : State) :
    act (.write a w) s = .next (s.writeLoc w (locate a)) := by
  change hostWrite a w s = _
  unfold hostWrite
  split
  · rename_i hl; exact absurd (locate_eq_cmd hl) ha
  · rfl

theorem step_cons {s : State} {a : HostAction} {rest : List HostAction} (h : s.env.script = a :: rest) :
    step s = act a (s.take a rest) := by
  simp only [step, h]

theorem command_decoded {w : Word} {i : Instr} (h : decode w = .ok i) (s : State) : command w s = exec i s := by
  simp only [command, h]

/-- Settles O4: the step takes the action off the script, and a write of `CMD` is the command. -/
theorem stepRunsDecodedCommand : Obligations.StepRunsDecodedCommand := by
  intro s w i rest hs hw
  rw [step_cons hs, act_write_cmd, command_decoded hw]
  rfl

/-! ### The answers that a step uses up (R9, R251, log 2) -/

/-- What uses up no answer, however it changes the host's side of the environment. -/
theorem State.QuietIf.noAnswer {s t : State} {p : Prop} (hp : p) (hu : s.env.Uses t.env 0) (hq : s.Quiet t) :
    s.QuietIf t p :=
  ⟨0, hu, fun _ => ⟨hp, hq⟩⟩

/-- The record of a command's end shows an `IoFailure` only where the procedure raised one. -/
theorem State.QuietRes.finish {s : State} {r : Res Reply} (h : s.QuietRes r) (opc : BitVec 8) :
    s.QuietIf (State.finish opc r) True := by
  obtain ⟨k, hu, hq⟩ := h
  cases r with
  | ok a t =>
    refine ⟨k, hu, fun hn => ?_⟩
    obtain ⟨-, hlog, hbsink, hssink⟩ := hq hn
    exact ⟨trivial, hlog, hbsink, hssink⟩
  | raised e t =>
    refine ⟨k, hu, fun hn => ?_⟩
    obtain ⟨hio, hlog, hbsink, hssink⟩ := hq hn
    have hbit : (logBit e.code).getLsbD 1 = false := hio.logBit
    refine ⟨trivial, fun hl => hlog ?_, hbsink, hssink⟩
    rwa [State.finish_raised, State.raise_res, BitVec.getLsbD_or, hbit, Bool.or_false] at hl

theorem exec_quiet {i : Instr} {s t : State} (h : exec i s = .next t) : s.QuietIf t True := by
  obtain ⟨r, hr, rfl⟩ := exec_next h
  exact (procedure_quiet hr).finish _

/-- A write of `CMD`, be the word a command or not. -/
theorem command_quiet {w : Word} {s t : State} (h : command w s = .next t) : s.QuietIf t True := by
  unfold command at h
  split at h
  · exact exec_quiet h
  · have hr : s.QuietRes (.raised .illegalCommand s : Res Reply) := .same trivial rfl (.refl s)
    cases h; exact hr.finish _

/-- A write of another address stores a word or records the lock. -/
theorem State.writeLoc_keeps (s : State) (v : Word) (l : Loc) :
    (s.writeLoc v l).env = s.env ∧ s.Quiet (s.writeLoc v l) := by
  unfold State.writeLoc
  split
  · exact ⟨rfl, fun h => by simpa using h, id, id⟩
  · cases l <;> exact ⟨rfl, id, id, id⟩

/-- Between two commands the host uses up no answer, and nothing of `IoFailure` shows. -/
theorem act_noAnswer {a : HostAction} {s t : State} (ha : ∀ w, a ≠ .write 0x0000 w) (h : act a s = .next t) :
    s.env.Uses t.env 0 ∧ s.Quiet t := by
  cases a with
  | write a v =>
    have ha : a ≠ 0x0000 := fun h0 => ha v (h0 ▸ rfl)
    rw [act_write_register ha] at h
    cases h
    obtain ⟨henv, hq⟩ := s.writeLoc_keeps v (locate a)
    exact ⟨henv ▸ .refl _, hq⟩
  | read a => cases h; exact ⟨⟨rfl, rfl⟩, id, id, id⟩
  | load p items =>
    simp only [act, loadSource] at h
    split at h
    · cases h
    · cases h; cases p <;> exact ⟨⟨rfl, rfl⟩, id, id, id⟩
  | hardReset =>
    cases h
    exact ⟨⟨rfl, rfl⟩, fun h => absurd h (show ¬ (0 : Word).getLsbD 1 = true by decide), nofun, nofun⟩

theorem State.take_uses (s : State) (a : HostAction) (rest : List HostAction) :
    s.env.Uses (s.take a rest).env 0 := by
  cases a <;> exact ⟨rfl, rfl⟩

theorem State.take_quiet (s : State) (a : HostAction) (rest : List HostAction) : s.Quiet (s.take a rest) :=
  ⟨id, id, id⟩

/-- A step that issues no command uses up no answer. -/
theorem step_noAnswer {s t : State} (hs : ∀ w rest, s.env.script ≠ .write 0x0000 w :: rest) (h : step s = .next t) :
    s.env.Uses t.env 0 ∧ s.Quiet t := by
  cases he : s.env.script with
  | nil => rw [step, he] at h; cases h; exact ⟨.refl _, .refl _⟩
  | cons a rest =>
    rw [step_cons he] at h
    obtain ⟨hu, hq⟩ := act_noAnswer (fun w hw => hs w rest (hw ▸ he)) h
    exact ⟨(s.take_uses a rest).trans hu, (s.take_quiet a rest).trans hq⟩

theorem step_quiet {s t : State} (h : step s = .next t) : s.QuietIf t True := by
  by_cases hs : ∃ w rest, s.env.script = .write 0x0000 w :: rest
  · obtain ⟨w, rest, hs⟩ := hs
    rw [step_cons hs, act_write_cmd] at h
    exact State.QuietIf.trans (.noAnswer trivial (s.take_uses _ rest) (s.take_quiet _ rest))
      (command_quiet h)
  · obtain ⟨hu, hq⟩ := step_noAnswer (fun w rest hw => hs ⟨w, rest, hw⟩) h
    exact .noAnswer trivial hu hq

theorem runSteps_quiet {n : Nat} {s t : State} (h : runSteps n s = .next t) : s.QuietIf t True := by
  induction n generalizing s with
  | zero => cases h; exact .same trivial rfl (.refl _)
  | succ n ih =>
    rw [runSteps] at h
    cases hs : step s with
    | next u => rw [hs] at h; exact (step_quiet hs).trans (ih h)
    | fault f => rw [hs] at h; cases h
    | refused r => rw [hs] at h; cases h

/-- Settles O31: each step uses up the next answers, none if it is no command; by induction so does a run, and where
none of them is `fail` nothing of `IoFailure` shows. -/
theorem noIoFailRunRecordsNoIoFailure : Obligations.NoIoFailRunRecordsNoIoFailure := by
  refine ⟨fun s t h => ?_, fun n s t hn h => ?_⟩
  · by_cases hs : ∀ w rest, s.env.script ≠ .write 0x0000 w :: rest
    · obtain ⟨⟨hd, ha⟩, -⟩ := step_noAnswer hs h
      exact ⟨0, hd, ha, fun _ => rfl⟩
    · obtain ⟨k, ⟨hd, ha⟩, -⟩ := step_quiet h
      exact ⟨k, hd, ha, fun h => absurd h hs⟩
  · obtain ⟨k, hu, hq⟩ := runSteps_quiet h
    have hk : s.env.NoFail k := hu.answersUntil ▸ hn n le_rfl t h
    obtain ⟨-, hlog, hbsink, hssink⟩ := hq hk
    exact ⟨hlog, hbsink, hssink⟩

end Sys2Proof.Machine

/-! ## Proofs: the statements of `10_state.md` -/

namespace Sys2Proof.Machine

/-! ### What one action of the host can do -/

/-- What an action of the host leads to (R37, R75, R105, R280, R296), a constructor for each way. -/
inductive State.Moves (s : State) : HostAction → State → Prop
  | command {w : Word} {i : Instr} {r : Res Reply} (hi : decode w = .ok i) (hr : procedure i s = .ok r) :
      State.Moves s (.write 0x0000 w) (State.finish (opcodeOf i) r)
  | illegal {w : Word} {e : Reject} (hw : decode w = .error e) :
      State.Moves s (.write 0x0000 w) (s.raise (fieldOpc w) .illegalCommand)
  | register {a : RegAddr} (ha : a ≠ 0x0000) (v : Word) : State.Moves s (.write a v) (s.writeLoc v (locate a))
  | read (a : RegAddr) : State.Moves s (.read a) (s.hostRead a)
  | load {p : SourcePort} (items : List (BitVec 8)) (hp : (s.source p).held = false) :
      State.Moves s (.load p items) (s.setSource p { held := false, data := items })
  | hardReset : State.Moves s .hardReset s.hardReset

theorem act_moves {a : HostAction} {s t : State} (h : act a s = .next t) : s.Moves a t := by
  cases a with
  | write a v =>
    by_cases ha : a = 0x0000
    · subst ha
      rw [act_write_cmd] at h
      cases hd : decode v with
      | ok i =>
        rw [command_decoded hd] at h
        obtain ⟨r, hr, rfl⟩ := exec_next h
        exact .command hd hr
      | error e =>
        simp only [command, hd, execIllegal] at h
        cases h; exact .illegal hd
    · rw [act_write_register ha] at h
      cases h; exact .register ha v
  | read a => cases h; exact .read a
  | load p items =>
    simp only [act, loadSource] at h
    split at h
    · cases h
    · rename_i hp
      cases h; exact .load items (Bool.not_eq_true _ ▸ hp)
  | hardReset => cases h; exact .hardReset

/-- What taking an action off the script and every action keep, every step keeps. -/
theorem step_keeps {P : State → Prop} (htake : ∀ (s : State) (a : HostAction) rest, P s → P (s.take a rest))
    (hact : ∀ (s t : State) (a : HostAction), s.Moves a t → P s → P t) (s t : State) (hs : P s)
    (h : step s = .next t) : P t := by
  cases he : s.env.script with
  | nil => rw [step, he] at h; cases h; exact hs
  | cons a rest => rw [step_cons he] at h; exact hact _ _ a (act_moves h) (htake s a rest hs)

/-- A host write outside `CMD` reaches the configuration, the memories and the result registers only (R62). -/
theorem State.writeLoc_frame (s : State) (v : Word) (l : Loc) :
    s.writeLoc v l = { s with cfg := (s.writeLoc v l).cfg, res := (s.writeLoc v l).res
                              tree := (s.writeLoc v l).tree, ctab := (s.writeLoc v l).ctab } := by
  unfold State.writeLoc
  split
  · rfl
  · cases l <;> rfl

/-- R76: while a session is open no write reaches the configuration or a memory. -/
theorem State.writeLoc_locked {s : State} (hs : s.locked = true) (v : Word) (l : Loc) :
    (s.writeLoc v l).cfg = s.cfg ∧ (s.writeLoc v l).tree = s.tree ∧ (s.writeLoc v l).ctab = s.ctab := by
  cases l <;> simp [State.writeLoc, Loc.lockable, hs, State.storeLoc]

/-- A host write records at most `LOCKVIOL` (R40, R76). -/
theorem State.writeLoc_res (s : State) (v : Word) (l : Loc) :
    (s.writeLoc v l).res = s.res ∨ (s.writeLoc v l).res = { s.res with errlog := s.res.errlog ||| 0x100 } := by
  unfold State.writeLoc
  split
  · exact .inr rfl
  · cases l <;> exact .inl rfl

/-! ### The units and their ports (R30) -/

/-- The invariants of R30 speak of the units and of which ports are held. -/
theorem State.UnitInv.congr {s t : State} (h : s.UnitInv) (bw : t.bw = s.bw) (br : t.br = s.br) (dec : t.dec = s.dec)
    (bsink : t.bsink.held = s.bsink.held) (bsrc : t.bsrc.held = s.bsrc.held) (ssink : t.ssink.held = s.ssink.held)
    (ssrc : t.ssrc.held = s.ssrc.held) : t.UnitInv := by
  obtain ⟨hw, hr, hd, hp⟩ := s.unitInv_iff.1 h
  exact t.unitInv_iff.2 ⟨hw.congr bw bsink, hr.congr br bsrc, by rw [ssink, dec, hd], ssrc.trans hp⟩

/-- On the writer's side only the writer's invariants and `SSRC` are at stake. -/
theorem State.EncoderOnly.unitInv {s t : State} (h : s.EncoderOnly t) (hs : s.UnitInv) (hw : t.WriterInv)
    (hp : t.ssrc.held = false) : t.UnitInv := by
  obtain ⟨-, hr, hd, -⟩ := s.unitInv_iff.1 hs
  exact t.unitInv_iff.2 ⟨hw, hr.congr h.br (congrArg Source.held h.bsrc), by rw [h.ssink, h.dec, hd], hp⟩

/-- On the reader's and decoder's side only the reader's invariants and `SSINK` are at stake. -/
theorem State.DecoderOnly.unitInv {s t : State} (h : s.DecoderOnly t) (hs : s.UnitInv) (hr : t.ReaderInv)
    (hd : t.ssink.held = t.dec.active) : t.UnitInv := by
  obtain ⟨hw, -, -, hp⟩ := s.unitInv_iff.1 hs
  exact t.unitInv_iff.2 ⟨hw.congr h.bw (congrArg Sink.held h.bsink), hr, hd, by rw [h.ssrc, hp]⟩

theorem startDecode_held {s : State} (h : s.ssink.held = s.dec.active) :
    (startDecode s).state.ssink.held = (startDecode s).state.dec.active := by
  cases hf : s.env.fails
  · rw [startDecode_ok s hf]; rfl
  · rw [startDecode_fail s hf]; exact h

theorem softReset_unitInv (s : State) : s.softReset.UnitInv :=
  (State.unitInv_iff _).2 ⟨State.writerInv_of_closed rfl rfl rfl rfl, State.readerInv_of_closed rfl rfl rfl rfl, rfl, rfl⟩

/-- R30: whatever way a command's procedure ends. -/
theorem procedure_unitInv {i : Instr} {s : State} {r : Res Reply} (hs : s.UnitInv) (h : procedure i s = .ok r) :
    r.state.UnitInv := by
  obtain ⟨hw, hr, hd, hp⟩ := s.unitInv_iff.1 hs
  cases i with
  | nop => cases h; exact hs
  | srst => cases h; exact softReset_unitInv s
  | bwOpen =>
    cases h; split
    · exact hs
    · rw [Res.andThen_state]
      exact (openWriter_frame s).unitInv hs (openWriter_inv hw) (by rw [openWriter_ssrc, hp])
  | bwWritebit b =>
    cases h; split
    · rename_i ho
      rw [Res.andThen_state]
      exact (writeBit_frame b s).unitInv hs (writeBit_inv b hw ho).1 (by rw [writeBit_ssrc, hp])
    · exact hs
  | bwClose =>
    cases h; split
    · have hc := (closeWriter_frame s).unitInv hs (closeWriter_inv s) (by rw [closeWriter_ssrc, hp])
      split <;> rename_i t ht <;> rw [ht] at hc <;> exact hc
    · exact hs
  | brOpen =>
    cases h; split
    · exact hs
    · rename_i ho
      rw [Res.andThen_state]
      obtain ⟨hf, hsame⟩ := openReader_frame s
      exact hf.unitInv hs (openReader_inv hr (Bool.not_eq_true _ ▸ ho)).1 (hsame.held hd)
  | brHasnext => cases h; split <;> exact hs
  | brReadbit =>
    cases h; split
    · rename_i ho
      split
      · rename_i hn
        rw [Res.andThen_state]
        obtain ⟨hf, hsame⟩ := readBit_frame s
        exact hf.unitInv hs (readBit_inv hr ho ((hasNext_iff s).1 hn).2.1).1 (hsame.held hd)
      · exact hs
    · exact hs
  | brClose =>
    cases h; split
    · exact (closeReader_frame s).1.unitInv hs (closeReader_inv s) hd
    · exact hs
  | encSym x =>
    simp only [procedure] at h
    split at h
    · rename_i ho
      cases hq : encSym x s with
      | error f => rw [hq] at h; cases h
      | ok q =>
        rw [hq] at h; cases h
        rw [Res.andThen_state]
        obtain ⟨hf, hssrc⟩ := encSym_frame hq
        exact hf.unitInv hs (encSym_inv hq hw ho).1 (by rw [hssrc, hp])
    · cases h; exact hs
  | encRun =>
    obtain ⟨hw', hp', -⟩ := encRun_inv h hw hp
    exact (encRun_frame h).unitInv hs hw' hp'
  | decStart =>
    cases h; split
    · exact hs
    · rw [Res.andThen_state]
      obtain ⟨hf, hbr, hbsrc⟩ := startDecode_frame s
      exact hf.unitInv hs (hr.congr hbr (congrArg Source.held hbsrc)) (startDecode_held hd)
  | decBit =>
    simp only [procedure] at h
    split at h
    · cases h; exact hs
    · rename_i ho
      obtain ⟨-, ho⟩ : s.dec.active = true ∧ s.br.isOpen = true := by simpa using ho
      split at h
      · rename_i hn
        obtain ⟨hr', hd', -⟩ := decBit_inv h hr ho ((hasNext_iff s).1 hn).2.1 hd
        exact (decBit_frame h).unitInv hs hr' hd'
      · cases h; exact hs
  | decEnd =>
    cases h; split
    · rw [Res.andThen_state]
      obtain ⟨hr', hheld, hact, -⟩ := endDecode_inv hr
      exact (endDecode_frame s).unitInv hs hr' (hheld.trans hact.symm)
    · exact hs
  | decRun =>
    obtain ⟨hr', hd', -⟩ := decRun_inv h hr hd
    exact (decRun_frame h).unitInv hs hr' hd'

/-- Settles O16: a command's procedure keeps R30, and no other action opens or closes a session or takes a port. -/
theorem stepKeepsUnitInvariants : Obligations.StepKeepsUnitInvariants := by
  refine step_keeps (P := State.UnitInv) (fun s a rest hs => hs.congr rfl rfl rfl rfl rfl rfl rfl) ?_
  intro s t a h hs
  cases h with
  | command hi hr => rw [State.finish_eq]; exact (procedure_unitInv hs hr).congr rfl rfl rfl rfl rfl rfl rfl
  | illegal hw => exact hs.congr rfl rfl rfl rfl rfl rfl rfl
  | @register a ha v => rw [State.writeLoc_frame]; exact hs.congr rfl rfl rfl rfl rfl rfl rfl
  | read a => exact hs.congr rfl rfl rfl rfl rfl rfl rfl
  | load items hp =>
    rename_i p
    cases p
    · exact hs.congr rfl rfl rfl rfl hp.symm rfl rfl
    · exact hs.congr rfl rfl rfl rfl rfl rfl hp.symm
  | hardReset => exact (softReset_unitInv s).congr rfl rfl rfl rfl rfl rfl rfl

/-! ### The decoder's pointer (R29) -/

theorem State.pointerInv_of_inactive {s : State} (h : s.dec.active = false) : s.PointerInv :=
  fun ha => absurd (h.symm.trans ha) Bool.false_ne_true

/-- The place of the pointer depends on the decoder, the tree and its root. -/
theorem State.PointerInv.congr {s t : State} (h : s.PointerInv) (dec : t.dec = s.dec) (cfg : t.cfg = s.cfg)
    (tree : t.tree = s.tree) : t.PointerInv := by
  unfold State.PointerInv
  rw [dec, State.treeRoot_congr cfg, State.treeAt_congr tree]
  exact h

theorem emitLeaf_raised {b : Bool} {w : Word} {s t : State} {e : Failure} (h : emitLeaf b w s = .raised e t) :
    t.dec.active = false := by
  cases hf : s.env.fails
  · rw [emitLeaf_ok s b w hf] at h; cases h
  · rw [emitLeaf_fail s b w hf] at h; cases h; exact (abortDecode_closes _).1

theorem followEdge_raised {b : Bool} {s t : State} {e : Failure} (h : followEdge b s = .ok (.raised e t)) :
    t.dec.active = false := by
  unfold followEdge at h
  split at h
  · cases h
  · split at h
    · split at h
      · cases h
      · split at h
        · injection h with h; exact emitLeaf_raised h
        · cases h
    · cases h; exact (abortDecode_closes s).1

/-- R192: a `DecBit` that raises has ended the session. -/
theorem decBit_raised {s t : State} {e : Failure} (h : decBit s = .ok (.raised e t)) : t.dec.active = false := by
  unfold decBit at h
  split at h
  · cases h; rfl
  · exact followEdge_raised h

theorem decLoop_raised {n : Nat} {s t : State} {e : Failure} (h : decLoop n s = .ok (.raised e t)) :
    t.dec.active = false := by
  induction n generalizing s with
  | zero => cases h
  | succ n ih =>
    rw [decLoop] at h
    split at h
    · split at h
      · cases h
      · rename_i hb; cases h; exact decBit_raised hb
      · exact ih h
    · cases h

theorem endDecode_inactive (s : State) : (endDecode s).state.dec.active = false := by
  by_cases h : s.dec.node = s.treeRoot
  · rw [endDecode_root s h]; rfl
  · rw [endDecode_midCode s h]; exact (abortDecode_closes s).1

theorem decClose_inactive (s : State) : (decClose s).state.dec.active = false := by
  have h := endDecode_inactive s
  unfold decClose
  cases he : endDecode s <;> rw [he] at h <;> exact h

theorem startDecode_raised {s t : State} {e : Failure} (h : startDecode s = .raised e t) : t.dec = s.dec := by
  cases hf : s.env.fails
  · rw [startDecode_ok s hf] at h; cases h
  · rw [startDecode_fail s hf] at h; cases h; rfl

theorem decBody_inactive {s : State} {r : Res Reply} (ha : s.dec.active = false) (h : decBody s = .ok r) :
    r.state.dec.active = false := by
  unfold decBody at h
  split at h
  · rename_i e t hd
    cases h
    change t.dec.active = false
    rw [startDecode_raised hd, ha]
  · split at h
    · cases h
    · rename_i q hq
      cases h
      cases q with
      | ok a u => exact decClose_inactive u
      | raised e u => exact decLoop_raised hq

/-- R203: `DEC.RUN` leaves no session of its own open. -/
theorem decRun_session {s : State} {r : Res Reply} (h : procedure .decRun s = .ok r) :
    r.state.dec = s.dec ∨ r.state.dec.active = false := by
  simp only [procedure] at h
  split at h
  · cases h; exact .inl rfl
  · rename_i hc
    obtain ⟨ha, -⟩ : s.dec.active = false ∧ s.br.isOpen = false := by simpa using hc
    split at h
    · have hsame := (openReader_frame s).2
      split at h <;> rename_i hr <;> rw [hr] at hsame
      · cases h; exact .inl hsame.1
      · exact .inr (decBody_inactive (hsame.inactive ha) h)
    · cases h; exact .inl rfl

theorem startDecode_pointer (s : State) : (startDecode s).state.dec = s.dec ∨ (startDecode s).state.PointerInv := by
  cases hf : s.env.fails
  · rw [startDecode_ok s hf]; exact .inr fun _ hne => absurd rfl hne
  · rw [startDecode_fail s hf]; exact .inl rfl

/-- R192: after `DecBit` the pointer is at the root or at a child that is no leaf, or the session is over. -/
theorem decBit_pointerInv {s : State} {r : Res Reply} (h : decBit s = .ok r) : r.state.PointerInv := by
  cases r with
  | ok a t =>
    have hf : s.DecoderOnly t := decBit_frame h
    intro _ hne
    rcases decBit_pointer h with hroot | ⟨-, w, hw, hl⟩
    · exact absurd (hroot.trans (State.treeRoot_congr hf.cfg).symm) hne
    · exact ⟨w, (State.treeAt_congr hf.tree _).trans hw, hl⟩
  | raised e t => exact State.pointerInv_of_inactive (decBit_raised h)

/-- A procedure leaves the decoder alone, or R29 holds at its end whatever held before. -/
theorem procedure_pointer {i : Instr} {s : State} {r : Res Reply} (h : procedure i s = .ok r) :
    r.state.dec = s.dec ∨ r.state.PointerInv := by
  cases i with
  | nop => cases h; exact .inl rfl
  | srst => cases h; exact .inr (State.pointerInv_of_inactive rfl)
  | bwOpen =>
    cases h; split
    · exact .inl rfl
    · rw [Res.andThen_state]; exact .inl (openWriter_frame s).dec
  | bwWritebit b =>
    cases h; split
    · rw [Res.andThen_state]; exact .inl (writeBit_frame b s).dec
    · exact .inl rfl
  | bwClose =>
    cases h; split
    · have hf := (closeWriter_frame s).dec
      split <;> rename_i t ht <;> rw [ht] at hf <;> exact .inl hf
    · exact .inl rfl
  | brOpen =>
    cases h; split
    · exact .inl rfl
    · rw [Res.andThen_state]; exact .inl (openReader_frame s).2.1
  | brHasnext => cases h; split <;> exact .inl rfl
  | brReadbit =>
    cases h; split
    · split
      · rw [Res.andThen_state]; exact .inl (readBit_frame s).2.1
      · exact .inl rfl
    · exact .inl rfl
  | brClose => cases h; split <;> exact .inl rfl
  | encSym x =>
    simp only [procedure] at h
    split at h
    · cases hq : encSym x s with
      | error f => rw [hq] at h; cases h
      | ok q =>
        rw [hq] at h; cases h
        rw [Res.andThen_state]; exact .inl (encSym_frame hq).1.dec
    · cases h; exact .inl rfl
  | encRun => exact .inl (encRun_frame h).dec
  | decStart =>
    cases h; split
    · exact .inl rfl
    · rw [Res.andThen_state]; exact startDecode_pointer s
  | decBit =>
    simp only [procedure] at h
    split at h
    · cases h; exact .inl rfl
    · split at h
      · exact .inr (decBit_pointerInv h)
      · cases h; exact .inl rfl
  | decEnd =>
    cases h; split
    · rw [Res.andThen_state]; exact .inr (State.pointerInv_of_inactive (endDecode_inactive s))
    · exact .inl rfl
  | decRun => exact (decRun_session h).imp_right State.pointerInv_of_inactive

/-- Settles O17: a command leaves the decoder alone or ends with R29; a write cannot move the tree under an active
session, which is locked (R76). -/
theorem stepKeepsPointerOffLeaves : Obligations.StepKeepsPointerOffLeaves := by
  refine step_keeps (P := State.PointerInv) (fun s a rest hs => hs) ?_
  intro s t a h hs
  cases h with
  | command hi hr =>
    have hsetup := procedure_sameSetup hr
    rw [State.finish_eq]
    rcases procedure_pointer hr with hdec | hp
    · exact hs.congr hdec hsetup.cfg hsetup.tree
    · exact hp
  | illegal hw => exact hs
  | @register a ha v =>
    cases hact : s.dec.active
    · rw [State.writeLoc_frame]; exact State.pointerInv_of_inactive hact
    · have hlocked : s.locked = true := by simp [State.locked, hact]
      obtain ⟨hcfg, htree, -⟩ := State.writeLoc_locked hlocked v (locate a)
      exact hs.congr (by rw [State.writeLoc_frame]) hcfg htree
  | read a => exact hs
  | load items hp => exact hs.congr (State.setSource_dec ..) (State.setSource_cfg ..) (State.setSource_tree ..)
  | hardReset => exact State.pointerInv_of_inactive rfl

end Sys2Proof.Machine

namespace Sys2Proof.Machine

/-! ### The memories (R46, R47, R74) -/

theorem locateReg_window (n : Nat) : (∀ i, locateReg n ≠ .tree i) ∧ ∀ off, locateReg n ≠ .ctab off := by
  unfold locateReg
  split <;> exact ⟨nofun, nofun⟩

/-- The `TREE` window names the indices of `TREE` (R66). -/
theorem locate_eq_tree {a : RegAddr} {i : Nat} (h : locate a = .tree i) : i < 512 := by
  unfold locate at h
  split_ifs at h with _ hwin
  · exact absurd h ((locateReg_window _).1 i)
  · injection h with h; omega

/-- The `CTAB` window names words 0 to 8 of the entries (R70, R74). -/
theorem locate_eq_ctab {a : RegAddr} {off : Nat} (h : locate a = .ctab off) : off < 4096 ∧ off % 16 ≤ 8 := by
  unfold locate at h
  split_ifs at h with _ _ hwin
  · exact absurd h ((locateReg_window _).2 off)
  · injection h with h; omega

theorem State.writeLoc_memWf {s : State} (hs : s.memWf) (a : RegAddr) (v : Word) : (s.writeLoc v (locate a)).memWf := by
  obtain ⟨htree, hctab⟩ := hs
  unfold State.writeLoc
  split
  · exact ⟨htree, hctab⟩
  · cases hl : locate a with
    | tree i => exact ⟨Mem.write_treeWf v (locate_eq_tree hl) htree, hctab⟩
    | ctab off =>
      obtain ⟨hoff, hword⟩ := locate_eq_ctab hl
      exact ⟨htree, Mem.write_ctabWf v hoff hword hctab⟩
    | _ => exact ⟨htree, hctab⟩

theorem State.memWf_of_unwritten {s : State} (htree : s.tree = []) (hctab : s.ctab = []) : s.memWf := by
  simp [State.memWf, Mem.treeWf, Mem.ctabWf, Mem.rising, htree, hctab]

/-- Settles O18: only a host write of a window writes a memory, at an index the window has. -/
theorem stepKeepsMemoryCanonical : Obligations.StepKeepsMemoryCanonical := by
  refine step_keeps (P := State.memWf) (fun s a rest hs => hs) ?_
  intro s t a h hs
  cases h with
  | command hi hr =>
    obtain ⟨-, htree, hctab, -⟩ := (procedure_sameSetup hr).finish (opcodeOf _)
    rw [State.memWf, htree, hctab]
    exact hs
  | illegal hw => exact hs
  | @register a ha v => exact State.writeLoc_memWf hs a v
  | read a => exact hs
  | load items hp => rw [State.memWf, State.setSource_tree, State.setSource_ctab]; exact hs
  | hardReset => exact State.memWf_of_unwritten rfl rfl

/-! ### The result registers (R38 to R40, R250) -/

/-- Setting a bit of `ERRLOG` that exists keeps the reserved ones 0. -/
theorem ResultRegs.Wf.log {r : ResultRegs} (h : r.Wf) {b : Word} (hb : b &&& 0xFFFFFE81 = 0) :
    { r with errlog := r.errlog ||| b }.Wf :=
  ⟨h.code, h.resultReserved, h.errinfoReserved, by
    rw [BitVec.and_or_distrib_right, h.errlogReserved, hb]; rfl⟩

theorem ResultRegs.wf_zero : ResultRegs.Wf { result := 0, errinfo := 0, errlog := 0 } :=
  ⟨by decide, by decide, by decide, by decide⟩

theorem ResultRegs.NotedIo.wf {a b : ResultRegs} (h : a.NotedIo b) (ha : a.Wf) : b.Wf := by
  rcases h with rfl | rfl
  · exact ha
  · exact ha.log (by decide)

/-- `RESULT` written with a code of R250 (R38). -/
theorem ResultRegs.Wf.result {r : ResultRegs} (h : r.Wf) (opc : BitVec 8) (sym : Symbol) (e v : Bool) {c : BitVec 4}
    (hc : c.toNat ≤ 6) : { r with result := resultWord opc sym e v c }.Wf := by
  obtain ⟨hcode, -, -, -, -, hreserved⟩ := resultWord_fields opc sym e v c
  exact ⟨by rw [hcode]; exact hc, hreserved, h.errinfoReserved, h.errlogReserved⟩

theorem State.raise_wf {s : State} (h : s.res.Wf) (opc : BitVec 8) (e : Failure) : (s.raise opc e).res.Wf := by
  obtain ⟨hcode, hresult, -, herrlog⟩ := (h.log e.logBit_code.2).result opc 0 false false e.code_range.2
  exact ⟨hcode, hresult, e.info_reserved, herrlog⟩

theorem State.finish_wf {r : Res Reply} (h : r.state.res.Wf) (opc : BitVec 8) : (State.finish opc r).res.Wf := by
  cases r with
  | ok a t => exact h.result opc a.sym a.emit a.val (by decide)
  | raised e t => exact State.raise_wf h opc e

theorem procedure_wf {i : Instr} {s : State} {r : Res Reply} (hs : s.res.Wf) (h : procedure i s = .ok r) :
    r.state.res.Wf := by
  by_cases hi : i = .srst
  · subst hi
    cases h
    exact ⟨hs.code, hs.resultReserved, ResultRegs.wf_zero.errinfoReserved, ResultRegs.wf_zero.errlogReserved⟩
  · exact (procedure_oneSide hi h).notedIo.wf hs

/-- Settles O19: the words recorded have their reserved bits 0, and a bit of `ERRLOG` set is one that exists. -/
theorem stepKeepsResultRegistersWellFormed : Obligations.StepKeepsResultRegistersWellFormed := by
  refine step_keeps (P := fun s => s.res.Wf) (fun s a rest hs => hs) ?_
  intro s t a h hs
  cases h with
  | command hi hr => exact State.finish_wf (procedure_wf hs hr) _
  | illegal hw => exact State.raise_wf hs _ _
  | @register a ha v =>
    rcases s.writeLoc_res v (locate a) with h | h <;> rw [h]
    · exact hs
    · exact hs.log (by decide)
  | read a => exact hs
  | load items hp => rw [State.setSource_res]; exact hs
  | hardReset => exact ResultRegs.wf_zero

/-- Some bits of `ERRLOG` are set and none is cleared. -/
def ResultRegs.LogsInto (a b : ResultRegs) : Prop := ∃ bits, b.errlog = a.errlog ||| bits

theorem ResultRegs.LogsInto.of_eq {a b : ResultRegs} (h : b.errlog = a.errlog) : a.LogsInto b :=
  ⟨0, h.trans BitVec.or_zero.symm⟩

theorem ResultRegs.LogsInto.trans {a b c : ResultRegs} (h : a.LogsInto b) (k : b.LogsInto c) : a.LogsInto c := by
  obtain ⟨x, hx⟩ := h
  obtain ⟨y, hy⟩ := k
  exact ⟨x ||| y, by rw [hy, hx, BitVec.or_assoc]⟩

theorem ResultRegs.LogsInto.sticky {a b : ResultRegs} (h : a.LogsInto b) : a.errlog &&& b.errlog = a.errlog := by
  obtain ⟨x, hx⟩ := h
  rw [hx]
  ext i hi
  simp only [BitVec.getElem_and, BitVec.getElem_or]
  cases a.errlog[i] <;> rfl

theorem ResultRegs.NotedIo.logsInto {a b : ResultRegs} (h : a.NotedIo b) : a.LogsInto b := by
  rcases h with rfl | rfl
  · exact .of_eq rfl
  · exact ⟨0x2, rfl⟩

theorem State.finish_logsInto (r : Res Reply) (opc : BitVec 8) : r.state.res.LogsInto (State.finish opc r).res := by
  cases r with
  | ok a t => exact .of_eq rfl
  | raised e t => exact ⟨logBit e.code, rfl⟩

/-- A word put together again from its fields (R100). -/
theorem word_eq_fields (w : Word) : w = fieldRsv w ++ fieldArg w ++ fieldOpc w := by
  apply BitVec.eq_of_getLsbD_eq
  intro i hi
  unfold fieldRsv fieldArg fieldOpc
  rw [BitVec.getLsbD_append, BitVec.getLsbD_append]
  split_ifs with h1 h2 <;> rw [BitVec.getLsbD_extractLsb', decide_eq_true (by omega), Bool.true_and]
  · rw [Nat.zero_add]
  · congr 1; omega
  · congr 1; omega

theorem decodeN_eq_ok {arg : BitVec 8} {i j : Instr} : decodeN arg i = .ok j ↔ arg = 0 ∧ i = j := by
  unfold decodeN
  split <;> rename_i h
  · simp only [h, true_and, Except.ok.injEq]
  · simp only [h, false_and, reduceCtorEq]

theorem decodeB_eq_ok {arg : BitVec 8} {f : Bool → Instr} {j : Instr} :
    decodeB arg f = .ok j ↔ arg.extractLsb' 1 7 = 0 ∧ f (arg.getLsbD 0) = j := by
  unfold decodeB
  split <;> rename_i h
  · simp only [h, true_and, Except.ok.injEq]
  · simp only [h, false_and, reduceCtorEq]

theorem decodeOpc_srst {opc arg : BitVec 8} (h : decodeOpc opc arg = .ok .srst) : opc = 0x01 ∧ arg = 0 := by
  simp only [decodeOpc, ite_eq_iff, decodeN_eq_ok, decodeB_eq_ok, reduceCtorEq, Except.ok.injEq, and_false, or_false,
    false_or, and_true] at h
  exact h.2

/-- `SRST` has one word (R103, R104). -/
theorem decode_srst {w : Word} (h : decode w = .ok .srst) : w = 0x00000001 := by
  unfold decode at h
  split_ifs at h with hrsv
  obtain ⟨hopc, harg⟩ := decodeOpc_srst h
  rw [word_eq_fields w, hrsv, harg, hopc]
  rfl

theorem State.Moves.logsInto {s t : State} {a : HostAction} (h : s.Moves a t) (hreset : a ≠ .hardReset)
    (hsrst : a ≠ .write 0x0000 0x00000001) : s.res.LogsInto t.res := by
  cases h with
  | @command w i r hi hr =>
    have hne : i ≠ .srst := by rintro rfl; exact hsrst (by rw [decode_srst hi])
    exact (procedure_oneSide hne hr).notedIo.logsInto.trans (State.finish_logsInto r _)
  | illegal hw => exact ⟨_, rfl⟩
  | @register a ha v =>
    rcases s.writeLoc_res v (locate a) with h | h <;> rw [h]
    · exact .of_eq rfl
    · exact ⟨0x100, rfl⟩
  | read a => exact .of_eq rfl
  | load items hp => rw [State.setSource_res]; exact .of_eq rfl
  | hardReset => exact absurd rfl hreset

/-- Settles O20: whatever records anything sets bits of `ERRLOG`; the word of `SRST` is the one command that clears. -/
theorem errlogIsSticky : Obligations.ErrlogIsSticky := by
  intro s t h hreset hsrst
  cases he : s.env.script with
  | nil => rw [step, he] at h; cases h; exact BitVec.and_self
  | cons a rest =>
    rw [step_cons he] at h
    have hlogs := (act_moves h).logsInto (fun ha => hreset rest (ha ▸ he)) (fun ha => hsrst rest (ha ▸ he))
    exact hlogs.sticky

/-! ### Reset (R49, R280) -/

/-- Settles O15: at reset every session is closed, nothing is held, listed or recorded. -/
theorem invariantsHoldAtReset : Obligations.InvariantsHoldAtReset :=
  ⟨(softReset_unitInv State.reset).congr rfl rfl rfl rfl rfl rfl rfl, State.pointerInv_of_inactive rfl,
    State.memWf_of_unwritten rfl rfl, ResultRegs.wf_zero⟩

/-- Settles O14: the registers by evaluation, the memories because no word is listed, the step by its definition. -/
theorem resetLeavesSpecValues : Obligations.ResetLeavesSpecValues := by
  refine ⟨fun a ha => ?_, rfl, ⟨rfl, rfl, rfl, rfl, rfl, rfl, rfl⟩, rfl, fun _ => rfl, fun _ _ => rfl, rfl, rfl, rfl, rfl,
    fun s rest hs => ?_⟩
  · fin_cases ha <;> rfl
  · rw [step_cons hs]; rfl

/-! ### Registers (R33 to R45, R62) -/

theorem highHalf_append_lowHalf (c : Count) : highHalf c ++ lowHalf c = c := BitVec.extractLsb'_append_extractLsb'

/-- A write of a register while no session is open takes effect. -/
theorem act_write_unlocked {s : State} (hs : s.locked = false) {a : RegAddr} (ha : a ≠ 0x0000) (v : Word) :
    act (.write a v) s = .next (s.storeLoc v (locate a)) := by
  simp [act_write_register ha, State.writeLoc, hs]

/-- What a register of `k` bits reads back of a word written to it: its lowest `k` bits. -/
theorem setWidth_readback {n : Nat} (v : BitVec n) (k : Nat) :
    (v.setWidth k).setWidth n = v &&& (BitVec.allOnes k).setWidth n := by
  ext i hi
  simp [BitVec.getLsbD_eq_getElem hi, Bool.and_comm]

/-- Settles O11: the lock is off, so the field is stored, and a read is the field again with 0 above it. -/
theorem configRegisterWrites : Obligations.ConfigRegisterWrites := by
  intro s v hs
  refine ⟨⟨_, act_write_unlocked hs (by decide) v, ?_, setWidth_readback v 10, ?_, ?_⟩,
    ⟨_, act_write_unlocked hs (by decide) v, ?_, setWidth_readback v 1, ?_⟩,
    ⟨_, act_write_unlocked hs (by decide) v, rfl, BitVec.extractLsb'_append_eq_right⟩,
    ⟨_, act_write_unlocked hs (by decide) v, rfl, BitVec.extractLsb'_append_eq_left⟩⟩
  · rw [← BitVec.setWidth_eq_extractLsb' (by decide)]; rfl
  · exact BitVec.extractLsb'_setWidth_of_le (by decide)
  · exact (BitVec.getLsbD_setWidth ..).trans (Bool.true_and _)
  · rw [← BitVec.setWidth_eq_extractLsb' (by decide)]; rfl
  · exact (BitVec.getLsbD_setWidth ..).trans (Bool.true_and _)

theorem State.limited_eq_false_iff (s : State) : s.limited = false ↔ s.cfg.rdctl = 0 := by
  unfold State.limited
  generalize s.cfg.rdctl = v
  revert v; decide

/-- The fields of one bit of `STATUS` (R41). -/
theorem State.status_flags (s : State) : s.status.getLsbD 0 = s.bw.isOpen ∧ s.status.getLsbD 1 = s.br.isOpen ∧
    s.status.getLsbD 2 = s.dec.active ∧ s.status.getLsbD 3 = s.hasNext ∧ s.status.getLsbD 7 = false := by
  unfold State.status
  refine ⟨?_, ?_, ?_, ?_, ?_⟩ <;> (repeat rw [BitVec.getLsbD_append]) <;> simp

/-- The places of the wider fields in a word put together as `STATUS` is (R41). -/
theorem status_layout (byte acc : BitVec 8) (z rc : BitVec 4) (y : BitVec 1) (wc : BitVec 3) (a b c d : BitVec 1) :
    let v := byte ++ acc ++ z ++ rc ++ y ++ wc ++ a ++ b ++ c ++ d
    v.extractLsb' 4 3 = wc ∧ v.extractLsb' 8 4 = rc ∧ v.extractLsb' 12 4 = z ∧ v.extractLsb' 16 8 = acc ∧
      v.extractLsb' 24 8 = byte := by
  simp (disch := decide) only [BitVec.extractLsb'_append_eq_of_le, Nat.reduceSub, BitVec.extractLsb'_append_eq_right,
    BitVec.extractLsb'_eq_self, and_self]

/-- The wider fields of `STATUS` (R41). -/
theorem State.status_fields (s : State) : s.status.extractLsb' 4 3 = s.bw.cnt ∧ s.status.extractLsb' 8 4 = s.br.cnt ∧
    s.status.extractLsb' 12 4 = 0 ∧ s.status.extractLsb' 16 8 = s.bw.acc ∧ s.status.extractLsb' 24 8 = s.br.byte :=
  status_layout ..

/-- Settles O7: the map names the register, and what it reads is put together from the fields of the state. -/
theorem registersReadLive : Obligations.RegistersReadLive := by
  intro s v
  have hpad {k n : Nat} (x : BitVec n) : x.setWidth (k + n) = (0 : BitVec k) ++ x := BitVec.setWidth_eq_append (by omega)
  have hv : v = s.status := rfl
  rw [hv]
  obtain ⟨hwriter, hreader, hdec, hnext, hbit7⟩ := s.status_flags
  obtain ⟨hwcnt, hrcnt, hbits12, hacc, hbyte⟩ := s.status_fields
  refine ⟨hwriter, hreader, hdec, ?_, hwcnt, hbit7, hrcnt, hbits12, hacc, hbyte, highHalf_append_lowHalf _,
    highHalf_append_lowHalf _, hpad _, rfl, rfl, rfl, rfl, hpad _, hpad _, highHalf_append_lowHalf _, fun _ => rfl,
    fun a x ha => ?_⟩
  · rw [hnext, hasNext_iff, State.limited_eq_false_iff]
  · fin_cases ha <;> rfl

end Sys2Proof.Machine

namespace Sys2Proof.Machine

/-! ### Where a command stops (R50; logs 5, 6) -/

theorem exec_fault_iff {i : Instr} {s : State} {f : Fault} : exec i s = .fault f ↔ procedure i s = .error f := by
  rw [exec_eq]
  cases procedure i s <;> simp

theorem exec_not_refused (i : Instr) (s : State) (r : Refusal) : exec i s ≠ .refused r := by
  rw [exec_eq]
  cases procedure i s <;> exact nofun

/-- A code has at most 255 bits, so an encode reads no word of an entry after word 8 (R71, R73). -/
theorem State.MissingCode.word_le {s : State} {x : Symbol} {k : Nat} (h : s.MissingCode x k) : k ≤ 8 := by
  obtain ⟨-, rfl | ⟨w, -, -, -, hk⟩⟩ := h
  · exact Nat.zero_le 8
  · have hlen : entryLen w < 256 := (w.extractLsb' 0 8).isLt
    omega

/-- A command stops only at an unwritten word that it reads. -/
theorem procedure_error {i : Instr} {s : State} {f : Fault} (h : procedure i s = .error f) :
    (∃ n : NodeIdx, f = .unwrittenTree n.toNat ∧ s.treeAt n = none ∧ i ∈ [.decBit, .decRun]) ∨
      ∃ (x : Symbol) (k : Nat), f = .unwrittenCtab x.toNat k ∧ s.MissingCode x k ∧ (i = .encSym x ∨ i = .encRun) := by
  cases i with
  | encSym x =>
    simp only [procedure] at h
    split at h
    · split at h
      · rename_i hq
        cases h
        obtain ⟨k, rfl, hmiss⟩ := encSym_error hq
        exact .inr ⟨x, k, rfl, hmiss, .inl rfl⟩
      · cases h
    · cases h
  | encRun =>
    obtain ⟨x, k, rfl, hmiss⟩ := encRun_error h
    exact .inr ⟨x, k, rfl, hmiss, .inr rfl⟩
  | decBit =>
    simp only [procedure] at h
    split at h
    · cases h
    · split at h
      · obtain ⟨n, rfl, hn, -⟩ := decBit_error h
        exact .inl ⟨n, rfl, hn, by simp⟩
      · cases h
  | decRun =>
    obtain ⟨n, rfl, hn, -⟩ := decRun_error h
    exact .inl ⟨n, rfl, hn, by simp⟩
  | _ => cases h

/-- R192: the node the pointer stands at, or the child it is to go to, is unwritten. -/
theorem followEdge_stops {s : State} {b : Bool} {n : NodeIdx} (hn : s.treeAt n = none)
    (hread : n = s.dec.node ∨ s.childAt s.dec.node b = some n) : followEdge b s = .error (.unwrittenTree n.toNat) := by
  rcases hread with rfl | hchild
  · rw [followEdge, readNode_unwritten s hn]
  · unfold State.childAt at hchild
    split at hchild
    · rename_i w hw
      split at hchild <;> cases hchild
      rename_i hb
      rw [followEdge, readNode_eq s hw]
      simp only [hb, if_true, readNode_unwritten s hn]
    · cases hchild

theorem decBit_stops {s : State} {n : NodeIdx} (hf : s.br.cnt = 1 → s.env.fails = false) (hn : s.treeAt n = none)
    (hread : n = s.dec.node ∨ s.childAt s.dec.node s.nextBit = some n) :
    decBit s = .error (.unwrittenTree n.toNat) := by
  obtain ⟨u, hu, hframe, -⟩ := readBit_ok s hf
  have htree : u.tree = s.tree := by rw [hframe]
  have hdec : u.dec = s.dec := by rw [hframe]
  rw [decBit, hu]
  exact followEdge_stops ((State.treeAt_congr htree n).trans hn) (by rwa [hdec, State.childAt_congr htree])

/-- A `DEC.BIT` with both sessions open and a bit left is `DecBit()` (R193). -/
theorem procedure_decBit {s : State} (ha : s.dec.active = true) (ho : s.br.isOpen = true) (hn : s.hasNext = true) :
    procedure .decBit s = decBit s := by
  simp [procedure, ha, ho, hn]

/-- R203: where the `DEC.BIT` that `DEC.RUN` comes to stops, it stops. -/
theorem decRun_stops {s u : State} {n : Nat} {f : Fault} (ha : s.dec.active = false) (ho : s.br.isOpen = false)
    (hp : s.treePresent = true) (hu : runOk (.brOpen :: .decStart :: List.replicate n .decBit) s = some u)
    (hn : u.hasNext = true) (hf : procedure .decBit u = .error f) : procedure .decRun s = .error f := by
  obtain ⟨v, q, left, rfl, -, -, -, hact, hopen, hleft, hrun⟩ := decRun_reaches ha ho hp hu
  have hnext : v.hasNext = true := hn
  rw [procedure_decBit (s := v.withRes q) hact hopen hn, decBit_withRes] at hf
  have hbit : decBit v = .error f := by
    split at hf <;> cases hf
    assumption
  have hcnt := ((hasNext_iff v).1 hnext).2.1
  obtain ⟨m, rfl⟩ : ∃ m, left = m + 1 := ⟨left - 1, by unfold State.bitsLeft at hleft; omega⟩
  have hloop : decLoop (m + 1) v = .error f := by rw [decLoop, if_pos hnext, hbit]
  rw [hrun, hloop]

/-- R172: `ENC.SYM` stops at the first word of the entry it finds unwritten. -/
theorem procedure_encSym_stops {s : State} {x : Symbol} {code : List Bool} {k : Nat} (ho : s.bw.isOpen = true)
    (h : s.FirstMissing x code k) (hf : s.env.NoFail ((s.bw.cnt.toNat + code.length) / 8)) :
    procedure (.encSym x) s = .error (.unwrittenCtab x.toNat k) := by
  simp only [procedure, ho, if_true, encSym_stops h hf]

/-- R176: the loop of `ENC.RUN` stops where the `EncSym` of its next symbol does. -/
theorem encLoop_stops {s : State} {x : Symbol} {xs : List Symbol} {code : List Bool} {k n : Nat}
    (hx : s.ssrc.data = x :: xs) (h : s.FirstMissing x code k)
    (hf : s.env.NoFail (1 + (s.bw.cnt.toNat + code.length) / 8)) :
    encLoop n s = .error (.unwrittenCtab x.toNat k) := by
  obtain ⟨⟨hget, -⟩, hput⟩ := (Environment.noFail_add 1 _ _).1 hf
  have hstop := encSym_stops (s := s.afterDraw.setSource .ssrc { s.source .ssrc with data := xs }) (h.congr rfl) hput
  cases n <;> rw [encLoop, State.get_item .ssrc hget hx] <;> simp only [hstop]

theorem encRun_stops {s : State} {pre rest : List Symbol} {x : Symbol} {bits code : List Bool} {k : Nat}
    (ho : s.bw.isOpen = false) (hx : s.ssrc.data = pre ++ x :: rest) (hb : s.encodeBits pre = some bits)
    (h : s.FirstMissing x code k) (hf : s.env.NoFail (3 + pre.length + (bits.length + code.length) / 8)) :
    procedure .encRun s = .error (.unwrittenCtab x.toNat k) := by
  have hops : 3 + pre.length + (bits.length + code.length) / 8 =
      2 + pre.length + bits.length / 8 + (1 + (bits.length % 8 + code.length) / 8) := by omega
  rw [hops, Environment.noFail_add] at hf
  have hcnt : (BitVec.ofNat 3 (bits.length % 8)).toNat = bits.length % 8 := by simp
  have hloop := encLoop_stops (n := (x :: rest).length)
    (s := s.encoded (x :: rest) bits (s.env.advanceN (2 + pre.length + bits.length / 8))) rfl (h.congr rfl)
    (by simpa only [State.encoded, hcnt] using hf.2)
  rw [encRun_reaches ho hx hb hf.1, hloop]

/-- Settles O29: the words a stop can name are those its procedure reads; each stop is the procedure run up to the read
of that word. -/
theorem unwrittenWordsStop : Obligations.UnwrittenWordsStop := by
  refine ⟨fun i s => ⟨exec_not_refused i s, fun f hf => ?_⟩, fun s ha ho hn hf => ?_,
    fun s u n f ha ho hp hu hn hf => exec_fault_iff.2 (decRun_stops ha ho hp hu hn (exec_fault_iff.1 hf)),
    fun s x code k ho h hf => exec_fault_iff.2 (procedure_encSym_stops ho h hf),
    fun s pre x rest bits code k ho hx hb h hf => exec_fault_iff.2 (encRun_stops ho hx hb h hf)⟩
  · refine (procedure_error (exec_fault_iff.1 hf)).imp_right ?_
    rintro ⟨x, k, rfl, hmiss, hi⟩
    exact ⟨x, k, rfl, hmiss.word_le, hmiss.1, hi⟩
  · have hstop {n : NodeIdx} (hw : s.treeAt n = none) (hread : n = s.dec.node ∨ s.childAt s.dec.node s.nextBit = some n) :
        exec .decBit s = .fault (.unwrittenTree n.toNat) := by
      rw [exec_fault_iff, procedure_decBit ha ho hn]
      exact decBit_stops hf hw hread
    refine ⟨fun hnode => hstop hnode (.inl rfl), fun w hw hleaf hbit hchild => hstop hchild (.inr ?_)⟩
    have hhas : nodeHasChild w s.nextBit = true := (nodeHasChild_iff w _).2 ⟨hleaf, hbit⟩
    simp only [State.childAt, hw, hhas, if_true]
    rfl

end Sys2Proof.Machine

/-! ## Proofs: the statements of `20_memory.md` -/

namespace Sys2Proof.Machine

/-! ### The register map (R62, R63, R66, R70, R74) -/

theorem locate_tree {a : RegAddr} (hlo : 0x0800 ≤ a.toNat) (hhi : a.toNat ≤ 0x09FF) :
    locate a = .tree (a.toNat - 0x0800) := by
  rw [locate, if_neg (by omega), if_pos (by omega)]

theorem locate_ctab {a : RegAddr} (hlo : 0x1000 ≤ a.toNat) (hhi : a.toNat ≤ 0x1FFF) (hword : a.toNat % 16 ≤ 8) :
    locate a = .ctab (a.toNat - 0x1000) := by
  rw [locate, if_neg (by omega), if_neg (by omega), if_pos (by omega)]

theorem locate_reserved {a : RegAddr} (h : a = 0x0007 ∨ (0x0010 ≤ a.toNat ∧ a.toNat ≤ 0x07FF) ∨
    (0x0A00 ≤ a.toNat ∧ a.toNat ≤ 0x0FFF) ∨ 0x2000 ≤ a.toNat ∨
    (0x1000 ≤ a.toNat ∧ a.toNat < 0x2000 ∧ 9 ≤ a.toNat % 16)) : locate a = .reserved := by
  rcases h with rfl | h
  · rfl
  · rw [locate, if_neg (by omega), if_neg (by omega), if_neg (by omega)]

/-! ### Host writes and reads (R63, R75, R76) -/

/-- What the lock does not protect takes no write at all (R63). -/
theorem State.writeLoc_not_lockable (s : State) (v : Word) {l : Loc} (hl : l.lockable = false) :
    s.writeLoc v l = s := by
  cases l
  case treecfg | rdctl | rdlimitLo | rdlimitHi | tree | ctab => cases hl
  all_goals rfl

theorem act_write_ignored {a : RegAddr} (ha : a ≠ 0x0000) (hl : (locate a).lockable = false) (v : Word) (s : State) :
    act (.write a v) s = .next s := by
  rw [act_write_register ha, State.writeLoc_not_lockable s v hl]

theorem ne_cmd_of_lockable {a : RegAddr} (hl : (locate a).lockable = true) : a ≠ 0x0000 := by
  rintro rfl
  cases hl

theorem act_write_locked {s : State} (hs : s.locked = true) {a : RegAddr} (hl : (locate a).lockable = true) (v : Word) :
    act (.write a v) s = .next { s with res := { s.res with errlog := s.res.errlog ||| 0x100 } } := by
  simp only [act_write_register (ne_cmd_of_lockable hl), State.writeLoc, hl, hs, Bool.and_self, if_true]
  rfl

theorem act_read_locate {a : RegAddr} {l : Loc} (hl : locate a = l) (s : State) :
    act (.read a) s = .next { s with env := { s.env with readData := s.readLoc l } } := by
  subst hl; rfl

theorem State.locked_iff (s : State) :
    s.locked = true ↔ s.bw.isOpen = true ∨ s.br.isOpen = true ∨ s.dec.active = true := by
  simp [State.locked, or_assoc]

/-- Settles O8: such an address names a location that takes no write. -/
theorem reservedAddressesAreInert : Obligations.ReservedAddressesAreInert := by
  intro s a v
  refine ⟨fun ha => ?_, fun ha => act_write_ignored ?_ ?_ v s, rfl⟩
  · have hl := locate_reserved ha
    have hne : a ≠ 0x0000 := by rintro rfl; cases hl
    exact ⟨act_write_ignored hne (by rw [hl]; rfl) v s, act_read_locate hl s⟩
  · fin_cases ha <;> decide
  · fin_cases ha <;> rfl

/-- Settles O12: each of these addresses names a location that the lock protects. -/
theorem lockedWriteOnlyRecords : Obligations.LockedWriteOnlyRecords := by
  intro s a v hs ha
  refine act_write_locked (s.locked_iff.2 hs) ?_ v
  rcases ha with rfl | rfl | rfl | rfl | ⟨hlo, hhi⟩ | ⟨hlo, hhi, hword⟩
  · rfl
  · rfl
  · rfl
  · rfl
  · rw [locate_tree hlo hhi]; rfl
  · rw [locate_ctab hlo hhi hword]; rfl

/-! ### The two windows (R66, R70) -/

theorem Mem.read_write (m : Mem) (a b : Nat) (v : Word) :
    Mem.read (Mem.write m a v) b = if b = a then some v else Mem.read m b := by
  by_cases h : b = a
  · rw [if_pos h, h, Mem.read_write_same]
  · rw [if_neg h, Mem.read_write_other m v h]

theorem locate_treeAddress (i : NodeIdx) : locate (0x0800 + i.setWidth 16) = .tree i.toNat := by
  have ha : (0x0800 + i.setWidth 16 : RegAddr).toNat = 0x0800 + i.toNat := by bv_omega
  have hi := i.isLt
  rw [locate_tree (by omega) (by omega), ha, Nat.add_sub_cancel_left]

theorem ctabAddress_toNat (x : Symbol) {k : Nat} (hk : k ≤ 15) :
    (BitVec.ofNat 16 (0x1000 + 16 * x.toNat + k)).toNat = 0x1000 + (16 * x.toNat + k) := by
  have hx := x.isLt
  rw [BitVec.toNat_ofNat]
  omega

theorem locate_ctabAddress (x : Symbol) {k : Nat} (hk : k ≤ 8) :
    locate (BitVec.ofNat 16 (0x1000 + 16 * x.toNat + k)) = .ctab (ctabOffset x k) := by
  have ha := ctabAddress_toNat x (k := k) (by omega)
  have hx := x.isLt
  rw [locate_ctab (by omega) (by omega) (by omega), ha, Nat.add_sub_cancel_left]
  rfl

theorem locate_ctabReserved (x : Symbol) {k : Nat} (hlo : 9 ≤ k) (hhi : k ≤ 15) :
    locate (BitVec.ofNat 16 (0x1000 + 16 * x.toNat + k)) = .reserved := by
  have ha := ctabAddress_toNat x hhi
  have hx := x.isLt
  exact locate_reserved (by omega)

/-- Settles O9: the address names `TREE[i]`, which the lock protects. -/
theorem treeWindow : Obligations.TreeWindow := by
  intro s i v a
  have hl : locate a = .tree i.toNat := locate_treeAddress i
  have hlock : (locate a).lockable = true := by rw [hl]; rfl
  refine ⟨fun hs => ⟨_, ?_, (Mem.read_write s.tree i.toNat · v)⟩, fun hs => act_write_locked hs hlock v,
    fun w hw => ?_, fun _ => ⟨_, act_read_locate hl s⟩⟩
  · rw [act_write_unlocked hs (ne_cmd_of_lockable hlock), hl]; rfl
  · have hw : Mem.read s.tree i.toNat = some w := hw
    rw [act_read_locate hl, State.readLoc, hw, Option.getD_some]

/-- Settles O10: the address names word `k` of the entry, or none that exists. -/
theorem ctabWindow : Obligations.CtabWindow := by
  constructor
  · intro s x k v hk a
    have hl : locate a = .ctab (ctabOffset x k) := locate_ctabAddress x hk
    have hlock : (locate a).lockable = true := by rw [hl]; rfl
    refine ⟨fun hs => ⟨_, ?_, (Mem.read_write s.ctab (ctabOffset x k) · v)⟩, fun hs => act_write_locked hs hlock v,
      fun w hw => ?_, fun _ => ⟨_, act_read_locate hl s⟩⟩
    · rw [act_write_unlocked hs (ne_cmd_of_lockable hlock), hl]; rfl
    · have hw : Mem.read s.ctab (ctabOffset x k) = some w := hw
      rw [act_read_locate hl, State.readLoc, hw, Option.getD_some]
  · intro s x k v hlo hhi a
    have hl : locate a = .reserved := locate_ctabReserved x hlo hhi
    have hne : a ≠ 0x0000 := by intro h0; rw [h0] at hl; cases hl
    exact ⟨act_write_ignored hne (by rw [hl]; rfl) v s, act_read_locate hl s⟩

/-! ### The lock along a step (R76, R82) -/

theorem State.Moves.keepsConfiguration {s t : State} {a : HostAction} (h : s.Moves a t) (hs : s.locked = true)
    (hreset : a ≠ .hardReset) : t.tree = s.tree ∧ t.ctab = s.ctab ∧ t.cfg = s.cfg := by
  cases h with
  | command hi hr =>
    obtain ⟨hcfg, htree, hctab, -⟩ := (procedure_sameSetup hr).finish (opcodeOf _)
    exact ⟨htree, hctab, hcfg⟩
  | illegal hw => exact ⟨rfl, rfl, rfl⟩
  | @register a ha v =>
    obtain ⟨hcfg, htree, hctab⟩ := State.writeLoc_locked hs v (locate a)
    exact ⟨htree, hctab, hcfg⟩
  | read a => exact ⟨rfl, rfl, rfl⟩
  | load items hp => exact ⟨State.setSource_tree .., State.setSource_ctab .., State.setSource_cfg ..⟩
  | hardReset => exact absurd rfl hreset

/-- Settles O13: no command writes a memory or the configuration, and the lock keeps the host's writes out. -/
theorem openSessionKeepsConfiguration : Obligations.OpenSessionKeepsConfiguration := by
  intro s t h hs hreset
  cases he : s.env.script with
  | nil => rw [step, he] at h; cases h; exact ⟨rfl, rfl, rfl⟩
  | cons a rest =>
    rw [step_cons he] at h
    exact (act_moves h).keepsConfiguration hs fun ha => hreset rest (ha ▸ he)

/-! ### Steps of the host (R75, R79, R296) -/

/-- What a read answers depends on the host's side only through the number of the free values (R75; log 4). -/
theorem State.readLoc_withEnv (s : State) {e : Environment} (he : e.freeIdx = s.env.freeIdx) (l : Loc) :
    { s with env := e }.readLoc l = s.readLoc l := by
  cases l with
  | tree i => simp only [State.readLoc, he]
  | ctab off => simp only [State.readLoc, he]
  | _ => rfl

theorem step_read {s : State} {a : RegAddr} {rest : List HostAction} {v : Word}
    (hs : s.env.script = .read a :: rest) (hv : s.readLoc (locate a) = v) :
    step s = .next { s with env := { s.env with script := rest, readData := v } } := by
  have hread : (s.take (.read a) rest).readLoc (locate a) = v := (s.readLoc_withEnv rfl _).trans hv
  rw [step_cons hs, act_read_locate rfl, hread]
  rfl

theorem act_load_free {s : State} {p : SourcePort} (hp : (s.source p).held = false) (items : List (BitVec 8)) :
    act (.load p items) s = .next (s.setSource p { held := false, data := items }) := by
  simp [act, loadSource, hp]

theorem act_load_held {s : State} {p : SourcePort} (hp : (s.source p).held = true) (items : List (BitVec 8)) :
    act (.load p items) s = .refused (.sourceHeld p) := by
  simp [act, loadSource, hp]

/-- Settles O5: the step is the action at the head of the script; between two reads the free values stay. -/
theorem stepTakesNextAction : Obligations.StepTakesNextAction := by
  refine ⟨fun s hs => by rw [step, hs], fun s a rest hs => ?_, fun s items => ?_, fun s a rest hs => ?_⟩
  · rw [step_cons hs]
    refine ⟨?_, fun hne => ?_⟩
    · rintro ⟨r, rfl⟩; rfl
    · cases a with
      | read r => exact absurd rfl (hne r)
      | _ => rfl
  · exact ⟨(act_load_free (p := .bsrc) · items), (act_load_free (p := .ssrc) · items),
      (act_load_held (p := .bsrc) · items), (act_load_held (p := .ssrc) · items)⟩
  · exact ⟨_, step_read hs rfl, step_read rfl (s.readLoc_withEnv rfl _)⟩

/-! ### `ENC.SYM` (R172, R174) -/

/-- `RESULT` with its lower half, which holds the flags and the code, apart (R38). -/
theorem resultWord_eq_append (opc : BitVec 8) (sym : Symbol) (emit val : Bool) (code : BitVec 4) :
    resultWord opc sym emit val code =
      opc ++ sym ++ ((0 : BitVec 6) ++ BitVec.ofBool emit ++ BitVec.ofBool val ++ (0 : BitVec 4) ++ code : BitVec 16) := by
  simp only [resultWord, BitVec.append_assoc, BitVec.cast_eq]

/-- `RESULT` of a command that names a symbol and emits none (R38). -/
theorem resultWord_symbol (opc : BitVec 8) (sym : Symbol) :
    resultWord opc sym false false 0 = opc ++ sym ++ (0x0000 : BitVec 16) := by
  rw [resultWord_eq_append]; rfl

/-- `RESULT` of a command that emits a symbol (R38). -/
theorem resultWord_emit (opc : BitVec 8) (sym : Symbol) (b : Bool) :
    resultWord opc sym true b 0 = opc ++ sym ++ (if b then 0x0300 else 0x0200 : BitVec 16) := by
  rw [resultWord_eq_append]
  cases b <;> rfl

/-- An entry of `CTAB` as R71 to R73 lay it out holds the code. -/
theorem State.entryCode_of_places {s : State} {x : Symbol} {h : Word} {code : List Bool} (hh : s.ctabAt x 0 = some h)
    (hv : h.getLsbD 31 = true) (hlen : code.length = (h.extractLsb' 0 8).toNat)
    (hbits : ∀ i b, code[i]? = some b → ∃ w, s.ctabAt x (1 + i / 32) = some w ∧ w.getLsbD (31 - i % 32) = b) :
    s.entryCode x = some code := by
  have hv : entryValid h = true := hv
  have hlen : entryLen h = code.length := hlen.symm
  simp only [State.entryCode, hh, hv, if_true, hlen]
  exact State.codeBits_of_places code 0 fun i b hi => by rw [Nat.zero_add]; exact hbits i b hi

theorem exec_encSym {s : State} {x : Symbol} {code : List Bool} (ho : s.bw.isOpen = true)
    (hc : s.entryCode x = some code) :
    exec (.encSym x) s =
      .next (State.finish 0x30 ((writeBits code s).andThen fun _ t => .ok { sym := x } t)) := by
  change execEncSym x s = _
  simp only [execEncSym, ho, if_true, encSym_eq hc, finishRead_ok]

/-- Settles O45: the entry holds `code`, and the command writes its bits behind those pending. -/
theorem encSymWritesCode : Obligations.EncSymWritesCode := by
  intro s x h code ho hacc hh hv hlen hbits full q
  have hp := State.pending_of_accLow ho hacc
  rw [exec_encSym ho (State.entryCode_of_places hh hv hlen hbits)]
  refine ⟨fun hf => ?_, fun j hj hf hx => ?_⟩
  · rw [writeBits_eq code s _ hp hf, Res.andThen_ok, State.finish_ok, State.done, resultWord_symbol]
  · obtain ⟨data, hd⟩ := writeBits_fail code s _ j hp hj hf hx
    exact ⟨data, by rw [hd, ← hp.cnt]; rfl⟩

/-! ### `DEC.BIT` (R192, R193, R195) -/

/-- What `DEC.BIT` records of an absent child (R38 to R40, R253). -/
theorem State.raise_absentChild (s : State) (n : NodeIdx) (b : Bool) :
    s.raise 0x41 (.absentChild n b) = { s with res := {
      result := 0x41000003
      errinfo := (if b then 0x003 else 0x002 : BitVec 15) ++ n ++ (0 : BitVec 8)
      errlog := s.res.errlog ||| 0x8 } } := by
  have hresult : resultWord 0x41 0 false false (Failure.absentChild n b).code = 0x41000003 := by
    rw [Failure.code]; rfl
  have hinfo : (Failure.absentChild n b).info = (if b then 0x003 else 0x002 : BitVec 15) ++ n ++ (0 : BitVec 8) := by
    cases b <;> rfl
  have hlog : logBit (Failure.absentChild n b).code = 0x8 := rfl
  rw [State.raise, hresult, hinfo, hlog]

theorem exec_brReadbit {s : State} (ho : s.br.isOpen = true) (hn : s.hasNext = true) {b : Bool} {u : State}
    (h : readBit s = .ok b u) : exec .brReadbit s = .next (u.done 0x22 { val := b }) := by
  change execBrReadbit s = _
  simp only [execBrReadbit, ho, hn, if_true, h, Res.andThen_ok, State.finish_ok]

section

variable {s u : State} {b : Bool} {w w2 : Word} (ha : s.dec.active = true) (ho : s.br.isOpen = true)
  (hn : s.hasNext = true) (h : readBit s = .ok b u) (hw : u.treeAt u.dec.node = some w)
include ha ho hn h

/-- `DEC.BIT` follows the edge of the bit that `ReadBit` hands out. -/
theorem exec_decBit : exec .decBit s = finishRead 0x41 (followEdge b u) := by
  rw [exec_eq, procedure_decBit ha ho hn, decBit, h]
  rfl

include hw

theorem exec_decBit_internal (hc : nodeHasChild w b = true) (hw2 : u.treeAt (nodeChild w b) = some w2)
    (hl : nodeIsLeaf w2 = false) :
    exec .decBit s = .next { u with
      dec := { active := u.dec.active, node := nodeChild w b }
      res := { u.res with result := if b then 0x41000100 else 0x41000000 } } := by
  rw [exec_decBit ha ho hn h, followEdge_internal u hw hc hw2 hl]
  cases b <;> rfl

theorem exec_decBit_leaf (hc : nodeHasChild w b = true) (hw2 : u.treeAt (nodeChild w b) = some w2)
    (hl : nodeIsLeaf w2 = true) (hf : u.env.fails = false) :
    exec .decBit s = .next { u with
      dec := { active := u.dec.active, node := u.treeRoot }
      ssink := { u.ssink with data := u.ssink.data ++ [nodeSym w2] }
      env := u.env.advance
      res := { u.res with
        result := (0x41 : BitVec 8) ++ nodeSym w2 ++ (if b then 0x0300 else 0x0200 : BitVec 16) } } := by
  rw [exec_decBit ha ho hn h, followEdge_leaf u hw hc hw2 hl, emitLeaf_ok u b w2 hf, ← resultWord_emit]
  rfl

theorem exec_decBit_absent (hopen : u.br.isOpen = true) (hc : nodeHasChild w b = false) :
    exec .decBit s = .next { u with
      br := { isOpen := false, byte := 0, cnt := 0, total := u.br.total }
      bsrc := { u.bsrc with held := false }
      dec := { active := false, node := u.dec.node }
      ssink := { u.ssink with held := false }
      res := { result := 0x41000003
               errinfo := (if b then 0x003 else 0x002 : BitVec 15) ++ u.dec.node ++ (0 : BitVec 8)
               errlog := u.res.errlog ||| 0x8 } } := by
  rw [exec_decBit ha ho hn h, followEdge_absent u hw hc, abortDecode_open u hopen, finishRead_ok,
    State.finish_raised, State.raise_absentChild]

end

/-- Settles O50: `ReadBit` leaves the tree and the decoder alone, so the edge is the one of the node word. -/
theorem decBitFollowsEdge : Obligations.DecBitFollowsEdge := by
  intro s w ha ho hn hf hw b present child
  obtain ⟨u, hread, hframe, henv, hopen, htotal, -, -⟩ := readBit_ok s hf
  have hdec : u.dec = s.dec := by rw [hframe]
  have hcfg : u.cfg = s.cfg := by rw [hframe]
  have hres : u.res = s.res := by rw [hframe]
  have hssink : u.ssink = s.ssink := by rw [hframe]
  have htree (n : NodeIdx) : u.treeAt n = s.treeAt n := State.treeAt_congr (by rw [hframe]) n
  have hnode : u.treeAt u.dec.node = some w := by rw [htree, hdec, hw]
  have hedge : nodeHasChild w s.nextBit = true ↔ present := nodeHasChild_iff w b
  refine ⟨u.done 0x22 { val := b }, exec_brReadbit ho hn hread, henv, fun hp w2 hw2 => ⟨fun hl => ?_, fun hl hput => ?_⟩,
    fun hp => ?_⟩
  · rw [exec_decBit_internal ha ho hn hread hnode (hedge.2 hp) ((htree _).trans hw2) hl, hdec, hres, ha]
    rfl
  · rw [exec_decBit_leaf ha ho hn hread hnode (hedge.2 hp) ((htree _).trans hw2) hl hput, State.treeRoot_congr hcfg,
      hdec, hres, hssink, ha]
    rfl
  · rw [exec_decBit_absent ha ho hn hread hnode (hopen.trans ho) (Bool.not_eq_true _ ▸ mt hedge.1 hp), hdec, hres,
      hssink, htotal]
    rfl

end Sys2Proof.Machine

/-! ## Proofs: the statements of `30_encoding.md` -/

namespace Sys2Proof

open Machine (word_eq_fields decodeN_eq_ok decodeB_eq_ok)

/-! ### The fields of a command word (R100) -/

/-- A word is known by its three fields (R100). -/
theorem word_eq_iff {w v : Word} :
    w = v ↔ fieldRsv w = fieldRsv v ∧ fieldArg w = fieldArg v ∧ fieldOpc w = fieldOpc v := by
  refine ⟨by rintro rfl; exact ⟨rfl, rfl, rfl⟩, fun ⟨hrsv, harg, hopc⟩ => ?_⟩
  rw [word_eq_fields w, hrsv, harg, hopc, ← word_eq_fields]

@[simp] theorem fieldOpc_append (rsv : BitVec 16) (arg opc : BitVec 8) : fieldOpc (rsv ++ arg ++ opc) = opc :=
  BitVec.extractLsb'_append_eq_right

@[simp] theorem fieldArg_append (rsv : BitVec 16) (arg opc : BitVec 8) : fieldArg (rsv ++ arg ++ opc) = arg :=
  (BitVec.extractLsb'_append_eq_of_le (by decide)).trans BitVec.extractLsb'_append_eq_right

@[simp] theorem fieldRsv_append (rsv : BitVec 16) (arg opc : BitVec 8) : fieldRsv (rsv ++ arg ++ opc) = rsv :=
  (BitVec.extractLsb'_append_eq_of_le (by decide)).trans BitVec.extractLsb'_append_eq_left

@[simp] theorem fieldOpc_commandWord (opc arg : BitVec 8) : fieldOpc (commandWord opc arg) = opc := fieldOpc_append ..

@[simp] theorem fieldArg_commandWord (opc arg : BitVec 8) : fieldArg (commandWord opc arg) = arg := fieldArg_append ..

@[simp] theorem fieldRsv_commandWord (opc arg : BitVec 8) : fieldRsv (commandWord opc arg) = 0 := fieldRsv_append ..

/-- A word with `RSV` clear is the command word of its live fields (R100). -/
theorem commandWord_fields {w : Word} (hrsv : fieldRsv w = 0) : commandWord (fieldOpc w) (fieldArg w) = w := by
  simp only [word_eq_iff, fieldRsv_commandWord, fieldArg_commandWord, fieldOpc_commandWord, hrsv, and_self]

/-- The bits of `ARG` above its bit 0 are bits [15:9] of the word (R100, R101). -/
theorem fieldArg_upper (w : Word) : (fieldArg w).extractLsb' 1 7 = w.extractLsb' 9 7 := by
  apply BitVec.eq_of_getLsbD_eq
  intro i hi
  have hi' : 1 + i < 8 := by omega
  simp only [fieldArg, BitVec.getLsbD_extractLsb', hi, hi', ← Nat.add_assoc]
  rfl

/-! ### The decoder and the encoder (R101 to R104) -/

theorem decode_eq_ok {w : Word} {i : Instr} :
    decode w = .ok i ↔ fieldRsv w = 0 ∧ decodeOpc (fieldOpc w) (fieldArg w) = .ok i := by
  unfold decode
  split <;> rename_i hrsv
  · simp only [hrsv, true_and]
  · simp only [hrsv, false_and, reduceCtorEq]

theorem decode_commandWord (opc arg : BitVec 8) : decode (commandWord opc arg) = decodeOpc opc arg := by
  simp only [decode, fieldRsv_commandWord, fieldArg_commandWord, fieldOpc_commandWord, if_true]

/-- Where the upper bits of `ARG` are clear its bit 0 is the whole of it (R101). -/
theorem operandB_of_clear : ∀ arg : BitVec 8, arg.extractLsb' 1 7 = 0 → (if arg.getLsbD 0 then 1 else 0) = arg := by
  decide

/-- Whatever command `r` gives for these fields, the encoder writes it back with the same fields. -/
def EncodesBack (opc arg : BitVec 8) (r : Except Reject Instr) : Prop :=
  ∀ i, r = .ok i → encode i = commandWord opc arg

namespace EncodesBack

variable {opc arg : BitVec 8}

/-- A row of the opcode map (R104), before the rows that follow it. -/
theorem row {c : BitVec 8} {r rs : Except Reject Instr} (hr : EncodesBack c arg r) (hrs : EncodesBack opc arg rs) :
    EncodesBack opc arg (if opc = c then r else rs) := by
  split
  case isTrue h => exact h ▸ hr
  case isFalse => exact hrs

/-- Format N accepts `ARG` only where it is 0, as the encoder writes it (R101). -/
theorem formatN {i : Instr} (hi : encode i = commandWord opc 0) : EncodesBack opc arg (decodeN arg i) := by
  intro j h
  obtain ⟨rfl, rfl⟩ := decodeN_eq_ok.1 h
  exact hi

theorem formatB : EncodesBack 0x11 arg (decodeB arg .bwWritebit) := by
  intro j h
  obtain ⟨hclear, rfl⟩ := decodeB_eq_ok.1 h
  rw [encode, operandB_of_clear arg hclear]

theorem formatS : EncodesBack 0x30 arg (.ok (.encSym arg)) := by
  rintro _ ⟨⟩
  rfl

/-- The rows in the order of R104. -/
theorem opcodeMap : EncodesBack opc arg (decodeOpc opc arg) :=
  .row (.formatN rfl) <| .row (.formatN rfl) <|
  .row (.formatN rfl) <| .row .formatB <| .row (.formatN rfl) <|
  .row (.formatN rfl) <| .row (.formatN rfl) <| .row (.formatN rfl) <| .row (.formatN rfl) <|
  .row .formatS <| .row (.formatN rfl) <|
  .row (.formatN rfl) <| .row (.formatN rfl) <| .row (.formatN rfl) <| .row (.formatN rfl) <| nofun

end EncodesBack

theorem decode_encode (i : Instr) : decode (encode i) = .ok i := by
  cases i with
  | bwWritebit b => cases b <;> rfl
  | encSym s => exact decode_commandWord 0x30 s
  | _ => rfl

/-- Settles O1: decoding undoes encoding for every command, and what a word decodes to has that word's fields. -/
theorem decodeExactlyInvertsEncode : Obligations.DecodeExactlyInvertsEncode := by
  intro w i
  constructor
  · intro h
    obtain ⟨hrsv, hopc⟩ := decode_eq_ok.1 h
    exact (EncodesBack.opcodeMap i hopc).trans (commandWord_fields hrsv)
  · rintro rfl
    exact decode_encode i

/-! ### The three forms of R103 -/

/-- R101 and check (c) of R103, by the format that the opcode has. -/
def FitsFormat (opc arg : BitVec 8) : Prop :=
  opc ∈ opcodesN ∧ arg = 0 ∨ opc ∈ opcodesB ∧ arg.extractLsb' 1 7 = 0 ∨ opc ∈ opcodesS

theorem rsvClear_iff {w : Word} : rsvClear w = true ↔ fieldRsv w = 0 := beq_iff_eq

theorem opcDefined_iff {w : Word} :
    opcDefined w = true ↔ (fieldOpc w ∈ opcodesN ∨ fieldOpc w ∈ opcodesB) ∨ fieldOpc w ∈ opcodesS :=
  List.contains_iff_mem.trans (List.mem_append.trans (or_congr_left List.mem_append))

theorem argFits_iff {w : Word} :
    argFits w = true ↔ (fieldOpc w ∈ opcodesN → fieldArg w = 0) ∧
      (fieldOpc w ∈ opcodesB → (fieldArg w).extractLsb' 1 7 = 0) := by
  rw [fieldArg_upper]
  simp only [argFits, fieldOpc, fieldArg, Bool.and_eq_true, Bool.or_eq_true, Bool.not_eq_true', ← Bool.not_eq_true,
    beq_iff_eq, List.contains_iff_mem, imp_iff_not_or]

/-- The first form of R103: no opcode has two formats, so the checks (b) and (c) name the one it has. -/
theorem legalWord_iff {w : Word} : legalWord w = true ↔ fieldRsv w = 0 ∧ FitsFormat (fieldOpc w) (fieldArg w) := by
  have hB : ∀ opc ∈ opcodesB, opc ∉ opcodesN := by decide
  have hS : ∀ opc ∈ opcodesS, opc ∉ opcodesN ∧ opc ∉ opcodesB := by decide
  have hopcB := hB (fieldOpc w)
  have hopcS := hS (fieldOpc w)
  rw [legalWord, Bool.and_eq_true, Bool.and_eq_true, rsvClear_iff, opcDefined_iff, argFits_iff, FitsFormat]
  tauto

/-- The row of R104 for an opcode whose format leaves free the bits of `ARG` that `mask` clears. -/
def formatRow (mask opc : BitVec 8) : Word × Word :=
  (commandWord opc 0, (0xFFFF : BitVec 16) ++ mask ++ (0xFF : BitVec 8))

/-- The mask column of R104 follows from the format. -/
theorem opcodeRows_perm_formatRows :
    opcodeRows.Perm
      (opcodesN.map (formatRow 0xFF) ++ opcodesB.map (formatRow 0xFE) ++ opcodesS.map (formatRow 0x00)) := by
  decide

theorem matches_formatRow {w : Word} {mask opc : BitVec 8} :
    w &&& (formatRow mask opc).2 = (formatRow mask opc).1 ↔
      fieldRsv w = 0 ∧ fieldArg w &&& mask = 0 ∧ fieldOpc w = opc := by
  have hopc : fieldOpc w &&& 0xFF = fieldOpc w := BitVec.and_allOnes
  have hrsv : fieldRsv w &&& 0xFFFF = fieldRsv w := BitVec.and_allOnes
  have hand : w &&& (formatRow mask opc).2 = fieldRsv w ++ (fieldArg w &&& mask) ++ fieldOpc w := by
    conv_lhs => rw [word_eq_fields w]
    rw [formatRow, BitVec.and_append, BitVec.and_append, hopc, hrsv]
  rw [hand, formatRow, word_eq_iff]
  simp only [fieldRsv_append, fieldArg_append, fieldOpc_append, fieldRsv_commandWord, fieldArg_commandWord,
    fieldOpc_commandWord]

theorem any_formatRow {w : Word} {mask : BitVec 8} {opcs : List (BitVec 8)} :
    (opcs.map (formatRow mask)).any (fun r => w &&& r.2 == r.1) = true ↔
      fieldOpc w ∈ opcs ∧ fieldRsv w = 0 ∧ fieldArg w &&& mask = 0 := by
  simp only [List.any_map, List.any_eq_true, Function.comp_apply, beq_iff_eq, matches_formatRow,
    ↓existsAndEq, and_true]

/-- The mask of format B keeps all of `ARG` but its bit 0 (R101). -/
theorem and_maskB_eq_zero : ∀ arg : BitVec 8, arg &&& 0xFE = 0 ↔ arg.extractLsb' 1 7 = 0 := by
  decide

/-- The second form of R103. -/
theorem matchesRow_iff {w : Word} : matchesRow w = true ↔ fieldRsv w = 0 ∧ FitsFormat (fieldOpc w) (fieldArg w) := by
  have hN : fieldArg w &&& 0xFF = fieldArg w := BitVec.and_allOnes
  have hS : fieldArg w &&& 0x00 = 0 := BitVec.and_zero
  rw [matchesRow, opcodeRows_perm_formatRows.any_eq, FitsFormat]
  simp only [List.any_append, Bool.or_eq_true, any_formatRow, hN, and_maskB_eq_zero, hS]
  tauto

/-- Fields that fit a format are those of a command. -/
theorem decodeOpc_of_fitsFormat {opc arg : BitVec 8} (h : FitsFormat opc arg) : ∃ i, decodeOpc opc arg = .ok i := by
  obtain ⟨hN, rfl⟩ | ⟨hB, harg⟩ | hS := h
  · fin_cases hN <;> exact ⟨_, rfl⟩
  · obtain rfl := List.mem_singleton.1 hB
    exact ⟨_, decodeB_eq_ok.2 ⟨harg, rfl⟩⟩
  · obtain rfl := List.mem_singleton.1 hS
    exact ⟨_, rfl⟩

/-- The encoder writes legal words only (R103). -/
theorem encode_legal (i : Instr) : legalWord (encode i) = true := by
  cases i with
  | nop => exact Laws.EncodeLegal.nop
  | srst => exact Laws.EncodeLegal.srst
  | bwOpen => exact Laws.EncodeLegal.bwOpen
  | bwWritebit b => exact Laws.EncodeLegal.bwWritebit b
  | bwClose => exact Laws.EncodeLegal.bwClose
  | brOpen => exact Laws.EncodeLegal.brOpen
  | brHasnext => exact Laws.EncodeLegal.brHasnext
  | brReadbit => exact Laws.EncodeLegal.brReadbit
  | brClose => exact Laws.EncodeLegal.brClose
  | encSym s => exact Laws.EncodeLegal.encSym s
  | encRun => exact Laws.EncodeLegal.encRun
  | decStart => exact Laws.EncodeLegal.decStart
  | decBit => exact Laws.EncodeLegal.decBit
  | decEnd => exact Laws.EncodeLegal.decEnd
  | decRun => exact Laws.EncodeLegal.decRun

/-- Settles O2: both forms of R103 say that `RSV` is clear and `ARG` fits the format of the opcode; a word that decodes
is the encoder's, and so legal. -/
theorem legalExactlyWhenDecoded : Obligations.LegalExactlyWhenDecoded := by
  intro w
  refine ⟨⟨fun hlegal => ?_, fun ⟨i, hi⟩ => ?_⟩, Bool.eq_iff_iff.2 (legalWord_iff.trans matchesRow_iff.symm)⟩
  · obtain ⟨hrsv, hfits⟩ := legalWord_iff.1 hlegal
    obtain ⟨i, hi⟩ := decodeOpc_of_fitsFormat hfits
    exact ⟨i, decode_eq_ok.2 ⟨hrsv, hi⟩⟩
  · obtain rfl := (decodeExactlyInvertsEncode w i).1 hi
    exact encode_legal i

/-! ### Words of the spec (R104, R111) -/

/-- Settles O3: each word is the one the encoder writes for its command. -/
theorem specWordsDecode : Obligations.SpecWordsDecode := by
  refine ⟨?_, ?_, ?_, ?_, ?_, ?_, ?_, ?_⟩ <;> exact (decodeExactlyInvertsEncode _ _).2 rfl

end Sys2Proof

/-! ## Proofs: the statements of `40_bitwriter.md` -/

namespace Sys2Proof.Machine

/-! ### The frame of the writer's and the encoder's commands (R261) -/

/-- The record of a command's end adds to an encoder's frame only the result registers. -/
theorem State.EncoderOnly.finish_eq {s : State} {r : Res Reply} (h : s.EncoderOnly r.state) (opc : BitVec 8) :
    State.finish opc r = { s with
      bw := (State.finish opc r).bw, bsink := (State.finish opc r).bsink, res := (State.finish opc r).res,
      env := (State.finish opc r).env, ssrc := (State.finish opc r).ssrc } := by
  cases r <;> exact State.ext_fields rfl h.br h.dec h.cfg rfl h.tree h.ctab rfl h.bsrc h.ssink rfl rfl

/-- A procedure that stays on the writer's side of the block and takes no symbol from `SSRC`. -/
def State.WriterOnly {α : Type} (s : State) (r : Res α) : Prop := s.EncoderOnly r.state ∧ r.state.ssrc = s.ssrc

theorem State.WriterOnly.unchanged {α : Type} {s : State} {r : Res α} (h : r.state = s) : s.WriterOnly r := by
  rw [State.WriterOnly, h]; exact ⟨.refl s, rfl⟩

theorem State.WriterOnly.reply {α : Type} {s : State} {r : Res α} (h : s.WriterOnly r) (f : α → Reply) :
    s.WriterOnly (r.andThen fun a t => .ok (f a) t) := by
  rw [State.WriterOnly, Res.andThen_state]; exact h

theorem procedure_bwOpen_writerOnly {s : State} {r : Res Reply} (h : procedure .bwOpen s = .ok r) :
    s.WriterOnly r := by
  cases h; split
  · exact .unchanged rfl
  · exact State.WriterOnly.reply ⟨openWriter_frame s, openWriter_ssrc s⟩ _

theorem procedure_bwWritebit_writerOnly {s : State} {b : Bool} {r : Res Reply}
    (h : procedure (.bwWritebit b) s = .ok r) : s.WriterOnly r := by
  cases h; split
  · exact State.WriterOnly.reply ⟨writeBit_frame b s, writeBit_ssrc b s⟩ _
  · exact .unchanged rfl

theorem procedure_bwClose_writerOnly {s : State} {r : Res Reply} (h : procedure .bwClose s = .ok r) :
    s.WriterOnly r := by
  cases h; split
  · have hframe := closeWriter_frame s
    have hssrc := closeWriter_ssrc s
    split <;> rename_i t ht <;> rw [ht] at hframe hssrc <;> exact ⟨hframe, hssrc⟩
  · exact .unchanged rfl

theorem procedure_encSym_writerOnly {s : State} {x : Symbol} {r : Res Reply}
    (h : procedure (.encSym x) s = .ok r) : s.WriterOnly r := by
  simp only [procedure] at h
  split at h
  · cases hq : encSym x s with
    | error f => rw [hq] at h; cases h
    | ok q => rw [hq] at h; cases h; exact State.WriterOnly.reply (encSym_frame hq) _
  · cases h; exact .unchanged rfl

/-- R261: a command of the writer or the encoder stays on the writer's side; only `ENC.RUN` takes symbols from `SSRC`. -/
theorem procedure_encoderOnly {i : Instr} {s : State} {r : Res Reply}
    (hi : i ∈ [.bwOpen, .bwClose, .encRun] ∨ (∃ b, i = .bwWritebit b) ∨ ∃ x, i = .encSym x)
    (h : procedure i s = .ok r) : s.EncoderOnly r.state ∧ (i ≠ .encRun → r.state.ssrc = s.ssrc) := by
  simp only [List.mem_cons, List.not_mem_nil, or_false] at hi
  obtain (rfl | rfl | rfl) | ⟨b, rfl⟩ | ⟨x, rfl⟩ := hi
  · exact (procedure_bwOpen_writerOnly h).imp_right fun hssrc _ => hssrc
  · exact (procedure_bwClose_writerOnly h).imp_right fun hssrc _ => hssrc
  · exact ⟨encRun_frame h, fun hne => absurd rfl hne⟩
  · exact (procedure_bwWritebit_writerOnly h).imp_right fun hssrc _ => hssrc
  · exact (procedure_encSym_writerOnly h).imp_right fun hssrc _ => hssrc

/-- Settles O25: the procedure stays on the writer's side, and its end adds the record of the result. -/
theorem writerFrame : Obligations.WriterFrame := by
  intro i s t hi h
  obtain ⟨r, hr, rfl⟩ := exec_next h
  obtain ⟨hframe, hssrc⟩ := procedure_encoderOnly hi hr
  have hsetup := hframe.sameSetup.finish (opcodeOf i)
  exact ⟨hframe.finish_eq _, fun hne => (congrArg State.ssrc (State.finish_eq _ r)).trans (hssrc hne),
    State.treeAt_congr hsetup.tree, State.ctabAt_congr hsetup.ctab⟩

/-! ### The commands of the bit writer (R132, R134, R136) -/

theorem exec_bwOpen {s : State} (ho : s.bw.isOpen = false) :
    exec .bwOpen s = .next (State.finish 0x10 ((openWriter s).andThen fun _ t => .ok {} t)) := by
  change execBwOpen s = _
  simp only [execBwOpen, ho, Bool.false_eq_true, if_false]

theorem exec_bwWritebit {s : State} (ho : s.bw.isOpen = true) (b : Bool) :
    exec (.bwWritebit b) s = .next (State.finish 0x11 ((writeBit b s).andThen fun _ t => .ok {} t)) := by
  change execBwWritebit b s = _
  simp only [execBwWritebit, ho, if_true]

theorem exec_bwClose_ok {s t : State} (ho : s.bw.isOpen = true) (h : closeWriter s = (true, t)) :
    exec .bwClose s = .next (t.done 0x12 {}) := by
  change execBwClose s = _
  simp only [execBwClose, ho, if_true, h, State.finish_ok]

theorem exec_bwClose_fail {s t : State} (ho : s.bw.isOpen = true) (h : closeWriter s = (false, t)) :
    exec .bwClose s = .next (t.raise 0x12 (.ioSink .bsink)) := by
  change execBwClose s = _
  simp only [execBwClose, ho, if_true, h, State.finish_raised]

/-- Settles O35: `BW.OPEN` ends `OpenWriter`, which returns or raises as the acquisition answers. -/
theorem bwOpenStartsWriter : Obligations.BwOpenStartsWriter := by
  intro s ho
  rw [exec_bwOpen ho]
  refine ⟨fun hf => ?_, fun hf => ?_⟩
  · rw [openWriter_ok s hf]; rfl
  · rw [openWriter_fail s hf]; rfl

/-- The eighth bit of a byte goes to place 0 (R133). -/
theorem setByteBit_zero (v : Byte) (b : Bool) : setByteBit v 0 b = (v &&& 0xFE) ||| (if b then 0x01 else 0x00) := by
  revert v b; decide

/-- Settles O36: `WriteBit` within a byte, and at its end with either answer of the `Put`. -/
theorem bwWritebitPlacesBit : Obligations.BwWritebitPlacesBit := by
  intro s b ho
  rw [exec_bwWritebit ho b]
  have full (hc : s.bw.cnt = 7) : ¬ s.bw.cnt.toNat < 7 ∧ 7 - s.bw.cnt.toNat = 0 := by rw [hc]; decide
  refine ⟨fun hc => ⟨setByteBit s.bw.acc (7 - s.bw.cnt.toNat) b, fun k hk => ?_, ?_⟩, fun hc hf => ?_, fun hc hf => ?_⟩
  · exact setByteBit_getLsbD _ _ (by omega) hk
  · simp only [writeBit_within s b hc, ho]; rfl
  · obtain ⟨hfull, hplace⟩ := full hc
    simp only [writeBit_fills_ok s b hfull hf, hplace, setByteBit_zero, ho]; rfl
  · exact ⟨_, by rw [writeBit_fills_fail s b (full hc).1 hf]; rfl⟩

/-- Settles O37: `CloseWriter` without a partial byte, and with one for either answer of the `Put`. -/
theorem bwCloseFlushesPartialByte : Obligations.BwCloseFlushesPartialByte := by
  intro s ho
  refine ⟨fun hc => ?_, fun hc hf => ?_, fun hc hf => ?_⟩
  · rw [exec_bwClose_ok ho (closeWriter_empty s hc)]; rfl
  · rw [exec_bwClose_ok ho (closeWriter_ok s hc hf)]; rfl
  · exact ⟨_, by rw [exec_bwClose_fail ho (closeWriter_fail s hc hf)]; rfl⟩

/-! ### Commands one after another -/

theorem runCommands_cons {i : Instr} {s t : State} (h : exec i s = .next t) (is : List Instr) :
    runCommands (i :: is) s = runCommands is t := by
  rw [runCommands, h]

theorem runCommands_append {is : List Instr} {s t : State} (h : runCommands is s = some t) (js : List Instr) :
    runCommands (is ++ js) s = runCommands js t := by
  induction is generalizing s with
  | nil => cases h; rfl
  | cons i is ih =>
    cases hi : exec i s with
    | next u => rw [runCommands_cons hi] at h; rw [List.cons_append, runCommands_cons hi, ih h]
    | fault f => rw [runCommands, hi] at h; cases h
    | refused r => rw [runCommands, hi] at h; cases h

/-! ### No procedure of the writer reads the result registers -/

theorem writeBit_withRes (q : ResultRegs) (s : State) (b : Bool) :
    writeBit b (s.withRes q) = (writeBit b s).withRes q := by
  by_cases hc : s.bw.cnt.toNat < 7
  · rw [writeBit_within s b hc, writeBit_within _ b (by exact hc)]; rfl
  · cases hf : s.env.fails
    · rw [writeBit_fills_ok s b hc hf, writeBit_fills_ok _ b (by exact hc) (by exact hf)]; rfl
    · rw [writeBit_fills_fail s b hc hf, writeBit_fills_fail _ b (by exact hc) (by exact hf)]; rfl

theorem writeBits_withRes (q : ResultRegs) (s : State) (c : List Bool) :
    writeBits c (s.withRes q) = (writeBits c s).withRes q := by
  induction c generalizing s with
  | nil => rfl
  | cons b c ih =>
    rw [writeBits, writeBits, writeBit_withRes]
    cases writeBit b s with
    | ok a t => exact ih t
    | raised e t => rfl

theorem writeBit_isOpen {b : Bool} {s t : State} (h : writeBit b s = .ok () t) : t.bw.isOpen = s.bw.isOpen := by
  by_cases hc : s.bw.cnt.toNat < 7
  · rw [writeBit_within s b hc] at h; cases h; rfl
  · cases hf : s.env.fails
    · rw [writeBit_fills_ok s b hc hf] at h; cases h; rfl
    · rw [writeBit_fills_fail s b hc hf] at h; cases h

/-- `BW.WRITEBIT` of each bit in turn does what `WriteBit` of each does; the result registers tell of the last. -/
theorem runCommands_bwWritebits {c : List Bool} {s u : State} (ho : s.bw.isOpen = true)
    (h : writeBits c s = .ok () u) : ∃ q, runCommands (c.map .bwWritebit) s = some (u.withRes q) := by
  induction c generalizing s u with
  | nil => cases h; exact ⟨s.res, rfl⟩
  | cons b c ih =>
    rw [writeBits] at h
    cases hb : writeBit b s with
    | raised e t => rw [hb] at h; cases h
    | ok a t =>
      rw [hb, Res.andThen_ok] at h
      have hexec : exec (.bwWritebit b) s = .next (t.withRes (t.done 0x11 {}).res) := by
        rw [exec_bwWritebit ho, hb]; rfl
      have hrest : writeBits c (t.withRes (t.done 0x11 {}).res) = .ok () (u.withRes (t.done 0x11 {}).res) := by
        rw [writeBits_withRes, h]; rfl
      obtain ⟨q, hq⟩ := ih (s := t.withRes (t.done 0x11 {}).res) ((writeBit_isOpen hb).trans ho) hrest
      exact ⟨q, by rw [List.map_cons, runCommands_cons hexec, hq]; rfl⟩

/-! ### The output law (R137) -/

/-- `Pack` cut at a byte boundary (R106). -/
theorem pack_take_append_drop {l : List Bool} {n : Nat} (h : 8 * n ≤ l.length) :
    pack (l.take (8 * n)) ++ pack (l.drop (8 * n)) = pack l := by
  rw [← pack_append _ (by rw [List.length_take_of_le h]; omega), List.take_append_drop]

/-- The whole bytes of a stream are the bytes of its whole part (R106). -/
theorem pack_take_mul8 {l : List Bool} {n : Nat} (h : 8 * n ≤ l.length) : pack (l.take (8 * n)) = (pack l).take n := by
  have hbytes : (pack (l.take (8 * n))).length = n := by rw [pack_length, List.length_take_of_le h]; omega
  rw [← pack_take_append_drop h, List.take_left' hbytes]

/-- The byte begun is the last of `Pack`, zero-padded (R106). -/
theorem pack_getElem?_last {l : List Bool} (h : l.length % 8 ≠ 0) :
    (pack l)[l.length / 8]? = some (packByte (l.drop (8 * (l.length / 8)))) := by
  have hrest : (l.drop (8 * (l.length / 8))).take 8 = l.drop (8 * (l.length / 8)) :=
    List.take_of_length_le (by rw [List.length_drop]; omega)
  rw [pack, List.getElem?_map, List.getElem?_range (by omega), Option.map_some, hrest]

/-- The state after `BW.OPEN` and the bits `c`, none of whose port operations failed. -/
def State.wrote (s : State) (c : List Bool) (q : ResultRegs) : State := { s with
  bw := { isOpen := true, acc := packByte (c.drop (8 * (c.length / 8))), cnt := BitVec.ofNat 3 (c.length % 8)
          total := BitVec.ofNat 64 c.length }
  bsink := { held := true, data := pack (c.take (8 * (c.length / 8))), bad := false }
  env := s.env.advance.advanceN (c.length / 8)
  res := q }

theorem State.wrote_cnt (s : State) (c : List Bool) (q : ResultRegs) :
    (s.wrote c q).bw.cnt.toNat = c.length % 8 := by
  simp only [State.wrote, BitVec.toNat_ofNat]; omega

theorem State.wrote_pending (s : State) (c : List Bool) (q : ResultRegs) :
    (s.wrote c q).Pending (c.drop (8 * (c.length / 8))) := by
  have hdrop := List.length_drop (i := 8 * (c.length / 8)) (l := c)
  exact ⟨rfl, rfl, by rw [s.wrote_cnt]; omega, by omega⟩

theorem State.wrote_total (s : State) {c : List Bool} (h : c.length < 2 ^ 64) (q : ResultRegs) :
    (s.wrote c q).bw.total.toNat = c.length := Nat.mod_eq_of_lt h

theorem State.wrote_acc_whole (s : State) {c : List Bool} (h : c.length % 8 = 0) (q : ResultRegs) :
    (s.wrote c q).bw.acc = 0 := by
  have hnone : c.drop (8 * (c.length / 8)) = [] := List.drop_eq_nil_of_le (by omega)
  rw [State.wrote, hnone]; rfl

theorem State.wrote_acc_begun (s : State) {c : List Bool} (h : c.length % 8 ≠ 0) (q : ResultRegs) :
    (pack c)[c.length / 8]? = some (s.wrote c q).bw.acc := pack_getElem?_last h

theorem State.wrote_data_take (s : State) {c : List Bool} {k : Nat} (hk : k ≤ c.length) (q : ResultRegs) :
    (s.wrote (c.take k) q).bsink.data = (pack c).take (k / 8) := by
  have hbytes : (c.take k).take (8 * (k / 8)) = c.take (8 * (k / 8)) := by
    rw [List.take_take, min_eq_left (by omega)]
  rw [State.wrote, List.length_take_of_le hk, hbytes, pack_take_mul8 (by omega)]

theorem exec_bwOpen_wrote {s : State} (ho : s.bw.isOpen = false) (hf : s.env.fails = false) :
    exec .bwOpen s = .next (s.wrote [] { s.res with result := 0x10000000 }) :=
  (bwOpenStartsWriter s ho).1 hf

/-- R137 before the close: the commands of a session leave the whole bytes in `BSINK` and the byte begun pending. -/
theorem runCommands_session {s : State} {c : List Bool} (ho : s.bw.isOpen = false) (hopen : s.env.fails = false)
    (hputs : s.env.advance.NoFail (c.length / 8)) :
    ∃ q, runCommands (.bwOpen :: c.map .bwWritebit) s = some (s.wrote c q) := by
  obtain ⟨q, hq⟩ := runCommands_bwWritebits rfl
    (writeBits_eq c (s.wrote [] { s.res with result := 0x10000000 }) [] (s.wrote_pending [] _) hputs)
  have htotal : (s.wrote [] { s.res with result := 0x10000000 }).bw.total + BitVec.ofNat 64 c.length =
      BitVec.ofNat 64 c.length := BitVec.zero_add _
  rw [htotal] at hq
  exact ⟨q, (runCommands_cons (exec_bwOpen_wrote ho hopen) _).trans hq⟩

/-- R137 at the close: the byte begun is put, zero-padded, and the writer is closed. -/
theorem exec_bwClose_wrote {s : State} {c : List Bool} {q : ResultRegs}
    (hputs : s.env.advance.NoFail ((c.length + 7) / 8)) :
    exec .bwClose (s.wrote c q) = .next { s with
      bw := { isOpen := false, acc := 0, cnt := 0, total := BitVec.ofNat 64 c.length }
      bsink := { held := false, data := pack c, bad := false }
      env := s.env.advance.advanceN ((c.length + 7) / 8)
      res := { q with result := 0x12000000 } } := by
  have hdrop := List.length_drop (i := 8 * (c.length / 8)) (l := c)
  have hops : (c.length + 7) / 8 = c.length / 8 + ((c.drop (8 * (c.length / 8))).length + 7) / 8 := by omega
  have hdata := pack_take_append_drop (l := c) (n := c.length / 8) (by omega)
  rw [hops, Environment.noFail_add] at hputs
  rw [exec_bwClose_ok rfl (closeWriter_pending (s.wrote_pending c q) hputs.2), hops, Environment.advanceN_add, ← hdata]
  rfl

/-- Settles O38: after any first bits the writer stands as `State.wrote` says, and the close puts the byte begun. -/
theorem writerOutputLaw : Obligations.WriterOutputLaw := by
  intro s bits ho hlen hf
  rw [Nat.add_comm, Environment.noFail_succ] at hf
  obtain ⟨hopen, hputs⟩ := hf
  refine ⟨fun k hk => ?_, ?_⟩
  · have hpre : (bits.take k).length = k := List.length_take_of_le hk
    obtain ⟨q, hq⟩ := runCommands_session (c := bits.take k) ho hopen (hputs.le (by omega))
    refine ⟨_, hq, s.wrote_data_take hk q, ?_, ?_, fun h0 => s.wrote_acc_whole (hpre.symm ▸ h0) q, fun h0 => ?_⟩
    · rw [s.wrote_cnt, hpre]
    · rw [s.wrote_total (by omega), hpre]
    · have hbegun := s.wrote_acc_begun (c := bits.take k) (by omega) q
      rwa [hpre] at hbegun
  · obtain ⟨q, hq⟩ := runCommands_session (c := bits) ho hopen (hputs.le (by omega))
    refine ⟨_, (runCommands_append hq [.bwClose]).trans (runCommands_cons (exec_bwClose_wrote hputs) []), rfl,
      pack_length bits, s.wrote_total hlen q, rfl, rfl, rfl⟩

end Sys2Proof.Machine

/-! ## Proofs: the statements of `41_bitreader.md` -/

namespace Sys2Proof.Machine

/-! ### The frame of the reader's commands (R261) -/

/-- A procedure that stays on the reader's side of the block. -/
def State.ReaderOnly {α : Type} (s : State) (r : Res α) : Prop := s.DecoderOnly r.state ∧ s.SameDecoder r.state

theorem State.ReaderOnly.unchanged {α : Type} {s : State} {r : Res α} (h : r.state = s) : s.ReaderOnly r := by
  rw [State.ReaderOnly, h]; exact ⟨.refl s, rfl, rfl⟩

theorem State.ReaderOnly.reply {α : Type} {s : State} {r : Res α} (h : s.ReaderOnly r) (f : α → Reply) :
    s.ReaderOnly (r.andThen fun a t => .ok (f a) t) := by
  rw [State.ReaderOnly, Res.andThen_state]; exact h

/-- The record of a command's end adds to a reader's frame only the result registers. -/
theorem State.ReaderOnly.finish_eq {s : State} {r : Res Reply} (h : s.ReaderOnly r) (opc : BitVec 8) :
    State.finish opc r = { s with
      br := (State.finish opc r).br, bsrc := (State.finish opc r).bsrc, res := (State.finish opc r).res,
      env := (State.finish opc r).env } := by
  obtain ⟨hframe, hdec, hssink⟩ := h
  cases r <;> exact State.ext_fields hframe.bw rfl hdec hframe.cfg rfl hframe.tree hframe.ctab hframe.bsink rfl hssink
    hframe.ssrc rfl

theorem procedure_brHasnext_state {s : State} {r : Res Reply} (h : procedure .brHasnext s = .ok r) : r.state = s := by
  cases h; split <;> rfl

/-- R261: a command of the reader stays on the reader's side. -/
theorem procedure_readerOnly {i : Instr} {s : State} {r : Res Reply}
    (hi : i ∈ [.brOpen, .brHasnext, .brReadbit, .brClose]) (h : procedure i s = .ok r) : s.ReaderOnly r := by
  simp only [List.mem_cons, List.not_mem_nil, or_false] at hi
  obtain rfl | rfl | rfl | rfl := hi
  · cases h; split
    · exact .unchanged rfl
    · exact State.ReaderOnly.reply (openReader_frame s) _
  · exact .unchanged (procedure_brHasnext_state h)
  · cases h; split
    · split
      · exact State.ReaderOnly.reply (readBit_frame s) _
      · exact .unchanged rfl
    · exact .unchanged rfl
  · cases h; split
    · exact closeReader_frame s
    · exact .unchanged rfl

/-- Settles O26: the procedure stays on the reader's side, `BR.HASNEXT`'s does nothing, and the command's end adds the
record of the result. -/
theorem readerFrame : Obligations.ReaderFrame := by
  intro i s t hi h
  obtain ⟨r, hr, rfl⟩ := exec_next h
  have hreader := procedure_readerOnly hi hr
  have hsetup := hreader.1.sameSetup.finish (opcodeOf i)
  refine ⟨hreader.finish_eq _, ?_, State.treeAt_congr hsetup.tree, State.ctabAt_congr hsetup.ctab⟩
  rintro rfl
  rw [State.finish_eq, procedure_brHasnext_state hr]

/-! ### The commands of the bit reader (R154, R155, R157, R158) -/

theorem exec_brOpen {s : State} (ho : s.br.isOpen = false) :
    exec .brOpen s = .next (State.finish 0x20 ((openReader s).andThen fun _ t => .ok {} t)) := by
  change execBrOpen s = _
  simp only [execBrOpen, ho, Bool.false_eq_true, if_false]

theorem exec_brHasnext {s : State} (ho : s.br.isOpen = true) :
    exec .brHasnext s = .next (s.done 0x21 { val := s.hasNext }) := by
  change execBrHasnext s = _
  simp only [execBrHasnext, ho, if_true, State.finish_ok]

theorem exec_brReadbit_fail {s u : State} {e : Failure} (ho : s.br.isOpen = true) (hn : s.hasNext = true)
    (h : readBit s = .raised e u) : exec .brReadbit s = .next (u.raise 0x22 e) := by
  change execBrReadbit s = _
  simp only [execBrReadbit, ho, hn, if_true, h, Res.andThen_raised, State.finish_raised]

theorem exec_brClose {s : State} (ho : s.br.isOpen = true) :
    exec .brClose s = .next ((closeReader s).done 0x23 {}) := by
  change execBrClose s = _
  simp only [execBrClose, ho, if_true, State.finish_ok]

/-- What `BR.READBIT` records of the bit it delivers (R38). -/
theorem State.done_brReadbit (s : State) (b : Bool) :
    s.done 0x22 { val := b } = { s with res := { s.res with result := if b then 0x22000100 else 0x22000000 } } := by
  cases b <;> rfl

/-- Settles O39: `BR.OPEN` ends `OpenReader`, by the answers of the acquisition and of the read-ahead. -/
theorem brOpenReadsAhead : Obligations.BrOpenReadsAhead := by
  intro s ho
  rw [exec_brOpen ho]
  refine ⟨fun hf => ?_, fun hf hg => ?_, fun hf hg => ⟨fun v vs hd => ?_, fun hd => ?_⟩⟩
  · rw [openReader_fail s hf]; rfl
  · simp only [openReader_readAhead_fail s hf hg, ho]; rfl
  · rw [openReader_item s hf hg hd]; rfl
  · rw [openReader_empty s hf hg hd]; rfl

/-- R31, of an open reader and by the configuration registers. -/
theorem hasNext_iff_of_open {s : State} (ho : s.br.isOpen = true) :
    s.hasNext = true ↔ 0 < s.br.cnt.toNat ∧ (s.cfg.rdctl = 0 ∨ s.br.total.toNat < s.cfg.rdlimit.toNat) := by
  rw [hasNext_iff, and_iff_right ho, State.limited_eq_false_iff]

/-- Settles O40: `BR.HASNEXT` replies `HasNext()` of the state it leaves alone. -/
theorem brHasnextAnswers : Obligations.BrHasnextAnswers := by
  intro s ho
  rw [← hasNext_iff_of_open ho, exec_brHasnext ho]
  refine ⟨fun hn => ?_, fun hn => ?_⟩
  · rw [hn]; rfl
  · rw [Bool.eq_false_of_not_eq_true hn]; rfl

/-- Settles O41: `ReadBit` within a byte, and at its end for each answer of the read-ahead. -/
theorem brReadbitHandsOutBit : Obligations.BrReadbitHandsOutBit := by
  intro s ho hn word
  refine ⟨fun hc => ?_, fun hc hf v vs hd => ?_, fun hc hf hd => ?_, fun hc hf => ?_⟩
  · rw [exec_brReadbit ho hn (readBit_within s hc), State.done_brReadbit]; rfl
  · simp only [exec_brReadbit ho hn (readBit_item s hc hf hd), State.done_brReadbit, ho]; rfl
  · simp only [exec_brReadbit ho hn (readBit_last s hc hf hd), State.done_brReadbit, ho]; rfl
  · rw [exec_brReadbit_fail ho hn (readBit_fail s hc hf)]; rfl

/-- Settles O42: `BR.CLOSE` is `CloseReader` and the record of its end. -/
theorem brCloseReleasesSource : Obligations.BrCloseReleasesSource := by
  intro s ho
  rw [exec_brClose ho, closeReader_eq]; rfl

/-! ### The output law (R159) -/

theorem unpack_cons (v : Byte) (vs : List Byte) : unpack (v :: vs) = unpackByte v ++ unpack vs := rfl

theorem unpack_length (y : List Byte) : (unpack y).length = 8 * y.length := by
  induction y with
  | nil => rfl
  | cons v vs ih => rw [unpack_cons, List.length_append, unpackByte_length, ih, List.length_cons]; omega

/-- The state `t` is reached from `s` by `BR.OPEN` and `i` bits read, none of whose port operations failed. -/
structure State.HasRead (s : State) (i : Nat) (t : State) : Prop where
  reading : t.Reading
  unread : t.unread = (unpack s.bsrc.data).drop i
  total : t.br.total = BitVec.ofNat 64 i
  /-- R48: the source stands one byte ahead of the bits. -/
  data : t.bsrc.data = s.bsrc.data.drop (i / 8 + 1)
  env : t.env = s.env.advanceN (2 + i / 8)
  cfg : t.cfg = s.cfg

section

variable {s t : State} {i : Nat}

/-- The record of a command's end is no part of the session. -/
theorem State.HasRead.done (h : s.HasRead i t) (opc : BitVec 8) (r : Reply) : s.HasRead i (t.done opc r) :=
  ⟨⟨h.reading.isOpen, h.reading.cntLe, h.reading.atEnd⟩, h.unread, h.total, h.data, h.env, h.cfg⟩

/-- The bits left in `RD_BYTE` (R26). -/
theorem State.HasRead.cnt (h : s.HasRead i t) (hi : i < 8 * s.bsrc.data.length) : t.br.cnt.toNat = 8 - i % 8 := by
  have hleft := h.reading.length_le
  rw [h.unread, State.bitsLeft, h.data, List.length_drop, List.length_drop, unpack_length] at hleft
  omega

theorem State.HasRead.cnt_eq_one_iff (h : s.HasRead i t) (hi : i < 8 * s.bsrc.data.length) :
    t.br.cnt = 1 ↔ i % 8 = 7 := by
  have hone : (1 : BitVec 4).toNat = 1 := rfl
  rw [← BitVec.toNat_inj, h.cnt hi, hone]
  omega

theorem State.HasRead.cnt_pos_iff (h : s.HasRead i t) : 0 < t.br.cnt.toNat ↔ i < 8 * s.bsrc.data.length := by
  rw [Nat.pos_iff_ne_zero, ne_eq, ← h.reading.unread_nil, h.unread, List.drop_eq_nil_iff, unpack_length, not_le]

theorem State.HasRead.hasNext_iff (h : s.HasRead i t) (hi : s.limited = true → i ≤ s.cfg.rdlimit.toNat) :
    t.hasNext = true ↔ i < 8 * s.bsrc.data.length ∧ (s.limited = false ∨ i < s.cfg.rdlimit.toNat) := by
  rw [hasNext_iff_of_open h.reading.isOpen, h.cnt_pos_iff, h.cfg, ← State.limited_eq_false_iff, h.total]
  cases hl : s.limited with
  | false => simp only [true_or]
  | true => rw [BitVec.toNat_ofNat, Nat.mod_eq_of_lt ((hi hl).trans_lt s.cfg.rdlimit.isLt)]

/-- R159 at the start: the read-ahead of `BR.OPEN` leaves all bits unread. -/
theorem exec_brOpen_hasRead (ho : s.br.isOpen = false) (hf : s.env.NoFail 2) :
    ∃ t, exec .brOpen s = .next t ∧ s.HasRead 0 t := by
  obtain ⟨hacquire, hget, -⟩ := hf
  obtain ⟨-, -, hopen⟩ := brOpenReadsAhead s ho
  obtain ⟨hitem, hempty⟩ := hopen hacquire hget
  cases hd : s.bsrc.data with
  | nil =>
    exact ⟨_, hempty hd, ⟨rfl, empty_cnt_le, fun _ => rfl⟩, by rw [hd]; rfl, rfl, by rw [hd]; rfl, rfl, rfl⟩
  | cons v vs =>
    have hfull : (8 : BitVec 4) ≠ 0 := by decide
    exact ⟨_, hitem v vs hd, ⟨rfl, full_cnt_le, fun h0 => absurd h0 hfull⟩, by rw [hd]; rfl, rfl, by rw [hd]; rfl, rfl, rfl⟩

/-- R159 for one bit: `ReadBit` after `i` bits hands out element `i` of `Unpack`. -/
theorem State.HasRead.readBit (h : s.HasRead i t) (hi : i < 8 * s.bsrc.data.length)
    (hf : s.env.NoFail (2 + (i + 1) / 8)) :
    ∃ b u, readBit t = .ok b u ∧ (unpack s.bsrc.data)[i]? = some b ∧ s.HasRead (i + 1) u := by
  have hops : (i + 1) / 8 = i / 8 + if t.br.cnt = 1 then 1 else 0 := by
    split <;> rename_i hc <;> rw [h.cnt_eq_one_iff hi] at hc <;> omega
  rw [hops, ← Nat.add_assoc, Environment.noFail_add, ← h.env] at hf
  obtain ⟨u, hread, hunread, hreading, htotal, -, henv, -, hframe⟩ :=
    readBit_unread h.reading (h.cnt_pos_iff.2 hi) hf.2
  have hdata : u.bsrc.data = t.bsrc.data.drop (if t.br.cnt = 1 then 1 else 0) := by
    obtain ⟨w, hw, -, -, -, -, -, hdata⟩ := readBit_ok t fun hc => (by rw [if_pos hc] at hf; exact hf.2.1)
    cases hread.symm.trans hw
    rw [hdata]; split <;> rfl
  have hsplit : t.nextBit :: u.unread = (unpack s.bsrc.data).drop i := hunread.symm.trans h.unread
  refine ⟨_, u, hread, ?_, hreading, ?_, ?_, ?_, ?_, ?_⟩
  · rw [← List.head?_drop, ← hsplit]; rfl
  · rw [← List.tail_drop, ← hsplit]; rfl
  · rw [htotal, h.total, BitVec.ofNat_add]; rfl
  · rw [hdata, h.data, List.drop_drop, hops]; congr 1; omega
  · rw [henv, h.env, ← Environment.advanceN_add, hops, Nat.add_assoc]
  · rw [hframe]; exact h.cfg

/-- R159: `BR.OPEN` and `i` times `BR.READBIT`, as far as the bytes and the limit let them. -/
theorem runCommands_reads (ho : s.br.isOpen = false) (hi : i ≤ 8 * s.bsrc.data.length)
    (hlimit : s.limited = true → i ≤ s.cfg.rdlimit.toNat) (hf : s.env.NoFail (2 + i / 8)) :
    ∃ t, runCommands (.brOpen :: List.replicate i .brReadbit) s = some t ∧ s.HasRead i t ∧
      ∀ j b, i = j + 1 → (unpack s.bsrc.data)[j]? = some b → t.res.result = if b then 0x22000100 else 0x22000000 := by
  induction i with
  | zero =>
    obtain ⟨t, hopen, ht⟩ := exec_brOpen_hasRead ho hf
    exact ⟨t, runCommands_cons hopen [], ht, nofun⟩
  | succ i ih =>
    have hlimit' (hl : s.limited = true) : i ≤ s.cfg.rdlimit.toNat := Nat.le_of_succ_le (hlimit hl)
    obtain ⟨t, hrun, ht, -⟩ := ih (Nat.le_of_succ_le hi) hlimit' (hf.le (by omega))
    obtain ⟨b, u, hread, hbit, hu⟩ := ht.readBit hi hf
    have hnext : t.hasNext = true := by
      rw [ht.hasNext_iff hlimit']
      cases hl : s.limited with
      | false => exact ⟨hi, .inl rfl⟩
      | true => exact ⟨hi, .inr (hlimit hl)⟩
    have hexec := exec_brReadbit ht.reading.isOpen hnext hread
    refine ⟨_, ?_, hu.done 0x22 { val := b }, ?_⟩
    · rw [List.replicate_succ', ← List.cons_append, runCommands_append hrun, runCommands_cons hexec]; rfl
    · rintro j c ⟨⟩ hc
      cases hbit.symm.trans hc
      rw [State.done_brReadbit]

end

/-- Settles O43: after `i` bits the session stands as `State.HasRead` says, and the last bit is in `RESULT`. -/
theorem readerOutputLaw : Obligations.ReaderOutputLaw := by
  intro s i ho hi hwrap hlimit hf
  obtain ⟨t, hrun, ht, hbit⟩ := runCommands_reads ho hi hlimit hf
  exact ⟨t, hrun, ht.hasNext_iff hlimit, by rw [ht.total, BitVec.toNat_ofNat, Nat.mod_eq_of_lt hwrap], ht.data, hbit⟩

/-! ### The writer and the reader (R160) -/

theorem packByte_getLsbD (l : List Bool) {k : Nat} (hk : k < 8) : (packByte l).getLsbD (7 - k) = l.getD k false := by
  interval_cases k <;> simp only [packByte, BitVec.getLsbD_append, BitVec.getLsbD_ofBool] <;> rfl

theorem unpackByte_packByte {x : List Bool} (h : x.length ≤ 8) :
    unpackByte (packByte x) = x ++ List.replicate (8 - x.length) false := by
  have hlen : (x ++ List.replicate (8 - x.length) false).length = 8 := by
    rw [List.length_append, List.length_replicate]; omega
  refine List.ext_getElem ((unpackByte_length _).trans hlen.symm) fun k hk _ => ?_
  rw [unpackByte_length] at hk
  simp only [unpackByte, List.getElem_map, List.getElem_range, packByte_getLsbD x hk, List.getElem_append,
    List.getElem_replicate]
  split
  · rw [List.getD_eq_getElem]
  · rw [List.getD_eq_default _ _ (by omega)]

/-- The pad bits of `Pack` (R106). -/
def padBits (bits : List Bool) : List Bool := List.replicate ((8 - bits.length % 8) % 8) false

/-- `Unpack(Pack(B))` is `B` and its pad bits (R106, R159). -/
theorem unpack_pack (bits : List Bool) : unpack (pack bits) = bits ++ padBits bits := by
  rcases Nat.lt_or_ge bits.length 8 with h | h
  · cases bits with
    | nil => rfl
    | cons b bits =>
      have hpad : 8 - (b :: bits).length = (8 - (b :: bits).length % 8) % 8 := by rw [List.length_cons] at h ⊢; omega
      rw [pack_short (List.cons_ne_nil b bits) h.le, unpack_cons, unpackByte_packByte h.le, hpad, ← padBits]
      exact List.append_nil _
  · have h8 : (bits.take 8).length = 8 := List.length_take_of_le h
    have hpad : padBits (bits.drop 8) = padBits bits := by
      rw [padBits, padBits, List.length_drop, Nat.mod_eq_sub_mod h]
    have hfirst := unpackByte_packByte h8.le
    rw [h8, Nat.sub_self, List.replicate_zero, List.append_nil] at hfirst
    conv_lhs => rw [← List.take_append_drop 8 bits]
    rw [pack_cons8 _ h8, unpack_cons, hfirst, unpack_pack (bits.drop 8), hpad, ← List.append_assoc,
      List.take_append_drop]
termination_by bits.length
decreasing_by rw [List.length_drop]; omega

/-- The whole session of a writer leaves the packed bits in `BSINK` and the reader as it was (R137, R261). -/
theorem runCommands_written {s t : State} {bits : List Bool} (ho : s.bw.isOpen = false)
    (hf : s.env.NoFail (1 + (bits.length + 7) / 8))
    (h : runCommands (.bwOpen :: bits.map .bwWritebit ++ [.bwClose]) s = some t) :
    t.bsink.data = pack bits ∧ t.br = s.br := by
  rw [Nat.add_comm, Environment.noFail_succ] at hf
  obtain ⟨hopen, hputs⟩ := hf
  obtain ⟨q, hq⟩ := runCommands_session (c := bits) ho hopen (hputs.le (by omega))
  rw [runCommands_append hq, runCommands_cons (exec_bwClose_wrote hputs)] at h
  cases h
  exact ⟨rfl, rfl⟩

/-- R159 of packed bits: the bits themselves and then the pad bits are read, up to the end of the last byte. -/
theorem runCommands_reads_pack {u : State} {bits : List Bool} {k : Nat} (ho : u.br.isOpen = false)
    (hd : u.bsrc.data = pack bits) (hk : k ≤ (bits ++ padBits bits).length)
    (hlimit : u.limited = true → k ≤ u.cfg.rdlimit.toNat) (hf : u.env.NoFail (2 + (bits.length + 7) / 8)) :
    ∃ v, runCommands (.brOpen :: List.replicate k .brReadbit) u = some v ∧
      (v.hasNext = true ↔ k < (bits ++ padBits bits).length ∧ (u.limited = false ∨ k < u.cfg.rdlimit.toNat)) ∧
      ∀ j b, k = j + 1 → (bits ++ padBits bits)[j]? = some b →
        v.res.result = if b then 0x22000100 else 0x22000000 := by
  have hlen : (bits ++ padBits bits).length = 8 * u.bsrc.data.length := by rw [← unpack_pack, unpack_length, hd]
  have hbytes : k / 8 ≤ (bits.length + 7) / 8 := by rw [hlen, hd, pack_length] at hk; omega
  obtain ⟨v, hrun, hv, hbit⟩ := runCommands_reads ho (hlen ▸ hk) hlimit (hf.le (Nat.add_le_add_left hbytes 2))
  rw [hd, unpack_pack] at hbit
  exact ⟨v, hrun, hlen ▸ hv.hasNext_iff hlimit, hbit⟩

/-- Settles O44: the session of reads on the bytes the writer left, under each configuration. -/
theorem writerReaderGuarantee : Obligations.WriterReaderGuarantee := by
  intro s t bits hw hr hlen hf hwrite u c hu hfu pad
  obtain ⟨hdata, hbr⟩ := runCommands_written hw hf hwrite
  have ho : u.br.isOpen = false := by rw [hu]; exact (congrArg Reader.isOpen hbr).trans hr
  have hd : u.bsrc.data = pack bits := by rw [hu]; exact hdata
  have hc : u.cfg = c := by rw [hu]
  have hle : bits.length ≤ (bits ++ padBits bits).length := by rw [List.length_append]; omega
  have hunlimited : u.limited = false ↔ c.rdctl = 0 := by rw [State.limited_eq_false_iff, hc]
  refine ⟨fun hcfg k hk => ?_, fun hctl hlim k hk => ?_, fun hctl k hk => ?_⟩
  · have hlimit (hl : u.limited = true) : k ≤ u.cfg.rdlimit.toNat := by
      rw [hc]
      exact hk.trans (hcfg.resolve_left fun h0 => by rw [hunlimited.2 h0] at hl; cases hl)
    obtain ⟨v, hrun, -, hbit⟩ := runCommands_reads_pack ho hd (hk.trans hle) hlimit hfu
    refine ⟨v, hrun, fun j b hj hb => hbit j b hj ?_⟩
    rw [List.getElem?_append_left (by omega), hb]
  · have hn : u.cfg.rdlimit.toNat = bits.length := by
      rw [hc, hlim, BitVec.toNat_ofNat, Nat.mod_eq_of_lt hlen]
    obtain ⟨v, hrun, hnext, -⟩ := runCommands_reads_pack ho hd (hk.trans hle) (fun _ => hn ▸ hk) hfu
    refine ⟨v, hrun, hnext.trans ⟨fun h => ?_, fun h => ⟨h.trans_le hle, .inr (hn ▸ h)⟩⟩⟩
    obtain h0 | h0 := h.2
    · rw [hunlimited, hctl] at h0; exact absurd h0 (by decide)
    · exact hn ▸ h0
  · have hl := hunlimited.2 hctl
    obtain ⟨v, hrun, hnext, hbit⟩ := runCommands_reads_pack ho hd hk (fun h => by rw [hl] at h; cases h) hfu
    exact ⟨v, hrun, hnext.trans (and_iff_left (.inl hl)), hbit⟩

end Sys2Proof.Machine

/-! ## Proofs: the statements of `42_encoder.md` -/

namespace Sys2Proof.Machine

/-! ### What a procedure does not read (R173, R192, R290) -/

/-- The answer of a procedure in a changed state. -/
def Res.mapState {α : Type} (f : State → State) : Res α → Res α
  | .ok a s => .ok a (f s)
  | .raised e s => .raised e (f s)

/-- A procedure that neither reads nor writes what `f` changes: it does the same before and after the change. -/
abbrev BlindTo {α : Type} (f : State → State) (p : State → Res α) : Prop := Function.Semiconj p f (Res.mapState f)

/-- The same of a procedure that may stop at an unwritten word. -/
abbrev ReadBlindTo {α : Type} (f : State → State) (p : State → Except Fault (Res α)) : Prop :=
  Function.Semiconj p f (Except.map (Res.mapState f))

/-- A choice that does not depend on what `f` changes. -/
theorem semiconj_ite {β : Type} {f : State → State} {h : β → β} {p q : State → β} {g : State → Bool}
    (hg : ∀ s, g (f s) = g s) (hp : Function.Semiconj p f h) (hq : Function.Semiconj q f h) :
    Function.Semiconj (fun s => if g s then p s else q s) f h := by
  intro s
  simp only [hg s]
  cases g s
  · exact hq s
  · exact hp s

theorem BlindTo.refused {α : Type} (f : State → State) (e : Failure) : BlindTo f (.raised e : State → Res α) :=
  fun _ => rfl

theorem BlindTo.read {α : Type} {f : State → State} {p : State → Res α} (hp : BlindTo f p) :
    ReadBlindTo f fun s => .ok (p s) := fun s => congrArg Except.ok (hp s)

theorem Res.andThen_mapState {α β : Type} {f : State → State} {k : α → State → Res β} (hk : ∀ a, BlindTo f (k a))
    (r : Res α) : (r.mapState f).andThen k = (r.andThen k).mapState f := by
  cases r with
  | ok a s => exact hk a s
  | raised e s => rfl

theorem BlindTo.andThen {α β : Type} {f : State → State} {p : State → Res α} {k : α → State → Res β}
    (hp : BlindTo f p) (hk : ∀ a, BlindTo f (k a)) : BlindTo f fun s => (p s).andThen k := fun s => by
  simp only [hp s, Res.andThen_mapState hk]

/-- Turning the value of a procedure into the command's reply. -/
theorem BlindTo.reply {α : Type} {f : State → State} {p : State → Res α} (hp : BlindTo f p) (a : α → Reply) :
    BlindTo f fun s => (p s).andThen fun v t => (.ok (a v) t : Res Reply) := hp.andThen fun _ _ => rfl

/-- A command whose procedure is blind to what `f` changes does the same with it changed. -/
theorem exec_of_readBlindTo {i : Instr} {f : State → State} (hp : ReadBlindTo f (procedure i))
    (hf : ∀ r, State.finish (opcodeOf i) (r.mapState f) = f (State.finish (opcodeOf i) r)) {s t : State}
    (h : exec i s = .next t) : exec i (f s) = .next (f t) := by
  obtain ⟨r, hr, rfl⟩ := exec_next h
  rw [exec_eq, hp s, hr, ← hf r]; rfl

/-! ### The encoder reads neither `TREE` nor the configuration (R173) -/

/-- A state with another tree and another configuration. -/
def State.withTree (m : Mem) (c : ConfigRegs) (s : State) : State := { s with tree := m, cfg := c }

section

variable (m : Mem) (c : ConfigRegs)

theorem openWriter_blind : BlindTo (State.withTree m c) openWriter := by
  intro s
  cases hf : s.env.fails
  · rw [openWriter_ok s hf, openWriter_ok (s.withTree m c) hf]; rfl
  · rw [openWriter_fail s hf, openWriter_fail (s.withTree m c) hf]; rfl

theorem writeBit_blind (b : Bool) : BlindTo (State.withTree m c) (writeBit b) := by
  intro s
  by_cases hc : s.bw.cnt.toNat < 7
  · rw [writeBit_within s b hc, writeBit_within (s.withTree m c) b hc]; rfl
  · cases hf : s.env.fails
    · rw [writeBit_fills_ok s b hc hf, writeBit_fills_ok (s.withTree m c) b hc hf]; rfl
    · rw [writeBit_fills_fail s b hc hf, writeBit_fills_fail (s.withTree m c) b hc hf]; rfl

theorem closeWriter_withTree (s : State) :
    closeWriter (s.withTree m c) = ((closeWriter s).1, (closeWriter s).2.withTree m c) := by
  by_cases hc : s.bw.cnt = 0
  · rw [closeWriter_empty s hc, closeWriter_empty (s.withTree m c) hc]; rfl
  · cases hf : s.env.fails
    · rw [closeWriter_ok s hc hf, closeWriter_ok (s.withTree m c) hc hf]; rfl
    · rw [closeWriter_fail s hc hf, closeWriter_fail (s.withTree m c) hc hf]; rfl

theorem closeNoting_withTree (s : State) : closeNoting (s.withTree m c) = (closeNoting s).withTree m c := by
  rw [closeNoting, closeNoting, closeWriter_withTree]
  obtain ⟨ok, t⟩ := closeWriter s
  cases ok <;> rfl

theorem encClose_blind : BlindTo (State.withTree m c) encClose := by
  intro s
  rw [encClose, encClose, closeWriter_withTree]
  obtain ⟨ok, t⟩ := closeWriter s
  cases ok <;> rfl

theorem getSymbol_withTree (s : State) :
    (s.withTree m c).get .ssrc = ((s.get .ssrc).1, (s.get .ssrc).2.withTree m c) := by
  cases hf : s.env.fails
  · cases hd : s.ssrc.data with
    | nil => rw [State.get_eof .ssrc hf hd, State.get_eof (s := s.withTree m c) .ssrc hf hd]; rfl
    | cons x xs => rw [State.get_item .ssrc hf hd, State.get_item (s := s.withTree m c) .ssrc hf hd]; rfl
  · rw [State.get_fail .ssrc hf, State.get_fail (s := s.withTree m c) .ssrc hf]; rfl

theorem encBits_blind (x : Symbol) (i n : Nat) : ReadBlindTo (State.withTree m c) (encBits x i n) := by
  induction n generalizing i with
  | zero => exact fun s => rfl
  | succ n ih =>
    intro s
    have hbit : (s.withTree m c).codeBit x i = s.codeBit x i := State.codeBit_congr rfl x i
    rw [encBits, encBits, hbit]
    cases s.codeBit x i with
    | error f => rfl
    | ok b =>
      simp only [writeBit_blind m c b s]
      cases writeBit b s with
      | ok a t => exact ih (i + 1) t
      | raised e t => rfl

theorem encSym_blind (x : Symbol) : ReadBlindTo (State.withTree m c) (encSym x) := by
  intro s
  have hread : (s.withTree m c).readEntry x 0 = s.readEntry x 0 := rfl
  rw [encSym, encSym, hread]
  cases s.readEntry x 0 with
  | error f => rfl
  | ok h =>
    cases hv : entryValid h
    · simp only [hv, Bool.false_eq_true, if_false, closeNoting_withTree]; rfl
    · simp only [hv, if_true]; exact encBits_blind m c x 0 (entryLen h) s

/-- One turn of the loop of `ENC.RUN` is blind if the turns after it are. -/
theorem encLoop_blind_turn {n : Nat} (h : ∀ k, n = k + 1 → ReadBlindTo (State.withTree m c) (encLoop k)) :
    ReadBlindTo (State.withTree m c) (encLoop n) := by
  intro s
  simp only [encLoop.eq_def n, getSymbol_withTree]
  obtain ⟨got, t⟩ := s.get .ssrc
  cases got with
  | eof => rfl
  | fail => simp only [closeNoting_withTree]; rfl
  | item x =>
    simp only [encSym_blind m c x t]
    cases encSym x t with
    | error f => rfl
    | ok r => cases r with
      | raised e u => rfl
      | ok a u => cases n with
        | zero => rfl
        | succ k => exact h k rfl u

theorem encLoop_blind (n : Nat) : ReadBlindTo (State.withTree m c) (encLoop n) := by
  induction n with
  | zero => exact encLoop_blind_turn m c nofun
  | succ n ih => exact encLoop_blind_turn m c fun k hk => by cases hk; exact ih

theorem encBody_blind : ReadBlindTo (State.withTree m c) encBody := by
  intro s
  have hloop : encLoop (s.withTree m c).ssrc.data.length (s.withTree m c) = _ := encLoop_blind m c s.ssrc.data.length s
  rw [encBody, encBody, hloop]
  cases encLoop s.ssrc.data.length s with
  | error f => rfl
  | ok r => exact congrArg Except.ok (Res.andThen_mapState (fun _ => encClose_blind m c) r)

theorem procedure_encSym_blind (x : Symbol) : ReadBlindTo (State.withTree m c) (procedure (.encSym x)) := by
  refine semiconj_ite (g := fun s => s.bw.isOpen) (fun _ => rfl) (fun s => ?_) (BlindTo.refused _ _).read
  simp only [encSym_blind m c x s]
  cases encSym x s with
  | error f => rfl
  | ok r => exact congrArg Except.ok (Res.andThen_mapState (fun _ _ => rfl) r)

theorem acquireSsrc_withTree (s : State) :
    (s.withTree m c).acquireSource .ssrc = ((s.acquireSource .ssrc).1, (s.acquireSource .ssrc).2.withTree m c) := by
  cases hf : s.env.fails
  · rw [State.acquireSource_ok .ssrc hf, State.acquireSource_ok (s := s.withTree m c) .ssrc hf]; rfl
  · rw [State.acquireSource_fail .ssrc hf, State.acquireSource_fail (s := s.withTree m c) .ssrc hf]; rfl

theorem procedure_encRun_blind : ReadBlindTo (State.withTree m c) (procedure .encRun) := by
  refine semiconj_ite (g := fun s => s.bw.isOpen) (fun _ => rfl) (BlindTo.refused _ _).read fun s => ?_
  simp only [acquireSsrc_withTree]
  obtain ⟨ok, t⟩ := s.acquireSource .ssrc
  cases ok
  · rfl
  · simp only [openWriter_blind m c t]
    cases openWriter t with
    | ok a u => exact encBody_blind m c u
    | raised e u => rfl

theorem procedure_encode_blind {i : Instr} (hi : i = .encRun ∨ ∃ x, i = .encSym x) :
    ReadBlindTo (State.withTree m c) (procedure i) := by
  obtain rfl | ⟨x, rfl⟩ := hi
  · exact procedure_encRun_blind m c
  · exact procedure_encSym_blind m c x

end

/-! ### The decoder does not read `CTAB` (R192) -/

/-- A state with another table. -/
def State.withTable (m : Mem) (s : State) : State := { s with ctab := m }

section

variable (m : Mem)

theorem readBit_blind : BlindTo (State.withTable m) readBit := by
  intro s
  by_cases hc : s.br.cnt = 1
  · cases hf : s.env.fails
    · cases hd : s.bsrc.data with
      | nil => rw [readBit_last s hc hf hd, readBit_last (s.withTable m) hc hf hd]; rfl
      | cons v vs => rw [readBit_item s hc hf hd, readBit_item (s.withTable m) hc hf hd]; rfl
    · rw [readBit_fail s hc hf, readBit_fail (s.withTable m) hc hf]; rfl
  · rw [readBit_within s hc, readBit_within (s.withTable m) hc]; rfl

theorem openReader_blind : BlindTo (State.withTable m) openReader := by
  intro s
  cases hf : s.env.fails
  · cases hg : s.env.advance.fails
    · cases hd : s.bsrc.data with
      | nil => rw [openReader_empty s hf hg hd, openReader_empty (s.withTable m) hf hg hd]; rfl
      | cons v vs => rw [openReader_item s hf hg hd, openReader_item (s.withTable m) hf hg hd]; rfl
    · rw [openReader_readAhead_fail s hf hg, openReader_readAhead_fail (s.withTable m) hf hg]; rfl
  · rw [openReader_fail s hf, openReader_fail (s.withTable m) hf]; rfl

theorem startDecode_blind : BlindTo (State.withTable m) startDecode := by
  intro s
  cases hf : s.env.fails
  · rw [startDecode_ok s hf, startDecode_ok (s.withTable m) hf]; rfl
  · rw [startDecode_fail s hf, startDecode_fail (s.withTable m) hf]; rfl

theorem abortDecode_withTable (s : State) : abortDecode (s.withTable m) = (abortDecode s).withTable m := by
  cases ho : s.br.isOpen
  · rw [abortDecode_closed s ho, abortDecode_closed (s.withTable m) ho]; rfl
  · rw [abortDecode_open s ho, abortDecode_open (s.withTable m) ho]; rfl

theorem emitLeaf_blind (b : Bool) (w : Word) : BlindTo (State.withTable m) (emitLeaf b w) := by
  intro s
  cases hf : s.env.fails
  · rw [emitLeaf_ok s b w hf, emitLeaf_ok (s.withTable m) b w hf]; rfl
  · rw [emitLeaf_fail s b w hf, emitLeaf_fail (s.withTable m) b w hf]
    exact congrArg (Res.raised _) (abortDecode_withTable m { s with
      ssink := { s.ssink with data := Config.sinkAfterFailure s.env.advance.freeIdx, bad := true }
      env := s.env.afterFailedPut })

theorem followEdge_blind (b : Bool) : ReadBlindTo (State.withTable m) (followEdge b) := by
  intro s
  have hread (n : NodeIdx) : (s.withTable m).readNode n = s.readNode n := rfl
  have hnode : (s.withTable m).dec.node = s.dec.node := rfl
  rw [followEdge, followEdge, hnode, hread, abortDecode_withTable]
  cases s.readNode s.dec.node with
  | error f => rfl
  | ok w =>
    cases hc : nodeHasChild w b
    · simp only [hc]; rfl
    · simp only [hc, hread, if_true]
      cases s.readNode (nodeChild w b) with
      | error f => rfl
      | ok w2 =>
        cases hl : nodeIsLeaf w2
        · simp only [hl]; rfl
        · simp only [hl, if_true, emitLeaf_blind m b w2 s]; rfl

theorem decBit_blind : ReadBlindTo (State.withTable m) decBit := by
  intro s
  rw [decBit, decBit, readBit_blind]
  cases readBit s with
  | ok b t => exact followEdge_blind m b t
  | raised e t => rfl

theorem decLoop_blind (n : Nat) : ReadBlindTo (State.withTable m) (decLoop n) := by
  induction n with
  | zero => exact fun s => rfl
  | succ n ih =>
    refine semiconj_ite (g := State.hasNext) (fun _ => rfl) (fun s => ?_) (fun s => rfl)
    simp only [decBit_blind m s]
    cases decBit s with
    | error f => rfl
    | ok r => cases r with
      | ok a t => exact ih t
      | raised e t => rfl

theorem endDecode_blind : BlindTo (State.withTable m) endDecode := by
  intro s
  by_cases h : s.dec.node = s.treeRoot
  · rw [endDecode_root s h, endDecode_root (s.withTable m) h]; rfl
  · rw [endDecode_midCode s h, endDecode_midCode (s.withTable m) h, abortDecode_withTable]; rfl

theorem decClose_blind : BlindTo (State.withTable m) decClose := (endDecode_blind m).andThen fun _ _ => rfl

theorem decBody_blind : ReadBlindTo (State.withTable m) decBody := by
  intro s
  rw [decBody, decBody, startDecode_blind]
  cases startDecode s with
  | raised e t => rfl
  | ok a t =>
    have hloop : decLoop (t.withTable m).bitsLeft (t.withTable m) = _ := decLoop_blind m t.bitsLeft t
    simp only [Res.mapState, hloop]
    cases decLoop t.bitsLeft t with
    | error f => rfl
    | ok r => exact congrArg Except.ok (Res.andThen_mapState (fun _ => decClose_blind m) r)

theorem procedure_decode_blind {i : Instr} (hi : i ∈ [.decStart, .decBit, .decEnd, .decRun]) :
    ReadBlindTo (State.withTable m) (procedure i) := by
  simp only [List.mem_cons, List.not_mem_nil, or_false] at hi
  obtain rfl | rfl | rfl | rfl := hi
  · exact BlindTo.read (semiconj_ite (g := fun s => s.dec.active || !s.treePresent) (fun _ => rfl)
      (BlindTo.refused _ _) ((startDecode_blind m).reply _))
  · exact semiconj_ite (g := fun s => !s.dec.active || !s.br.isOpen) (fun _ => rfl) (BlindTo.refused _ _).read
      (semiconj_ite (g := State.hasNext) (fun _ => rfl) (decBit_blind m) (BlindTo.refused _ _).read)
  · exact BlindTo.read (semiconj_ite (g := fun s => s.dec.active) (fun _ => rfl) ((endDecode_blind m).reply _)
      (BlindTo.refused _ _))
  · refine semiconj_ite (g := fun s => s.dec.active || s.br.isOpen) (fun _ => rfl) (BlindTo.refused _ _).read
      (semiconj_ite (g := State.treePresent) (fun _ => rfl) (fun s => ?_) (fun _ => rfl))
    simp only [openReader_blind m s]
    cases openReader s with
    | ok a t => exact decBody_blind m t
    | raised e t => rfl

end

/-- Settles O28: the procedures of the encoder are blind to tree and configuration, those of the decoder to the table,
and so is the record of their end. -/
theorem encoderIgnoresTreeDecoderIgnoresTable : Obligations.EncoderIgnoresTreeDecoderIgnoresTable :=
  ⟨fun _ _ _ m c hi h => exec_of_readBlindTo (procedure_encode_blind m c hi) (fun r => by cases r <;> rfl) h,
    fun _ _ _ m hi h => exec_of_readBlindTo (procedure_decode_blind m hi) (fun r => by cases r <;> rfl) h⟩

/-! ### `ENC.RUN` and `DEC.RUN` from an idle state (R176, R203, R261, R298) -/

/-- A writer just opened meets R30, whatever it held before. -/
theorem openWriter_starts {s t : State} (h : openWriter s = .ok () t) : t.WriterInv ∧ t.bw.isOpen = true := by
  refine ⟨?_, openWriter_isOpen h⟩
  cases hf : s.env.fails
  · rw [openWriter_ok s hf] at h; cases h
    exact ⟨fun i _ => BitVec.getLsbD_zero, fun _ => ⟨rfl, rfl⟩, rfl, fun _ => rfl⟩
  · rw [openWriter_fail s hf] at h; cases h

/-- A reader just opened meets R30, whatever it held before. -/
theorem openReader_starts {s t : State} (h : openReader s = .ok () t) : t.ReaderInv ∧ t.br.isOpen = true := by
  refine ⟨?_, openReader_isOpen h⟩
  cases hf : s.env.fails
  · cases hg : s.env.advance.fails
    · cases hd : s.bsrc.data with
      | nil =>
        rw [openReader_empty s hf hg hd] at h; cases h
        exact ⟨nofun, rfl, fun _ hk => absurd hk empty_cnt, empty_cnt_le⟩
      | cons v vs =>
        rw [openReader_item s hf hg hd] at h; cases h
        exact ⟨nofun, rfl, fun _ _ => rfl, full_cnt_le⟩
    · rw [openReader_readAhead_fail s hf hg] at h; cases h
  · rw [openReader_fail s hf] at h; cases h

/-- R151: an open that fails opens nothing, and holds `BSRC` no longer. -/
theorem openReader_raised {s t : State} {e : Failure} (h : openReader s = .raised e t) :
    t.br.isOpen = s.br.isOpen ∧ (s.bsrc.held = false → t.bsrc.held = false) := by
  cases hf : s.env.fails
  · cases hg : s.env.advance.fails
    · cases hd : s.bsrc.data with
      | nil => rw [openReader_empty s hf hg hd] at h; cases h
      | cons v vs => rw [openReader_item s hf hg hd] at h; cases h
    · rw [openReader_readAhead_fail s hf hg] at h; cases h; exact ⟨rfl, fun _ => rfl⟩
  · rw [openReader_fail s hf] at h; cases h; exact ⟨rfl, id⟩

/-- What `ENC.RUN` itself opens and takes is closed and released. -/
structure State.WriterReleased (s : State) : Prop where
  writer : s.bw.isOpen = false
  bsink : s.bsink.held = false
  ssrc : s.ssrc.held = false

/-- What `DEC.RUN` itself opens and takes is closed and released. -/
structure State.ReaderReleased (s : State) : Prop where
  reader : s.br.isOpen = false
  decoder : s.dec.active = false
  bsrc : s.bsrc.held = false
  ssink : s.ssink.held = false

theorem State.idle_iff (s : State) : s.Idle ↔ s.WriterReleased ∧ s.ReaderReleased :=
  ⟨fun h => ⟨⟨h.writer, h.bsink, h.ssrc⟩, ⟨h.reader, h.decoder, h.bsrc, h.ssink⟩⟩,
    fun ⟨w, r⟩ => ⟨w.writer, r.reader, r.decoder, w.bsink, r.bsrc, r.ssink, w.ssrc⟩⟩

theorem State.WriterReleased.kept {s t : State} (h : s.WriterReleased) (hframe : s.DecoderOnly t) : t.WriterReleased :=
  ⟨by rw [hframe.bw]; exact h.writer, by rw [hframe.bsink]; exact h.bsink, by rw [hframe.ssrc]; exact h.ssrc⟩

theorem State.ReaderReleased.kept {s t : State} (h : s.ReaderReleased) (hframe : s.EncoderOnly t) : t.ReaderReleased :=
  ⟨by rw [hframe.br]; exact h.reader, by rw [hframe.dec]; exact h.decoder, by rw [hframe.bsrc]; exact h.bsrc,
    by rw [hframe.ssink]; exact h.ssink⟩

/-- R176: every exit of `ENC.RUN` leaves the writer closed, and `BSINK` and `SSRC` released. -/
theorem encRun_releases {s : State} {r : Res Reply} (hs : s.WriterReleased) (h : procedure .encRun s = .ok r) :
    r.state.WriterReleased := by
  simp only [procedure, hs.writer, Bool.false_eq_true, if_false] at h
  cases hf : s.env.fails
  · rw [State.acquireSource_ok _ hf] at h
    simp only at h
    split at h <;> rename_i hw
    · obtain ⟨hbw, hbsink⟩ := openWriter_raised hw
      cases h
      exact ⟨(congrArg Writer.isOpen hbw).trans hs.writer, (congrArg Sink.held hbsink).trans hs.bsink, rfl⟩
    · obtain ⟨hinv, hopen⟩ := openWriter_starts hw
      obtain ⟨-, hclosed, hssrc, hbsink⟩ := encBody_inv h hinv hopen
      exact ⟨hclosed, hbsink, hssrc⟩
  · rw [State.acquireSource_fail _ hf] at h
    cases h
    exact ⟨hs.writer, hs.bsink, hs.ssrc⟩

/-- R203: every exit of `DEC.RUN` leaves reader and session closed, and `BSRC` and `SSINK` released. -/
theorem decRun_releases {s : State} {r : Res Reply} (hs : s.ReaderReleased) (h : procedure .decRun s = .ok r) :
    r.state.ReaderReleased := by
  simp only [procedure, hs.reader, hs.decoder, Bool.or_self, Bool.false_eq_true, if_false] at h
  split at h
  · have hdec := (openReader_frame s).2
    split at h <;> rename_i hr <;> rw [hr] at hdec
    · obtain ⟨hopen, hbsrc⟩ := openReader_raised hr
      cases h
      exact ⟨hopen.trans hs.reader, hdec.inactive hs.decoder, hbsrc hs.bsrc, (congrArg Sink.held hdec.2).trans hs.ssink⟩
    · obtain ⟨hinv, hopen⟩ := openReader_starts hr
      have hheld := hs.ssink.trans hs.decoder.symm
      obtain ⟨hread, hssink, hactive, hclosed⟩ := decBody_inv h hinv hopen (hdec.inactive hs.decoder) (hdec.held hheld)
      exact ⟨hclosed, hactive, hread.held.trans hclosed, hssink⟩
  · cases h; exact hs

theorem run_ends_idle {i : Instr} {s : State} {r : Res Reply} (hi : i ∈ [.encRun, .decRun]) (hs : s.Idle)
    (h : procedure i s = .ok r) : r.state.Idle := by
  obtain ⟨hw, hr⟩ := s.idle_iff.1 hs
  simp only [List.mem_cons, List.not_mem_nil, or_false] at hi
  obtain rfl | rfl := hi
  · exact r.state.idle_iff.2 ⟨encRun_releases hw h, hr.kept (encRun_frame h)⟩
  · exact r.state.idle_iff.2 ⟨hw.kept (decRun_frame h), decRun_releases hr h⟩

theorem State.Idle.finish {r : Res Reply} (h : r.state.Idle) (opc : BitVec 8) : (State.finish opc r).Idle := by
  rw [State.finish_eq]
  exact ⟨h.writer, h.reader, h.decoder, h.bsink, h.bsrc, h.ssink, h.ssrc⟩

/-- Settles O32: each run releases what it took and leaves the other side alone; one that ends OK notes nothing. -/
theorem runsReleaseEverything : Obligations.RunsReleaseEverything := by
  intro i s t hi hs h
  have hlog := (everyCommandWritesResult i s t h).2.1
  obtain ⟨r, hr, rfl⟩ := exec_next h
  have hidle := (run_ends_idle hi hs hr).finish (opcodeOf i)
  have hne : i ≠ .srst := by rintro rfl; simp at hi
  refine ⟨hidle, fun h0 => ⟨hidle, ?_⟩⟩
  rw [(hlog h0 hne).2, BitVec.and_not_self]

/-! ### The record of an unknown symbol (R252, R262) -/

theorem Failure.info_unknownSymbol (x : Symbol) : (Failure.unknownSymbol x).info = (0 : BitVec 24) ++ x := by
  revert x; decide

/-- What an encode records of a symbol without a valid entry (R38 to R40, R252). -/
theorem State.raise_unknownSymbol (s : State) (opc : BitVec 8) (x : Symbol) :
    s.raise opc (.unknownSymbol x) = { s with res := {
      result := resultWord opc 0 false false 2
      errinfo := (0 : BitVec 24) ++ x
      errlog := s.res.errlog ||| 0x4 } } := by
  rw [State.raise, Failure.info_unknownSymbol]; rfl

/-- A failed flush noted before it sets the `IoFailure` bit too (R262). -/
theorem State.raise_unknownSymbol_noted (s : State) (opc : BitVec 8) (x : Symbol) :
    (s.note (.ioSink .bsink)).raise opc (.unknownSymbol x) = { s with res := {
      result := resultWord opc 0 false false 2
      errinfo := (0 : BitVec 24) ++ x
      errlog := s.res.errlog ||| 0x6 } } := by
  have hlog : s.res.errlog ||| 0x2 ||| 0x4 = s.res.errlog ||| 0x6 := BitVec.or_assoc ..
  rw [State.raise_unknownSymbol, ← hlog]; rfl

/-- A noted `IoFailure` does not show behind a recorded one (R40, R262). -/
theorem State.raise_ioSource_noted (s : State) (opc : BitVec 8) (p : SourcePort) :
    (s.note (.ioSink .bsink)).raise opc (.ioSource p) = s.raise opc (.ioSource p) := by
  have hlog : s.res.errlog ||| 0x2 ||| 0x2 = s.res.errlog ||| 0x2 := BitVec.or_assoc ..
  have hbit : logBit (Failure.ioSource p).code = 0x2 := rfl
  rw [State.raise, State.raise, hbit, ← hlog]; rfl

/-! ### The clean-up close (R262) -/

theorem closeNoting_of_ok {s t : State} (h : closeWriter s = (true, t)) : closeNoting s = t := by
  rw [closeNoting, h]

theorem closeNoting_of_fail {s t : State} (h : closeWriter s = (false, t)) :
    closeNoting s = t.note (.ioSink .bsink) := by
  rw [closeNoting, h]

/-! ### `ENC.SYM` of a symbol without a code (R172, R252) -/

theorem encSym_unknown {s : State} {x : Symbol} {h : Word} (hh : s.ctabAt x 0 = some h) (hv : h.getLsbD 31 = false) :
    encSym x s = .ok (.raised (.unknownSymbol x) (closeNoting s)) := by
  have hv : entryValid h = false := hv
  rw [encSym, readEntry_eq s hh]
  simp only [hv, Bool.false_eq_true, if_false]

theorem exec_encSym_unknown {s : State} {x : Symbol} {h : Word} (ho : s.bw.isOpen = true)
    (hh : s.ctabAt x 0 = some h) (hv : h.getLsbD 31 = false) :
    exec (.encSym x) s = .next ((closeNoting s).raise 0x30 (.unknownSymbol x)) := by
  change execEncSym x s = _
  simp only [execEncSym, ho, if_true, encSym_unknown hh hv, Res.andThen_raised, finishRead_ok, State.finish_raised]

/-- Settles O46: the command is the clean-up close of `EncSym` and the record of the symbol. -/
theorem encSymUnknownSymbol : Obligations.EncSymUnknownSymbol := by
  intro s x h ho hh hv
  rw [exec_encSym_unknown ho hh hv]
  refine ⟨fun hc => ?_, fun hc hf => ?_, fun hc hf => ⟨Config.sinkAfterFailure s.env.advance.freeIdx, ?_⟩⟩
  · rw [closeNoting_of_ok (closeWriter_empty s hc), State.raise_unknownSymbol]; rfl
  · rw [closeNoting_of_ok (closeWriter_ok s hc hf), State.raise_unknownSymbol]; rfl
  · rw [closeNoting_of_fail (closeWriter_fail s hc hf), State.raise_unknownSymbol_noted]; rfl

/-! ### The turns of the loop of `ENC.RUN` (R176) -/

theorem encLoop_getFails {n : Nat} {s : State} (hf : s.env.fails = true) :
    encLoop n s = .ok (.raised (.ioSource .ssrc) ((closeNoting s.afterDraw).releaseSource .ssrc)) := by
  cases n <;> rw [encLoop, State.get_fail .ssrc hf]

theorem encLoop_ends {n : Nat} {s : State} (hf : s.env.fails = false) (hd : s.ssrc.data = []) :
    encLoop n s = .ok (.ok () s.afterDraw) := by
  cases n <;> rw [encLoop, State.get_eof .ssrc hf hd]

theorem encLoop_symbolRaises {n : Nat} {s u : State} {x : Symbol} {xs : List Symbol} {e : Failure}
    (hf : s.env.fails = false) (hd : s.ssrc.data = x :: xs)
    (h : encSym x (s.afterDraw.setSource .ssrc { s.source .ssrc with data := xs }) = .ok (.raised e u)) :
    encLoop n s = .ok (.raised e (u.releaseSource .ssrc)) := by
  cases n <;> rw [encLoop, State.get_item .ssrc hf hd] <;> simp only [h]

/-! ### The ends of `ENC.RUN` (R176) -/

/-- `ENC.RUN` once the writer is closed again and both ports are released: `bits` were written and the symbols `ys` not
taken. -/
def State.encodeEnded (s : State) (ys : List Symbol) (bits : List Bool) (k : Sink) (e : Environment) : State := { s with
  bw := { isOpen := false, acc := 0, cnt := 0, total := BitVec.ofNat 64 bits.length }
  bsink := k
  ssrc := { held := false, data := ys }
  env := e }

/-- The content of `BSINK` after a close that did not fail. -/
def packedSink (bits : List Bool) : Sink := { held := false, data := pack bits, bad := false }

section

variable (s : State) (ys : List Symbol) (bits : List Bool) (e : Environment)

theorem encClose_encoded (hf : bits.length % 8 ≠ 0 → e.fails = false) :
    encClose (s.encoded ys bits e) =
      .ok {} (s.encodeEnded ys bits (packedSink bits) (if bits.length % 8 = 0 then e else e.advance)) := by
  rw [encClose, closeWriter_encoded s ys bits e hf]; rfl

theorem encClose_encoded_fail (h : bits.length % 8 ≠ 0) (hf : e.fails = true) : ∃ data,
    encClose (s.encoded ys bits e) = .raised (.ioSink .bsink)
      (s.encodeEnded ys bits { held := false, data := data, bad := true } e.afterFailedPut) := by
  obtain ⟨data, hd⟩ := closeWriter_encoded_fail s ys bits e h hf
  exact ⟨data, by rw [encClose, hd]; rfl⟩

theorem closeNoting_encoded (hf : bits.length % 8 ≠ 0 → e.fails = false) :
    (closeNoting (s.encoded ys bits e)).releaseSource .ssrc =
      s.encodeEnded ys bits (packedSink bits) (if bits.length % 8 = 0 then e else e.advance) := by
  rw [closeNoting_of_ok (closeWriter_encoded s ys bits e hf)]; rfl

theorem closeNoting_encoded_fail (h : bits.length % 8 ≠ 0) (hf : e.fails = true) : ∃ data,
    (closeNoting (s.encoded ys bits e)).releaseSource .ssrc =
      (s.encodeEnded ys bits { held := false, data := data, bad := true } e.afterFailedPut).note (.ioSink .bsink) := by
  obtain ⟨data, hd⟩ := closeWriter_encoded_fail s ys bits e h hf
  exact ⟨data, by rw [closeNoting_of_fail hd]; rfl⟩

/-- The three ways a failed encode is cleaned up: nothing is pending, or its flush returns, or it fails too. -/
theorem cleanUp_cases {p : State → Prop} (h : p ((closeNoting (s.encoded ys bits e)).releaseSource .ssrc)) :
    (bits.length % 8 = 0 → p (s.encodeEnded ys bits (packedSink bits) e)) ∧
    (bits.length % 8 ≠ 0 → e.fails = false → p (s.encodeEnded ys bits (packedSink bits) e.advance)) ∧
    (bits.length % 8 ≠ 0 → e.fails = true → ∃ data, p
      ((s.encodeEnded ys bits { held := false, data := data, bad := true } e.afterFailedPut).note (.ioSink .bsink))) := by
  refine ⟨fun h0 => ?_, fun h0 hf => ?_, fun h0 hf => ?_⟩
  · rwa [closeNoting_encoded s ys bits e fun hne => absurd h0 hne, if_pos h0] at h
  · rwa [closeNoting_encoded s ys bits e fun _ => hf, if_neg h0] at h
  · obtain ⟨data, hd⟩ := closeNoting_encoded_fail s ys bits e h0 hf
    exact ⟨data, hd ▸ h⟩

end

/-- R176: after the symbols `pre` the loop raises, and the command ends there. -/
theorem exec_encRun_raises {s u : State} {pre post : List Symbol} {bits : List Bool} {f : Failure}
    (ho : s.bw.isOpen = false) (hx : s.ssrc.data = pre ++ post) (hb : s.encodeBits pre = some bits)
    (hf : s.env.NoFail (2 + pre.length + bits.length / 8))
    (h : encLoop post.length (s.encoded post bits (s.env.advanceN (2 + pre.length + bits.length / 8))) =
      .ok (.raised f u)) : exec .encRun s = .next (u.raise 0x31 f) := by
  rw [exec_eq, encRun_reaches ho hx hb hf, h]; rfl

/-- R176: all symbols are encoded, `Get` answers `eof`, and the close step is left. -/
theorem exec_encRun_allTaken {s : State} {xs : List Symbol} {bits : List Bool} (ho : s.bw.isOpen = false)
    (hx : s.ssrc.data = xs) (hb : s.encodeBits xs = some bits)
    (hf : s.env.NoFail (2 + xs.length + bits.length / 8))
    (he : (s.env.advanceN (2 + xs.length + bits.length / 8)).fails = false) :
    exec .encRun s = .next (State.finish 0x31
      (encClose (s.encoded [] bits (s.env.advanceN (2 + xs.length + bits.length / 8)).advance))) := by
  rw [exec_eq, encRun_reaches ho (hx.trans (List.append_nil _).symm) hb hf, encLoop_ends he rfl]; rfl

theorem exec_encRun_acquireSource_fails {s : State} (ho : s.bw.isOpen = false) (hf : s.env.fails = true) :
    exec .encRun s = .next (s.afterDraw.raise 0x31 (.ioSource .ssrc)) := by
  change execEncRun s = _
  simp only [execEncRun, ho, Bool.false_eq_true, if_false, State.acquireSource_fail .ssrc hf, finishRead_ok,
    State.finish_raised]

theorem exec_encRun_acquireSink_fails {s : State} (ho : s.bw.isOpen = false) (hf : s.env.fails = false)
    (hg : s.env.advance.fails = true) :
    exec .encRun s = .next ({ s with ssrc := { s.ssrc with held := false }, env := s.env.advance.advance }.raise 0x31
      (.ioSink .bsink)) := by
  change execEncRun s = _
  simp only [execEncRun, ho, Bool.false_eq_true, if_false, State.acquireSource_ok .ssrc hf]
  rw [openWriter_fail _ (by exact hg)]
  rfl

/-- R172, R176: a `Put` fails in the middle of a symbol's code, after `bits` and `j` whole bytes with bits of it. -/
theorem encSym_encoded_fail {s : State} {ys : List Symbol} {bits c : List Bool} {e : Environment} {x : Symbol} {j : Nat}
    (hc : s.entryCode x = some c) (hj : j < (bits.length % 8 + c.length) / 8) (hf : e.NoFail j)
    (hx : (e.advanceN j).fails = true) : ∃ data, encSym x (s.encoded ys bits e) = .ok (.raised (.ioSink .bsink) { s with
      bw := { isOpen := false, acc := 0, cnt := 0, total := BitVec.ofNat 64 (8 * (bits.length / 8 + j + 1)) }
      bsink := { held := false, data := data, bad := true }
      ssrc := { held := true, data := ys }
      env := (e.advanceN j).afterFailedPut }) := by
  have hpending : (bits.drop (8 * (bits.length / 8))).length = bits.length % 8 := by rw [List.length_drop]; omega
  have hcode : (s.encoded ys bits e).entryCode x = some c :=
    (State.entryCode_congr (s := s) (t := s.encoded ys bits e) rfl x).trans hc
  obtain ⟨data, hd⟩ := writeBits_fail c _ _ j (s.encoded_pending ys bits e)
    (by rw [List.length_append, hpending]; exact hj) hf hx
  have htotal : BitVec.ofNat 64 bits.length +
      BitVec.ofNat 64 (8 * (j + 1) - (bits.drop (8 * (bits.length / 8))).length) = BitVec.ofNat 64 (8 * (bits.length / 8 + j + 1)) := by
    rw [← BitVec.ofNat_add, hpending]; congr 1; omega
  exact ⟨data, by rw [encSym_eq hcode, hd, ← htotal]; rfl⟩

/-- Settles O48: the loop of `ENC.RUN` over `pre` is done, and its next turn or the close step fails. -/
theorem encRunFailures : Obligations.EncRunFailures := by
  intro s ho
  refine ⟨fun hf => by rw [exec_encRun_acquireSource_fails ho hf]; rfl,
    fun hf hg => by rw [exec_encRun_acquireSink_fails ho hf hg]; rfl, ?_⟩
  intro pre post bits hx hb ops hf e closed
  refine ⟨?_, ?_, fun x rest hpost he => ⟨?_, ?_⟩⟩
  · intro he ended
    have h := cleanUp_cases s post bits e.advance
      (p := fun u => exec .encRun s = .next (u.raise 0x31 (.ioSource .ssrc)))
      (exec_encRun_raises ho hx hb hf (encLoop_getFails he))
    simp only [State.raise_ioSource_noted] at h
    exact h
  · intro hpost he h0 hflush
    subst hpost
    obtain ⟨data, hd⟩ := encClose_encoded_fail s [] bits e.advance h0 hflush
    exact ⟨data, by rw [exec_encRun_allTaken ho (hx.trans (List.append_nil _)) hb hf he, hd]; rfl⟩
  · intro h hh hv ended
    subst hpost
    have hsym : encSym x (s.encoded rest bits e.advance) = _ := encSym_unknown hh hv
    have h := cleanUp_cases s rest bits e.advance
      (p := fun u => exec .encRun s = .next (u.raise 0x31 (.unknownSymbol x)))
      (exec_encRun_raises ho hx hb hf (encLoop_symbolRaises he rfl hsym))
    simp only [State.raise_unknownSymbol_noted] at h
    simp only [State.raise_unknownSymbol] at h
    exact h
  · intro c j hc hj hputs hput
    subst hpost
    obtain ⟨data, hd⟩ := encSym_encoded_fail (ys := rest) hc hj hputs hput
    exact ⟨data, exec_encRun_raises ho hx hb hf (encLoop_symbolRaises he rfl hd)⟩

/-! ### The output law of the encoder (R177) -/

/-- R176 with every symbol coded and no failure: after the last symbol `Get` answers `eof` and the close step flushes. -/
theorem exec_encRun_ok {s : State} {bits : List Bool} (ho : s.bw.isOpen = false)
    (hb : s.encodeBits s.ssrc.data = some bits)
    (hf : s.env.NoFail (2 + (s.ssrc.data.length + 1) + (bits.length + 7) / 8)) :
    exec .encRun s = .next ((s.encodeEnded [] bits (packedSink bits)
      (s.env.advanceN (2 + (s.ssrc.data.length + 1) + (bits.length + 7) / 8))).done 0x31 {}) := by
  have hops : 2 + (s.ssrc.data.length + 1) + (bits.length + 7) / 8 =
      2 + s.ssrc.data.length + bits.length / 8 + 1 + (bits.length % 8 + 7) / 8 := by omega
  rw [hops, Environment.noFail_add, Environment.noFail_add, ← Environment.advanceN_advance] at hf
  obtain ⟨⟨hloop, heof, -⟩, hflush⟩ := hf
  rw [exec_encRun_allTaken ho rfl hb hloop heof, hops]
  by_cases h0 : bits.length % 8 = 0
  · rw [encClose_encoded _ _ _ _ fun hne => absurd h0 hne, if_pos h0, h0, Environment.advanceN_advance]; rfl
  · have hone : (bits.length % 8 + 7) / 8 = 1 := by omega
    rw [hone] at hflush ⊢
    rw [encClose_encoded _ _ _ _ fun _ => hflush.1, if_neg h0, Environment.advanceN_advance,
      Environment.advanceN_advance]; rfl

/-! ### The stepwise commands (R177) -/

theorem writeBits_append (c d : List Bool) (s : State) :
    writeBits (c ++ d) s = (writeBits c s).andThen fun _ t => writeBits d t := by
  induction c generalizing s with
  | nil => rfl
  | cons b c ih =>
    rw [List.cons_append, writeBits, writeBits]
    cases writeBit b s with
    | ok a t => exact ih t
    | raised e t => rfl

theorem writeBits_keeps {c : List Bool} {s t : State} (h : writeBits c s = .ok () t) :
    t.bw.isOpen = s.bw.isOpen ∧ t.ctab = s.ctab := by
  induction c generalizing s with
  | nil => cases h; exact ⟨rfl, rfl⟩
  | cons b c ih =>
    have hframe := writeBit_frame b s
    rw [writeBits] at h
    cases hb : writeBit b s with
    | ok a u =>
      rw [hb] at h hframe
      obtain ⟨hopen, hctab⟩ := ih h
      exact ⟨hopen.trans (writeBit_isOpen hb), hctab.trans hframe.ctab⟩
    | raised e u => rw [hb] at h; cases h

/-- `ENC.SYM` of each symbol in turn does what `WriteBit` of each bit of their codes does; the result registers tell of
the last. -/
theorem runCommands_encSyms {xs : List Symbol} {s u : State} {bits : List Bool} (ho : s.bw.isOpen = true)
    (hb : s.encodeBits xs = some bits) (h : writeBits bits s = .ok () u) :
    ∃ q, runCommands (xs.map .encSym) s = some (u.withRes q) := by
  induction xs generalizing s u bits with
  | nil => cases hb; cases h; exact ⟨s.res, rfl⟩
  | cons x xs ih =>
    simp only [State.encodeBits] at hb
    split at hb
    · rename_i c cs hc hcs
      cases hb
      rw [writeBits_append] at h
      cases hw : writeBits c s with
      | raised e t => rw [hw] at h; cases h
      | ok a t =>
        rw [hw, Res.andThen_ok] at h
        obtain ⟨hopen, hctab⟩ := writeBits_keeps hw
        obtain ⟨q₁, hfirst⟩ : ∃ q₁, exec (.encSym x) s = .next (t.withRes q₁) :=
          ⟨(t.done 0x30 { sym := x }).res, by rw [exec_encSym ho hc, hw]; rfl⟩
        have hcodes : (t.withRes q₁).encodeBits xs = some cs :=
          (State.encodeBits_congr (t := t.withRes q₁) hctab xs).trans hcs
        have hwrite : writeBits cs (t.withRes q₁) = .ok () (u.withRes q₁) := by rw [writeBits_withRes, h]; rfl
        obtain ⟨q, hrest⟩ := ih (s := t.withRes q₁) (hopen.trans ho) hcodes hwrite
        exact ⟨q, (runCommands_cons hfirst _).trans hrest⟩
    · cases hb

/-- The bits `c` written to a writer just opened (R133). -/
theorem writeBits_wrote {s : State} {c : List Bool} (q : ResultRegs) (hf : s.env.advance.NoFail (c.length / 8)) :
    writeBits c (s.wrote [] q) = .ok () (s.wrote c q) := by
  have htotal : (s.wrote [] q).bw.total + BitVec.ofNat 64 c.length = BitVec.ofNat 64 c.length := BitVec.zero_add _
  rw [writeBits_eq c (s.wrote [] q) [] (s.wrote_pending [] q) hf, htotal]
  rfl

/-- R177 before the close: `BW.OPEN` and one `ENC.SYM` per symbol. -/
theorem runCommands_encodeSession {s : State} {xs : List Symbol} {bits : List Bool} (ho : s.bw.isOpen = false)
    (hb : s.encodeBits xs = some bits) (hopen : s.env.fails = false)
    (hputs : s.env.advance.NoFail (bits.length / 8)) :
    ∃ q, runCommands (.bwOpen :: xs.map .encSym) s = some (s.wrote bits q) := by
  obtain ⟨q, hq⟩ := runCommands_encSyms (s := s.wrote [] { s.res with result := 0x10000000 }) rfl
    ((State.encodeBits_congr (s := s) (t := s.wrote [] _) rfl xs).trans hb) (writeBits_wrote _ hputs)
  exact ⟨q, (runCommands_cons (exec_bwOpen_wrote ho hopen) _).trans hq⟩

/-- Settles O47: `ENC.RUN` by its loop and its close step, the stepwise commands by the bits they write. -/
theorem encoderOutputLaw : Obligations.EncoderOutputLaw := by
  refine ⟨fun s bits ho hb => exec_encRun_ok ho hb, fun s xs bits ho hb hf => ?_⟩
  rw [Nat.add_comm, Environment.noFail_succ] at hf
  obtain ⟨hopen, hputs⟩ := hf
  obtain ⟨q, hq⟩ := runCommands_encodeSession ho hb hopen (hputs.le (by omega))
  exact ⟨_, (runCommands_append hq [.bwClose]).trans (runCommands_cons (exec_bwClose_wrote hputs) []), rfl, rfl, rfl, rfl⟩

end Sys2Proof.Machine

/-! ## Proofs: the statements of `43_decoder.md` -/

namespace Sys2Proof.Machine

/-! ### The frame of the decoder's commands (R261) -/

/-- The record of a command's end adds to a decoder's frame only the result registers. -/
theorem State.DecoderOnly.finish_eq {s : State} {r : Res Reply} (h : s.DecoderOnly r.state) (opc : BitVec 8) :
    State.finish opc r = { s with
      dec := (State.finish opc r).dec, ssink := (State.finish opc r).ssink, br := (State.finish opc r).br,
      bsrc := (State.finish opc r).bsrc, res := (State.finish opc r).res, env := (State.finish opc r).env } := by
  cases r <;> exact State.ext_fields h.bw rfl rfl h.cfg rfl h.tree h.ctab h.bsink rfl rfl h.ssrc rfl

theorem procedure_decStart_frame {s : State} {r : Res Reply} (h : procedure .decStart s = .ok r) :
    s.DecoderOnly r.state ∧ r.state.br = s.br ∧ r.state.bsrc = s.bsrc := by
  cases h; split
  · exact ⟨.refl s, rfl, rfl⟩
  · rw [Res.andThen_state]; exact startDecode_frame s

/-- R261: a command of the decoder stays on the reader's and decoder's side. -/
theorem procedure_decoderOnly {i : Instr} {s : State} {r : Res Reply} (hi : i ∈ [.decStart, .decBit, .decEnd, .decRun])
    (h : procedure i s = .ok r) : s.DecoderOnly r.state := by
  simp only [List.mem_cons, List.not_mem_nil, or_false] at hi
  obtain rfl | rfl | rfl | rfl := hi
  · exact (procedure_decStart_frame h).1
  · simp only [procedure] at h
    split at h
    · cases h; exact .refl s
    · split at h
      · exact decBit_frame h
      · cases h; exact .refl s
  · cases h; split
    · rw [Res.andThen_state]; exact endDecode_frame s
    · exact .refl s
  · exact decRun_frame h

/-- Settles O27: the procedure stays on the reader's and decoder's side, and the command's end adds the record of the
result. -/
theorem decoderFrame : Obligations.DecoderFrame := by
  intro i s t hi h
  obtain ⟨r, hr, rfl⟩ := exec_next h
  have hframe := procedure_decoderOnly hi hr
  have hsetup := hframe.sameSetup.finish (opcodeOf i)
  refine ⟨hframe.finish_eq _, ?_, State.treeAt_congr hsetup.tree, State.ctabAt_congr hsetup.ctab⟩
  rintro rfl
  rw [State.finish_eq]
  exact (procedure_decStart_frame hr).2

/-! ### A command by the end of its procedure (R10) -/

theorem exec_of_returned {i : Instr} {s t : State} {a : Reply} (h : procedure i s = .ok (.ok a t)) :
    exec i s = .next (t.done (opcodeOf i) a) := by
  rw [exec_eq, h]; rfl

theorem exec_of_raised {i : Instr} {s t : State} {e : Failure} (h : procedure i s = .ok (.raised e t)) :
    exec i s = .next (t.raise (opcodeOf i) e) := by
  rw [exec_eq, h]; rfl

/-! ### `DEC.START` and `DEC.END` (R190, R191, R194 to R196) -/

theorem exec_decStart {s : State} (ha : s.dec.active = false) (hp : s.treePresent = true) :
    exec .decStart s = .next (State.finish 0x40 ((startDecode s).andThen fun _ t => .ok {} t)) := by
  change execDecStart s = _
  simp only [execDecStart, ha, hp, Bool.not_true, Bool.or_self, Bool.false_eq_true, if_false]

theorem exec_decEnd {s : State} (ha : s.dec.active = true) :
    exec .decEnd s = .next (State.finish 0x42 ((endDecode s).andThen fun _ t => .ok {} t)) := by
  change execDecEnd s = _
  simp only [execDecEnd, ha, if_true]

/-- Settles O49: `DEC.START` ends `StartDecode`, which returns or raises as the acquisition answers. -/
theorem decStartAtRoot : Obligations.DecStartAtRoot := by
  intro s ha hp
  rw [exec_decStart ha hp]
  refine ⟨fun hf => ?_, fun hf => ?_⟩
  · rw [startDecode_ok s hf]; rfl
  · rw [startDecode_fail s hf]; rfl

/-- What is recorded of a stream that ends within a code (R38 to R40, R253). -/
theorem State.raise_midCode (s : State) (opc : BitVec 8) (n : NodeIdx) :
    s.raise opc (.midCode n) = { s with res := {
      result := resultWord opc 0 false false 3
      errinfo := (0x004 : BitVec 15) ++ n ++ (0 : BitVec 8)
      errlog := s.res.errlog ||| 0x8 } } := rfl

/-- Settles O52: `DEC.END` ends `EndDecode`, which compares the pointer with the root. -/
theorem decEndChecksRoot : Obligations.DecEndChecksRoot := by
  intro s ha
  rw [exec_decEnd ha]
  refine ⟨fun hroot => ?_, fun hmid => ⟨fun ho => ?_, fun ho => ?_⟩⟩
  · rw [endDecode_root s hroot]; rfl
  · rw [endDecode_midCode s hmid, abortDecode_closed s ho, Res.andThen_raised, State.finish_raised,
      State.raise_midCode]; rfl
  · rw [endDecode_midCode s hmid, abortDecode_open s ho, Res.andThen_raised, State.finish_raised,
      State.raise_midCode]; rfl

/-! ### The failures of `DEC.BIT` (R192, R259, R261) -/

theorem exec_decBit_raises {s t : State} {e : Failure} (ha : s.dec.active = true) (ho : s.br.isOpen = true)
    (hn : s.hasNext = true) (h : decBit s = .ok (.raised e t)) : exec .decBit s = .next (t.raise 0x41 e) :=
  exec_of_raised ((procedure_decBit ha ho hn).trans h)

/-- R192: a failed read-ahead ends `DecBit` before the tree is consulted. -/
theorem decBit_readAhead_fail {s : State} (hc : s.br.cnt = 1) (hf : s.env.fails = true) :
    decBit s = .ok (.raised (.ioSource .bsrc) { s with
      br := { isOpen := false, byte := 0, cnt := 0, total := s.br.total + 1 }
      bsrc := { s.bsrc with held := false }
      dec := { s.dec with active := false }
      ssink := { s.ssink with held := false }
      env := s.env.advance }) := by
  rw [decBit, readBit_fail s hc hf]; rfl

/-- R192: `DecBit` got its bit, came to a leaf, and the `Put` of the symbol fails. -/
theorem decBit_put_fail {s u : State} {b : Bool} {w w2 : Word} (h : readBit s = .ok b u) (ho : u.br.isOpen = true)
    (hw : u.treeAt u.dec.node = some w) (hc : nodeHasChild w b = true) (hw2 : u.treeAt (nodeChild w b) = some w2)
    (hl : nodeIsLeaf w2 = true) (hf : u.env.fails = true) : ∃ data,
    decBit s = .ok (.raised (.ioSink .ssink) { u with
      br := { isOpen := false, byte := 0, cnt := 0, total := u.br.total }
      bsrc := { u.bsrc with held := false }
      dec := { u.dec with active := false }
      ssink := { held := false, data := data, bad := true }
      env := u.env.afterFailedPut }) :=
  ⟨Config.sinkAfterFailure u.env.advance.freeIdx, by
    rw [decBit, h]
    simp only [followEdge_leaf u hw hc hw2 hl, emitLeaf_fail u b w2 hf]
    rw [abortDecode_open _ (by exact ho)]⟩

/-- R192, R261: the `Put` fails after the bit, whether a read-ahead was made for it or not. -/
theorem exec_decBit_put_fail {s : State} {w w2 : Word} (ha : s.dec.active = true) (ho : s.br.isOpen = true)
    (hn : s.hasNext = true) (hread : s.br.cnt = 1 → s.env.fails = false) (hw : s.treeAt s.dec.node = some w)
    (hc : nodeHasChild w s.nextBit = true) (hw2 : s.treeAt (nodeChild w s.nextBit) = some w2)
    (hl : nodeIsLeaf w2 = true) (hf : (if s.br.cnt = 1 then s.env.advance else s.env).fails = true) : ∃ data,
    exec .decBit s = .next { s with
      br := { isOpen := false, byte := 0, cnt := 0, total := s.br.total + 1 }
      bsrc := { held := false, data := if s.br.cnt = 1 then s.bsrc.data.drop 1 else s.bsrc.data }
      dec := { s.dec with active := false }
      ssink := { held := false, data := data, bad := true }
      env := (if s.br.cnt = 1 then s.env.advance else s.env).afterFailedPut
      res := { result := 0x41000001, errinfo := 0x00300000, errlog := s.res.errlog ||| 0x2 } } := by
  obtain ⟨u, hu, hframe, henv, hopen, htotal, -, hdata⟩ := readBit_ok s hread
  have hdec : u.dec = s.dec := by rw [hframe]
  have htree (n : NodeIdx) : u.treeAt n = s.treeAt n := State.treeAt_congr (by rw [hframe]) n
  obtain ⟨data, hd⟩ := decBit_put_fail hu (hopen.trans ho) (by rw [htree, hdec, hw]) hc ((htree _).trans hw2) hl
    (henv ▸ hf)
  refine ⟨data, ?_⟩
  rw [exec_decBit_raises ha ho hn hd]
  simp only [henv, htotal, hdata]
  rw [hframe]; rfl

/-- Settles O51: `ReadBit` fails, or it returns and the `Put` at the leaf fails. -/
theorem decBitIoFailures : Obligations.DecBitIoFailures := by
  intro s ha ho hn
  refine ⟨fun hc hf => by rw [exec_decBit_raises ha ho hn (decBit_readAhead_fail hc hf)]; rfl, ?_⟩
  intro w w2 hw b hinner hchild hw2 hl ended
  have hedge : nodeHasChild w s.nextBit = true := (nodeHasChild_iff w _).2 ⟨hinner, hchild⟩
  refine ⟨fun hc hf => ?_, fun hc hread hf => ?_⟩
  · have h := exec_decBit_put_fail ha ho hn (fun h1 => absurd h1 hc) hw hedge hw2 hl (by rwa [if_neg hc])
    rwa [if_neg hc, if_neg hc] at h
  · have h := exec_decBit_put_fail ha ho hn (fun _ => hread) hw hedge hw2 hl (by rwa [if_pos hc])
    rwa [if_pos hc, if_pos hc] at h

/-! ### The draws of `DEC.RUN` before its first bit (R151, R190, R203) -/

/-- The state once `OpenReader` has read ahead (R151), with the reader's registers at `r`. -/
def State.opened (s : State) (r : Reader) : State :=
  { s with br := r, bsrc := { held := true, data := s.bsrc.data.drop 1 }, env := s.env.advanceN 2 }

/-- R151 without failure: the first byte is read ahead, and all bits of the source are unread. -/
theorem openReader_ok {s : State} (hf : s.env.NoFail 2) : ∃ r : Reader, openReader s = .ok () (s.opened r) ∧
    r.isOpen = true ∧ r.total = 0 ∧ r.cnt = (if s.bsrc.data = [] then 0 else 8) ∧
    (unpackByte r.byte).drop (8 - r.cnt.toNat) ++ unpack (s.bsrc.data.drop 1) = unpack s.bsrc.data := by
  obtain ⟨hacquire, hget, -⟩ := hf
  cases hd : s.bsrc.data with
  | nil => exact ⟨_, by rw [openReader_empty s hacquire hget hd, State.opened, hd]; rfl, rfl, rfl, rfl, rfl⟩
  | cons v vs => exact ⟨_, by rw [openReader_item s hacquire hget hd, State.opened, hd]; rfl, rfl, rfl, rfl, rfl⟩

/-- The state once `StartDecode` has acquired and emptied the sink (R190). -/
def State.started (s : State) : State := { s with
  dec := { active := true, node := s.treeRoot }
  ssink := { held := true, data := [], bad := false }
  env := s.env.advance }

theorem startDecode_started {s : State} (h : s.env.fails = false) : startDecode s = .ok () s.started :=
  startDecode_ok s h

theorem procedure_brOpen_opened {s t : State} (ho : s.br.isOpen = false) (h : openReader s = .ok () t) :
    procedure .brOpen s = .ok (.ok {} t) := by
  simp only [procedure, ho, h, Bool.false_eq_true, if_false, Res.andThen_ok]

theorem procedure_decStart_started {s t : State} (ha : s.dec.active = false) (hp : s.treePresent = true)
    (h : startDecode s = .ok () t) : procedure .decStart s = .ok (.ok {} t) := by
  simp only [procedure, ha, hp, h, Bool.not_true, Bool.or_self, Bool.false_eq_true, if_false, Res.andThen_ok]

section

variable {s t : State} (ha : s.dec.active = false) (ho : s.br.isOpen = false) (hp : s.treePresent = true)
include ha ho hp

theorem procedure_decRun_openFails {e : Failure} (h : openReader s = .raised e t) :
    procedure .decRun s = .ok (.raised e t) := by
  simp only [procedure, ha, ho, hp, h, Bool.or_self, Bool.false_eq_true, if_false, if_true]

theorem procedure_decRun_opened (h : openReader s = .ok () t) : procedure .decRun s = decBody t := by
  simp only [procedure, ha, ho, hp, h, Bool.or_self, Bool.false_eq_true, if_false, if_true]

end

theorem decBody_startFails {s t : State} {e : Failure} (h : startDecode s = .raised e t) :
    decBody s = .ok (.raised e (closeReader t)) := by
  rw [decBody, h]

theorem decBody_started {s t : State} {r : Res Unit} (h : startDecode s = .ok () t)
    (hloop : decLoop t.bitsLeft t = .ok r) : decBody s = .ok (r.andThen fun _ u => decClose u) := by
  rw [decBody, h]; simp only [hloop]

/-- The loop of `DEC.RUN` leaves by its own condition. -/
theorem decLoop_ends {s : State} (n : Nat) (h : s.hasNext = false) : decLoop n s = .ok (.ok () s) := by
  cases n with
  | zero => rfl
  | succ n => rw [decLoop, h]; rfl

/-! ### `DEC.RUN` as the stepwise commands (R203) -/

theorem runOk_of_returned {i : Instr} {s t : State} {a : Reply} (h : procedure i s = .ok (.ok a t)) (is : List Instr) :
    runOk (i :: is) s = runOk is (t.done (opcodeOf i) a) := by
  rw [runOk, exec_of_returned h]
  exact if_pos (resultWord_fields _ _ _ _ _).1

/-- R299: with no failure before the first bit, one of the ends of `DEC.RUN` is reached by finitely many `DEC.BIT`s. -/
theorem runOk_decRun_ends {s : State} (ha : s.dec.active = false) (ho : s.br.isOpen = false)
    (hp : s.treePresent = true) (hf : s.env.NoFail 3) : ∃ n u,
      runOk (.brOpen :: .decStart :: List.replicate n .decBit) s = some u ∧
      (u.hasNext = true → ∀ t, exec .decBit u = .next t → t.res.result.extractLsb' 0 4 ≠ 0) := by
  obtain ⟨hf2, hstart, -⟩ := (Environment.noFail_add 2 1 _).1 hf
  obtain ⟨r, hopen, hr, -⟩ := openReader_ok hf2
  obtain ⟨t, ht⟩ : ∃ t, t = (s.opened r).done (opcodeOf .brOpen) {} := ⟨_, rfl⟩
  have hactive : t.dec.active = false := by rw [ht]; exact ha
  have hpresent : t.treePresent = true := by rw [ht]; exact hp
  have hfails : t.env.fails = false := by rw [ht]; exact hstart
  have hreader : t.br.isOpen = true := by rw [ht]; exact hr
  have hdecStart := procedure_decStart_started hactive hpresent (startDecode_started hfails)
  obtain ⟨n, u, hu, hend⟩ := runOk_decBits_ends _ (t.started.done (opcodeOf .decStart) {}) le_rfl rfl hreader
  refine ⟨n, u, ?_, hend⟩
  rw [runOk_of_returned (procedure_brOpen_opened ho hopen), ← ht, runOk_of_returned hdecStart, hu]

/-- A failure of a command recorded under the opcode of `DEC.RUN` (R38, R203). -/
def State.asDecRun (t : State) : State :=
  { t with res := { t.res with result := (0x43 : BitVec 8) ++ t.res.result.extractLsb' 0 24 } }

/-- All of `RESULT` but the opcode. -/
theorem resultWord_eq_append_lower (opc opc' : BitVec 8) (sym : Symbol) (e v : Bool) (c : BitVec 4) :
    resultWord opc sym e v c = opc ++ (resultWord opc' sym e v c).extractLsb' 0 24 := by
  apply BitVec.eq_of_getLsbD_eq
  intro i hi
  rw [BitVec.getLsbD_append, BitVec.getLsbD_extractLsb', Nat.zero_add, resultWord_getLsbD, resultWord_getLsbD]
  by_cases h : i < 24
  · simp [h]
  · simp [h, show ¬ i < 4 by omega, show ¬ i < 8 by omega, show ¬ i = 8 by omega, show ¬ i = 9 by omega,
      show ¬ i < 16 by omega]

theorem State.asDecRun_raise {t : State} {q : ResultRegs} (opc : BitVec 8) (e : Failure)
    (hlog : q.errlog = t.res.errlog) : ((t.withRes q).raise opc e).asDecRun = t.raise 0x43 e := by
  rw [State.asDecRun, State.raise, State.raise, resultWord_eq_append_lower 0x43 opc, ← hlog]; rfl

/-- `DEC.BIT` does in any result registers what `DecBit` does. -/
theorem decBit_of_withRes {s x : State} {q : ResultRegs} {e : Failure}
    (h : decBit (s.withRes q) = .ok (.raised e x)) : ∃ w, decBit s = .ok (.raised e w) ∧ x = w.withRes q := by
  rw [decBit_withRes] at h
  split at h
  · cases h
  · rename_i r hr
    cases r with
    | ok a w => cases h
    | raised e w => cases h; exact ⟨w, hr, rfl⟩

section

variable {s u : State} {n : Nat} (ha : s.dec.active = false) (ho : s.br.isOpen = false) (hp : s.treePresent = true)
  (hu : runOk (.brOpen :: .decStart :: List.replicate n .decBit) s = some u)
include ha ho hp hu

/-- R203: `DEC.RUN` ends as the `DEC.BIT` that fails does. -/
theorem decRun_failsAs_decBit {t : State} (hn : u.hasNext = true) (ht : exec .decBit u = .next t)
    (h0 : t.res.result.extractLsb' 0 4 ≠ 0) : exec .decRun s = .next t.asDecRun := by
  obtain ⟨v, q, left, rfl, -, hlog, hres, hactive, hopen, hleft, hrun⟩ := decRun_reaches ha ho hp hu
  have hnext : v.hasNext = true := hn
  obtain ⟨e, x, hx, rfl⟩ := exec_failed ht h0
  rw [procedure_decBit (s := v.withRes q) hactive hopen hn] at hx
  obtain ⟨w, hw, rfl⟩ := decBit_of_withRes hx
  have hcnt := ((hasNext_iff v).1 hnext).2.1
  obtain ⟨m, rfl⟩ : ∃ m, left = m + 1 := ⟨left - 1, by unfold State.bitsLeft at hleft; omega⟩
  have hloop : decLoop (m + 1) v = .ok (.raised e w) := by rw [decLoop, if_pos hnext, hw]
  rw [hloop] at hrun
  have hwres : w.res = v.res := (decBit_frame hw).res
  rw [exec_of_raised hrun, State.asDecRun_raise _ _ (by rw [hlog, hwres, hres])]; rfl

/-- R203: with no bit left `DEC.RUN` ends as `DEC.END` does, and where that ends OK it closes the reader. -/
theorem decRun_endsAs_decEnd {t : State} (hn : u.hasNext = false) (ht : exec .decEnd u = .next t) :
    (t.res.result.extractLsb' 0 4 ≠ 0 → exec .decRun s = .next t.asDecRun) ∧
    (t.res.result.extractLsb' 0 4 = 0 → exec .decRun s = .next ((closeReader t).done 0x43 {})) := by
  obtain ⟨v, q, left, rfl, hinfo, hlog, hres, hactive, -, -, hrun⟩ := decRun_reaches ha ho hp hu
  rw [decLoop_ends left (show v.hasNext = false from hn)] at hrun
  have hclose : procedure .decRun s = .ok (decClose v) := hrun
  have hframe := (endDecode_frame v).res
  rw [exec_decEnd (s := v.withRes q) hactive, endDecode_withRes] at ht
  rw [decClose] at hclose
  cases hend : endDecode v with
  | ok a w =>
    rw [hend] at ht hclose hframe
    cases ht
    have hwres : w.res = s.res := hframe.trans hres
    refine ⟨fun h0 => absurd (resultWord_fields _ _ _ _ _).1 h0, fun _ => ?_⟩
    rw [exec_of_returned hclose]
    have hregs : ({ w.res with result := 0x43000000 } : ResultRegs) = { q with result := 0x43000000 } := by
      rw [hwres, hinfo, hlog]
    exact congrArg (fun r => Host.Outcome.next ((closeReader w).withRes r)) hregs
  | raised e w =>
    rw [hend] at ht hclose hframe
    cases ht
    have hwres : w.res = s.res := hframe.trans hres
    refine ⟨fun _ => ?_, fun h0 => absurd ((resultWord_fields _ _ _ _ _).1.symm.trans h0) e.code_range.1⟩
    rw [exec_of_raised hclose]
    exact congrArg _ (State.asDecRun_raise 0x42 e (by rw [hlog, hwres])).symm

end

/-- Settles O53: the opens fail in one of three ways, and from there on `DEC.RUN` is its stepwise commands. -/
theorem decRunFollowsSteps : Obligations.DecRunFollowsSteps := by
  intro s ha ho hp
  refine ⟨fun hf => ?_, fun hf hg => ?_, fun hf hstart => ?_, runOk_decRun_ends ha ho hp, ?_⟩
  · rw [exec_of_raised (procedure_decRun_openFails ha ho hp (openReader_fail s hf))]; rfl
  · rw [exec_of_raised (procedure_decRun_openFails ha ho hp (openReader_readAhead_fail s hf hg))]
    simp only [ho]; rfl
  · obtain ⟨r, hopen, -, htotal, -⟩ := openReader_ok hf
    have hstops := decBody_startFails (startDecode_fail (s.opened r) hstart)
    rw [exec_of_raised ((procedure_decRun_opened ha ho hp hopen).trans hstops), closeReader_eq]
    simp only [State.opened, htotal]; rfl
  · intro n u hu failsAs
    refine ⟨fun hn => ⟨fun t => decRun_failsAs_decBit ha ho hp hu hn, fun f hstop => ?_⟩,
      fun hn t => decRun_endsAs_decEnd ha ho hp hu hn⟩
    exact exec_fault_iff.2 (decRun_stops ha ho hp hu hn (exec_fault_iff.1 hstop))

/-! ### The tree as the decoder walks it (R68, R192, R220 to R223) -/

section

variable {s : State}

theorem State.childAt_eq_some {i j : NodeIdx} {b : Bool} :
    s.childAt i b = some j ↔ ∃ w, s.treeAt i = some w ∧ nodeHasChild w b = true ∧ nodeChild w b = j := by
  unfold State.childAt
  cases s.treeAt i with
  | none => simp
  | some w => simp

theorem State.leafAt_eq_some {i : NodeIdx} {x : Symbol} :
    s.leafAt i = some x ↔ ∃ w, s.treeAt i = some w ∧ nodeIsLeaf w = true ∧ nodeSym w = x := by
  unfold State.leafAt
  cases s.treeAt i with
  | none => simp
  | some w => simp

theorem State.nodeIsLeaf_of_leafAt_none {i : NodeIdx} {w : Word} (hw : s.treeAt i = some w) (h : s.leafAt i = none) :
    nodeIsLeaf w = false := by
  simpa [State.leafAt, hw] using h

/-- R68: a leaf has no children. -/
theorem State.childAt_leaf {i : NodeIdx} {x : Symbol} (h : s.leafAt i = some x) (b : Bool) : s.childAt i b = none := by
  obtain ⟨w, hw, hl, -⟩ := State.leafAt_eq_some.1 h
  simp [State.childAt, hw, nodeHasChild, hl]

/-- No path goes on from a leaf. -/
theorem State.walk_leaf {i j : NodeIdx} {x : Symbol} {p : List Bool} (h : s.leafAt i = some x)
    (hp : s.walk i p = some j) : p = [] ∧ i = j := by
  cases p with
  | nil => exact ⟨rfl, Option.some.inj hp⟩
  | cons b p => rw [State.walk_cons, State.childAt_leaf h] at hp; cases hp

theorem State.walk_cons_some {i j : NodeIdx} {b : Bool} {p : List Bool} (h : s.walk i (b :: p) = some j) :
    ∃ k, s.childAt i b = some k ∧ s.walk k p = some j := by
  rwa [State.walk_cons, Option.bind_eq_some_iff] at h

/-- A node on the way to a written node is written. -/
theorem State.treeAt_of_walk {i j : NodeIdx} {p : List Bool} {w : Word} (h : s.walk i p = some j)
    (hw : s.treeAt j = some w) : ∃ v, s.treeAt i = some v := by
  cases p with
  | nil => exact ⟨w, Option.some.inj h ▸ hw⟩
  | cons b p =>
    obtain ⟨k, hk, -⟩ := State.walk_cons_some h
    obtain ⟨v, hv, -⟩ := State.childAt_eq_some.1 hk
    exact ⟨v, hv⟩

/-! ### What the decoder makes of bits (R192, R204) -/

/-- Put the symbols `xs` before those the decoder emits. -/
def emitFirst (xs : List Symbol) (r : List Symbol × NodeIdx) : List Symbol × NodeIdx := (xs ++ r.1, r.2)

theorem State.decodeBits_leaf {i j : NodeIdx} {b : Bool} {x : Symbol} (hc : s.childAt i b = some j)
    (hl : s.leafAt j = some x) (bs : List Bool) :
    s.decodeBits i (b :: bs) = (s.decodeBits s.treeRoot bs).map (emitFirst [x]) := by
  obtain ⟨w, hw, hleaf, rfl⟩ := State.leafAt_eq_some.1 hl
  simp only [State.decodeBits, hc, hw, hleaf, if_true]
  rfl

theorem State.decodeBits_internal {i j : NodeIdx} {b : Bool} {w : Word} (hc : s.childAt i b = some j)
    (hw : s.treeAt j = some w) (hl : s.leafAt j = none) (bs : List Bool) :
    s.decodeBits i (b :: bs) = s.decodeBits j bs := by
  simp only [State.decodeBits, hc, hw, State.nodeIsLeaf_of_leafAt_none hw hl, Bool.false_eq_true, if_false]

/-- Where the decoder takes a bit, its edge leads to a leaf, or to an internal node. -/
theorem State.decodeBits_cons_some {i j : NodeIdx} {b : Bool} {bs : List Bool} {ys : List Symbol}
    (h : s.decodeBits i (b :: bs) = some (ys, j)) : ∃ k, s.childAt i b = some k ∧
      ((∃ x zs, s.leafAt k = some x ∧ ys = x :: zs ∧ s.decodeBits s.treeRoot bs = some (zs, j)) ∨
        s.leafAt k = none ∧ s.decodeBits k bs = some (ys, j)) := by
  cases hc : s.childAt i b with
  | none => simp only [State.decodeBits, hc] at h; cases h
  | some k =>
    refine ⟨k, rfl, ?_⟩
    cases hl : s.leafAt k with
    | some x =>
      rw [State.decodeBits_leaf hc hl, Option.map_eq_some_iff] at h
      obtain ⟨⟨zs, j'⟩, hzs, hr⟩ := h
      cases hr
      exact .inl ⟨x, zs, rfl, rfl, hzs⟩
    | none =>
      cases hw : s.treeAt k with
      | none => simp only [State.decodeBits, hc, hw] at h; cases h
      | some w =>
        rw [State.decodeBits_internal hc hw hl] at h
        exact .inr ⟨rfl, h⟩

/-- Each symbol emitted takes at least one bit. -/
theorem State.decodeBits_length_le {bs : List Bool} {i j : NodeIdx} {ys : List Symbol}
    (h : s.decodeBits i bs = some (ys, j)) : ys.length ≤ bs.length := by
  induction bs generalizing i ys with
  | nil => cases h; exact le_rfl
  | cons b bs ih =>
    obtain ⟨k, -, ⟨x, zs, -, rfl, hzs⟩ | ⟨-, hys⟩⟩ := State.decodeBits_cons_some h
    · exact Nat.succ_le_succ (ih hzs)
    · exact (ih hys).trans (Nat.le_succ _)

/-- The rest of a symbol's code, from an internal node of its path on, emits the symbol. -/
theorem State.decodeBits_path {p : List Bool} {i j : NodeIdx} {x : Symbol} (hi : s.leafAt i = none)
    (hp : s.walk i p = some j) (hj : s.leafAt j = some x) (bs : List Bool) :
    s.decodeBits i (p ++ bs) = (s.decodeBits s.treeRoot bs).map (emitFirst [x]) := by
  induction p generalizing i with
  | nil => cases hp; rw [hi] at hj; cases hj
  | cons b p ih =>
    obtain ⟨k, hk, hp⟩ := State.walk_cons_some hp
    rw [List.cons_append]
    cases hl : s.leafAt k with
    | some y =>
      obtain ⟨rfl, rfl⟩ := State.walk_leaf hl hp
      exact State.decodeBits_leaf hk hj bs
    | none =>
      obtain ⟨w, hw, -⟩ := State.leafAt_eq_some.1 hj
      obtain ⟨v, hv⟩ := State.treeAt_of_walk hp hw
      rw [State.decodeBits_internal hk hv hl, ih hl hp]

/-- R204: the codes of `xs` decode to `xs`, and the pointer is back at the root. -/
theorem State.decodeBits_codes {xs : List Symbol} {codes : List (List Bool)} (hroot : s.leafAt s.treeRoot = none)
    (h : List.Forall₂ s.TreeCode xs codes) (bs : List Bool) :
    s.decodeBits s.treeRoot (codes.flatten ++ bs) = (s.decodeBits s.treeRoot bs).map (emitFirst xs) := by
  induction h with
  | nil => exact Option.map_id'.symm
  | @cons x c xs codes hx _ ih =>
    obtain ⟨j, hp, hj⟩ := hx
    rw [List.flatten_cons, List.append_assoc, State.decodeBits_path hroot hp hj, ih, Option.map_map]
    rfl

/-- What the decoder emits from an internal node at the end of `p` on are the symbols of the codes that the bits complete;
the rest of the bits leads to where it stands. -/
theorem State.decodeBits_splits {bs p : List Bool} {i j : NodeIdx} {ys : List Symbol} (hroot : s.leafAt s.treeRoot = none)
    (hp : s.walk s.treeRoot p = some i) (hi : s.leafAt i = none) (h : s.decodeBits i bs = some (ys, j)) :
    ∃ codes r, List.Forall₂ s.TreeCode ys codes ∧ codes.flatten ++ r = p ++ bs ∧ s.walk s.treeRoot r = some j ∧
      s.leafAt j = none := by
  induction bs generalizing p i ys with
  | nil => cases h; exact ⟨[], p, .nil, (List.append_nil p).symm, hp, hi⟩
  | cons b bs ih =>
    obtain ⟨k, hk, hbit⟩ := State.decodeBits_cons_some h
    have hpath : s.walk s.treeRoot (p ++ [b]) = some k := by
      rw [State.walk_append, hp, Option.bind_some, State.walk_cons, hk]; rfl
    obtain ⟨x, zs, hleaf, rfl, hzs⟩ | ⟨hleaf, hys⟩ := hbit
    · obtain ⟨codes, r, hcodes, hflat, hr⟩ := ih (p := []) rfl hroot hzs
      refine ⟨(p ++ [b]) :: codes, r, .cons ⟨k, hpath, hleaf⟩ hcodes, ?_, hr⟩
      rw [List.flatten_cons, List.append_assoc, hflat, List.append_assoc]; rfl
    · obtain ⟨codes, r, hcodes, hflat, hr⟩ := ih hpath hleaf hys
      exact ⟨codes, r, hcodes, hflat.trans (List.append_assoc p [b] bs), hr⟩

/-! ### Zero bits in a well-formed tree (R204, R222, R224) -/

/-- R224: the only internal node of the single-symbol tree is its root. -/
theorem State.SingleShape.eq_root {i : NodeIdx} (h : s.SingleShape) (hr : s.Reach i) (hi : s.leafAt i = none) :
    i = s.treeRoot := by
  obtain ⟨⟨j, hj, hleaf⟩, hright⟩ := h
  obtain ⟨x, hx⟩ := Option.isSome_iff_exists.1 hleaf
  obtain ⟨p, hp⟩ := hr
  cases p with
  | nil => exact (Option.some.inj hp).symm
  | cons b p =>
    obtain ⟨k, hk, hp⟩ := State.walk_cons_some hp
    cases b with
    | true => rw [hright] at hk; cases hk
    | false =>
      cases hj.symm.trans hk
      obtain ⟨-, rfl⟩ := State.walk_leaf hx hp
      rw [hi] at hx; cases hx

theorem State.WfTree.zeroChild {i : NodeIdx} (h : s.WfTree) (hr : s.Reach i) (hi : s.leafAt i = none) :
    ∃ j, s.childAt i false = some j := by
  obtain ⟨hgeneral, -⟩ | hsingle := h.shape
  · exact Option.isSome_iff_exists.1 (hgeneral i hr hi false)
  · rw [hsingle.eq_root hr hi]
    obtain ⟨⟨j, hj, -⟩, -⟩ := hsingle
    exact ⟨j, hj⟩

/-- A 0 bit leads on from every internal node, so the pad bits never meet an absent child. -/
theorem State.WfTree.decodeBits_zeros (h : s.WfTree) {i : NodeIdx} (hr : s.Reach i) (hi : s.leafAt i = none) (m : Nat) :
    ∃ r, s.decodeBits i (List.replicate m false) = some r := by
  induction m generalizing i with
  | zero => exact ⟨_, rfl⟩
  | succ m ih =>
    obtain ⟨j, hj⟩ := h.zeroChild hr hi
    have hreach := hr.child hj
    rw [List.replicate_succ]
    cases hl : s.leafAt j with
    | some x =>
      obtain ⟨r, hrest⟩ := ih s.reach_root h.rootInternal
      exact ⟨_, by rw [State.decodeBits_leaf hj hl, hrest]; rfl⟩
    | none =>
      obtain ⟨w, hw⟩ := Option.isSome_iff_exists.1 (h.written j hreach)
      rw [State.decodeBits_internal hj hw hl]
      exact ih hreach hl

/-- R205: in the single-symbol tree every 0 bit emits the symbol. -/
theorem State.decodeBits_single {x : Symbol} {j : NodeIdx} (hj : s.childAt s.treeRoot false = some j)
    (hx : s.leafAt j = some x) (m : Nat) :
    s.decodeBits s.treeRoot (List.replicate m false) = some (List.replicate m x, s.treeRoot) := by
  induction m with
  | zero => rfl
  | succ m ih => rw [List.replicate_succ, State.decodeBits_leaf hj hx, ih]; rfl

end

/-! ### `DEC.RUN` on the bits it may read (R203) -/

/-- `DEC.RUN` once its loop is done: `xs` were put and the pointer stands at `j`. -/
def State.decoded (s : State) (r : Reader) (xs : List Symbol) (j : NodeIdx) (e : Environment) : State := { s with
  br := r
  bsrc := { held := true, data := [] }
  dec := { active := true, node := j }
  ssink := { held := true, data := xs, bad := false }
  env := e }

/-- `DEC.RUN` once both sessions are closed again, after `n` bits. -/
def State.decodeEnded (s : State) (n : Nat) (xs : List Symbol) (j : NodeIdx) (e : Environment) : State := { s with
  br := { isOpen := false, byte := 0, cnt := 0, total := BitVec.ofNat 64 n }
  bsrc := { held := false, data := [] }
  dec := { active := false, node := j }
  ssink := { held := false, data := xs, bad := false }
  env := e }

/-- The bits `bits` of the source are those `HasNext()` lets `DEC.RUN` read (R31): the limit ends them, or the source. -/
structure State.MayRead (s : State) (bits rest : List Bool) : Prop where
  source : unpack s.bsrc.data = bits ++ rest
  /-- Every byte of the source is read ahead. -/
  short : rest.length < 8
  limit : s.limited = true ∧ s.cfg.rdlimit.toNat = bits.length ∨ s.limited = false ∧ rest = []

section

variable {s : State} {bits rest : List Bool} {xs : List Symbol} {j : NodeIdx} {r : Reader} {e : Environment}

/-- The loop starts with all bits of the source unread (R151). -/
theorem State.MayRead.starts (h : s.MayRead bits rest) (ho : r.isOpen = true)
    (hcnt : r.cnt = if s.bsrc.data = [] then 0 else 8)
    (hbits : (unpackByte r.byte).drop (8 - r.cnt.toNat) ++ unpack (s.bsrc.data.drop 1) = unpack s.bsrc.data) :
    (s.opened r).started.Reading ∧ (s.opened r).started.unread = bits ++ rest ∧
      refills (s.opened r).started.br.cnt.toNat bits.length = bits.length / 8 := by
  by_cases hd : s.bsrc.data = []
  · have hsource := h.source
    rw [if_pos hd] at hcnt
    rw [hd] at hsource
    have hnil : bits = [] := (List.append_eq_nil_iff.1 hsource.symm).1
    have hempty : s.bsrc.data.drop 1 = [] := by rw [hd]; rfl
    refine ⟨⟨ho, hcnt ▸ empty_cnt_le, fun _ => hempty⟩, hbits.trans h.source, ?_⟩
    rw [show (s.opened r).started.br.cnt = 0 from hcnt, hnil]; rfl
  · rw [if_neg hd] at hcnt
    have hfull : r.cnt ≠ 0 := by rw [hcnt]; decide
    refine ⟨⟨ho, hcnt ▸ full_cnt_le, fun h0 => absurd h0 hfull⟩, hbits.trans h.source, ?_⟩
    rw [show (s.opened r).started.br.cnt = 8 from hcnt]; rfl

/-- R203: `DEC.RUN` decodes the bits it may read, and its end is left. -/
theorem procedure_decRun_decoded (h : s.MayRead bits rest) (ha : s.dec.active = false) (ho : s.br.isOpen = false)
    (hp : s.treePresent = true) (hd : s.decodeBits s.treeRoot bits = some (xs, j))
    (hf : s.env.NoFail (3 + xs.length + bits.length / 8)) : ∃ r : Reader, r.isOpen = true ∧
      r.total = BitVec.ofNat 64 bits.length ∧ procedure .decRun s =
        .ok (decClose (s.decoded r xs j (s.env.advanceN (3 + xs.length + bits.length / 8)))) := by
  rw [Nat.add_assoc, Environment.noFail_add, Environment.noFail_add 2 1] at hf
  rw [Nat.add_assoc, Environment.advanceN_add]
  obtain ⟨⟨hopens, hstart, -⟩, hloop⟩ := hf
  obtain ⟨r, hopen, hr, htotal, hcnt, hbits⟩ := openReader_ok hopens
  obtain ⟨hreading, hunread, hrefills⟩ := h.starts hr hcnt hbits
  have hfuel : bits.length ≤ (s.opened r).started.bitsLeft := by
    rw [← hreading.length_le, hunread, List.length_append]; omega
  have hzero : (s.opened r).started.br.total.toNat = 0 := congrArg BitVec.toNat htotal
  have hdecode : (s.opened r).started.decodeBits s.treeRoot bits = some (xs, j) :=
    (State.decodeBits_congr (s := s) (t := (s.opened r).started) rfl rfl _ _).trans hd
  have hlimit (hl : s.limited = true) : s.cfg.rdlimit.toNat = bits.length := by
    obtain ⟨-, hn⟩ | ⟨hn, -⟩ := h.limit
    · exact hn
    · rw [hl] at hn; cases hn
  obtain ⟨u, hrun, hrest, hopened, hcount, hdec, hssink, hheld, henv, hframe⟩ := decLoop_eq bits (s.opened r).started rest xs j
    _ hreading hunread hdecode hfuel (fun hl => by rw [hzero, Nat.zero_add]; exact (hlimit hl).ge)
    (h.limit.symm.imp And.right fun hl => ⟨hl.1, by rw [hzero, Nat.zero_add]; exact hl.2.symm⟩)
    (by rw [hrefills]; exact hloop)
  have hdata : u.bsrc.data = [] := by
    have hlen := congrArg List.length hrest
    rw [State.unread, List.length_append, unpack_length] at hlen
    have := h.short
    exact List.length_eq_zero_iff.1 (by omega)
  have hbsrc : u.bsrc = { held := true, data := [] } := by
    rw [← hdata, ← show u.bsrc.held = true from hheld]
  have hstate : u = s.decoded u.br xs j u.env := by
    rw [hframe]
    exact State.ext_fields rfl rfl hdec rfl rfl rfl rfl rfl hbsrc hssink rfl rfl
  refine ⟨u.br, hopened.isOpen, hcount.trans ?_, ?_⟩
  · rw [show (s.opened r).started.br.total = 0 from htotal]; exact BitVec.zero_add _
  · rw [procedure_decRun_opened ha ho hp hopen, decBody_started (startDecode_started hstart) hrun, Res.andThen_ok, hstate,
      henv, hrefills]; rfl

/-- R194, R203: the end of `DEC.RUN` compares the pointer with the root; either way both sessions are closed. -/
theorem decClose_decoded (ho : r.isOpen = true) (htotal : r.total = BitVec.ofNat 64 bits.length) :
    (j = s.treeRoot → decClose (s.decoded r xs j e) = .ok {} (s.decodeEnded bits.length xs j e)) ∧
    (j ≠ s.treeRoot → decClose (s.decoded r xs j e) = .raised (.midCode j) (s.decodeEnded bits.length xs j e)) := by
  rw [State.decodeEnded, ← htotal]
  refine ⟨fun hj => ?_, fun hj => ?_⟩
  · rw [decClose, endDecode_root _ (by exact hj)]; rfl
  · rw [decClose, endDecode_midCode _ (by exact hj), abortDecode_open _ (by exact ho)]; rfl

/-- R203: `DEC.RUN` on the bits it may read, when none of them meets an absent child and no port operation fails. -/
theorem exec_decRun_decoded (h : s.MayRead bits rest) (ha : s.dec.active = false) (ho : s.br.isOpen = false)
    (hp : s.treePresent = true) (hd : s.decodeBits s.treeRoot bits = some (xs, j)) {ops : Nat}
    (hops : 3 + xs.length + bits.length / 8 = ops) (hf : s.env.NoFail ops) :
    (j = s.treeRoot → exec .decRun s =
      .next ((s.decodeEnded bits.length xs j (s.env.advanceN ops)).done 0x43 {})) ∧
    (j ≠ s.treeRoot → exec .decRun s =
      .next ((s.decodeEnded bits.length xs j (s.env.advanceN ops)).raise 0x43 (.midCode j))) := by
  subst hops
  obtain ⟨r, hr, htotal, hrun⟩ := procedure_decRun_decoded h ha ho hp hd hf
  obtain ⟨hok, hmid⟩ := decClose_decoded (s := s) (xs := xs) (j := j)
    (e := s.env.advanceN (3 + xs.length + bits.length / 8)) hr htotal
  exact ⟨fun hj => exec_of_returned (hrun.trans (congrArg _ (hok hj))),
    fun hj => exec_of_raised (hrun.trans (congrArg _ (hmid hj)))⟩

end

/-! ### The output law of the decoder (R204) -/

theorem padBits_length_lt (bits : List Bool) : (padBits bits).length < 8 := by
  rw [padBits, List.length_replicate]; omega

/-- R106: packed bits fill whole bytes. -/
theorem length_append_padBits (bits : List Bool) : (bits ++ padBits bits).length = 8 * ((bits.length + 7) / 8) := by
  rw [← unpack_pack, unpack_length, pack_length]

/-- With the limit at their length the packed bits are read, and their pad bits not. -/
theorem State.MayRead.packed_limited {s : State} {bits : List Bool} (hd : s.bsrc.data = pack bits)
    (hl : s.Limit (BitVec.ofNat 64 bits.length)) (hlen : bits.length < 2 ^ 64) : s.MayRead bits (padBits bits) where
  source := by rw [hd, unpack_pack]
  short := padBits_length_lt bits
  limit := .inl ⟨hl.1, by rw [hl.2, BitVec.toNat_ofNat, Nat.mod_eq_of_lt hlen]⟩

/-- With no limit the packed bits are read, and their pad bits too (R289). -/
theorem State.MayRead.packed_unlimited {s : State} {bits : List Bool} (hd : s.bsrc.data = pack bits)
    (hl : s.limited = false) : s.MayRead (bits ++ padBits bits) [] where
  source := by rw [hd, unpack_pack, List.append_nil]
  short := Nat.zero_lt_succ 7
  limit := .inr ⟨hl, rfl⟩

/-- Settles O54: under the limit, or in whole bytes, exactly the codes are read, and they decode to `xs`. -/
theorem decoderOutputLaw : Obligations.DecoderOutputLaw := by
  intro s xs codes hwf ha ho hcodes hlen hd hlimit ops hf
  have hread : ∃ rest, s.MayRead codes.flatten rest := by
    obtain hl | ⟨hl, hwhole⟩ := hlimit
    · exact ⟨_, .packed_limited hd hl hlen⟩
    · have hpad : padBits codes.flatten = [] := by rw [padBits, hwhole]; rfl
      have h := State.MayRead.packed_unlimited hd hl
      rw [hpad, List.append_nil] at h
      exact ⟨_, h⟩
  obtain ⟨rest, hread⟩ := hread
  have hdecode : s.decodeBits s.treeRoot codes.flatten = some (xs, s.treeRoot) := by
    have h := State.decodeBits_codes hwf.rootInternal hcodes []
    rw [List.append_nil] at h
    exact h.trans (congrArg (fun ys => some (ys, s.treeRoot)) (List.append_nil xs))
  exact (exec_decRun_decoded hread ha ho hwf.present hdecode rfl hf).1 rfl

/-- Settles O55: the pad bits are zeros, from which no well-formed tree leads nowhere; they split into codes and a rest. -/
theorem unlimitedDecodeReadsPadBits : Obligations.UnlimitedDecodeReadsPadBits := by
  intro s xs codes hwf ha ho hcodes _ hpart hd hl hf
  have hpad : padBits codes.flatten = List.replicate (8 - codes.flatten.length % 8) false := by
    rw [padBits, Nat.mod_eq_of_lt (by omega)]
  obtain ⟨⟨ys, j⟩, hpads⟩ := hwf.decodeBits_zeros s.reach_root hwf.rootInternal (8 - codes.flatten.length % 8)
  obtain ⟨more, r, hmore, hflat, hr, hj⟩ :=
    State.decodeBits_splits (p := []) hwf.rootInternal rfl hwf.rootInternal hpads
  have hdecode : s.decodeBits s.treeRoot (codes.flatten ++ padBits codes.flatten) = some (xs ++ ys, j) := by
    rw [State.decodeBits_codes hwf.rootInternal hcodes, hpad, hpads]; rfl
  have hroot : j = s.treeRoot ↔ r = [] :=
    ⟨fun h => hwf.isTree r [] s.treeRoot (h ▸ hr) rfl, fun h => by rw [h] at hr; exact (Option.some.inj hr).symm⟩
  have hys := State.decodeBits_length_le hpads
  rw [List.length_replicate] at hys
  have hops : s.env.NoFail (3 + (xs ++ ys).length + (codes.flatten ++ padBits codes.flatten).length / 8) :=
    hf.le (by rw [length_append_padBits, List.length_append]; omega)
  obtain ⟨hok, hmid⟩ := exec_decRun_decoded (.packed_unlimited hd hl) ha ho hwf.present hdecode rfl hops
  by_cases hempty : r = []
  · exact ⟨ys, more, r, j, _, hmore, hflat, hr, hj, hok (hroot.2 hempty), rfl, rfl, rfl, fun _ => rfl,
      fun hne => absurd hempty hne⟩
  · refine ⟨ys, more, r, j, _, hmore, hflat, hr, hj, hmid (mt hroot.1 hempty), rfl, rfl, rfl, fun h => absurd h hempty,
      fun _ => ?_⟩
    rw [State.raise_midCode]; rfl

/-! ### The single-symbol tree (R205, R289) -/

/-- R205: `DEC.BIT` at the root of the single-symbol tree, by the bit. -/
theorem exec_decBit_single {s : State} {x : Symbol} {j : NodeIdx} (hj : s.childAt s.treeRoot false = some j)
    (hx : s.leafAt j = some x) (hright : s.childAt s.treeRoot true = none) (ha : s.dec.active = true)
    (ho : s.br.isOpen = true) (hn : s.hasNext = true) (hroot : s.dec.node = s.treeRoot) (hf : s.env.NoFail 2) :
    ∃ t, exec .decBit s = .next t ∧
      (s.nextBit = false → t.ssink.data = s.ssink.data ++ [x] ∧ t.dec.active = true ∧ t.dec.node = s.treeRoot ∧
        t.res.result = (0x41 : BitVec 8) ++ x ++ (0x0200 : BitVec 16)) ∧
      (s.nextBit = true → t.dec.active = false ∧ t.br.isOpen = false ∧ t.res.result = 0x41000003 ∧
        t.res.errinfo = (0x003 : BitVec 15) ++ s.treeRoot ++ (0 : BitVec 8)) := by
  obtain ⟨hfirst, hsecond, -⟩ := hf
  obtain ⟨w, hw, hleft, hchild⟩ := State.childAt_eq_some.1 hj
  obtain ⟨w2, hw2, hleaf, hsym⟩ := State.leafAt_eq_some.1 hx
  obtain ⟨u, hread, hframe, henv, hopen, -⟩ := readBit_ok s fun _ => hfirst
  have hdec : u.dec = s.dec := by rw [hframe]
  have hssink : u.ssink = s.ssink := by rw [hframe]
  have hcfg : u.treeRoot = s.treeRoot := State.treeRoot_congr (by rw [hframe])
  have htree (n : NodeIdx) : u.treeAt n = s.treeAt n := State.treeAt_congr (by rw [hframe]) n
  have hnode : u.treeAt u.dec.node = some w := by rw [htree, hdec, hroot, hw]
  cases hb : s.nextBit with
  | false =>
    rw [hb] at hread
    have hput : u.env.fails = false := by rw [henv]; split <;> assumption
    refine ⟨_, exec_decBit_leaf ha ho hn hread hnode hleft (by rw [htree, hchild, hw2]) hleaf hput, fun _ => ?_, nofun⟩
    exact ⟨by rw [← hsym, ← hssink], (congrArg Decoder.active hdec).trans ha, hcfg, by rw [← hsym]; rfl⟩
  | true =>
    rw [hb] at hread
    have habsent : nodeHasChild w true = false := by simpa [State.childAt, hw] using hright
    refine ⟨_, exec_decBit_absent ha ho hn hread hnode (hopen.trans ho) habsent, nofun, fun _ => ⟨rfl, rfl, rfl, ?_⟩⟩
    rw [← hroot, ← hdec]; rfl

/-- The codes of copies of the symbol and their pad bits are zeros alike (R289). -/
theorem replicate_append_padBits (k : Nat) :
    List.replicate k false ++ padBits (List.replicate k false) = List.replicate (8 * ((k + 7) / 8)) false := by
  rw [padBits, List.length_replicate, List.replicate_append_replicate]
  congr 1
  omega

/-- Settles O57: one bit at the root, and whole bytes of zeros. -/
theorem singleSymbolTree : Obligations.SingleSymbolTree := by
  intro s x j hp _ hj hx hright
  refine ⟨exec_decBit_single hj hx hright, fun k ha ho hl hd hf => ?_⟩
  have hread := State.MayRead.packed_unlimited hd hl
  rw [replicate_append_padBits] at hread
  have hops : 3 + (List.replicate (8 * ((k + 7) / 8)) x).length + (List.replicate (8 * ((k + 7) / 8)) false).length / 8 =
      3 + 9 * ((k + 7) / 8) := by
    rw [List.length_replicate, List.length_replicate]; omega
  exact ⟨_, (exec_decRun_decoded hread ha ho hp (State.decodeBits_single hj hx _) hops hf).1 rfl, rfl, rfl⟩

end Sys2Proof.Machine

/-! ## Proofs: the statements of `44_system.md` -/

namespace Sys2Proof

/-- A legal word whose opcode has format N is the word of that opcode with `ARG` 0 (R101, R103). -/
theorem eq_commandWord_of_legalWord {w : Word} (hlegal : legalWord w = true) (hN : fieldOpc w ∈ opcodesN) :
    w = commandWord (fieldOpc w) 0 := by
  simp only [legalWord, Bool.and_eq_true, rsvClear_iff, argFits_iff] at hlegal
  obtain ⟨⟨hrsv, -⟩, harg, -⟩ := hlegal
  rw [← harg hN, commandWord_fields hrsv]

/-- The two forms of a word that is no command (R103, R105). -/
theorem legalWord_eq_false_iff {w : Word} : legalWord w = false ↔ ∃ e, decode w = .error e := by
  rw [← Bool.not_eq_true, (legalExactlyWhenDecoded w).1]
  cases decode w <;> simp

/-- An opcode of format N makes one word a command and no other. -/
theorem illegal_of_ne_commandWord {w : Word} {opc : BitVec 8} (hN : opc ∈ opcodesN) (hopc : fieldOpc w = opc)
    (hne : w ≠ commandWord opc 0) : legalWord w = false ∧ ∃ e, decode w = .error e := by
  subst hopc
  have hillegal : legalWord w = false := Bool.eq_false_iff.2 fun hlegal => hne (eq_commandWord_of_legalWord hlegal hN)
  exact ⟨hillegal, legalWord_eq_false_iff.1 hillegal⟩

end Sys2Proof

namespace Sys2Proof.Machine

theorem exec_nop (s : State) : exec .nop s = .next (s.done 0x00 {}) := rfl

theorem exec_srst (s : State) : exec .srst s = .next (s.softReset.done 0x01 {}) := rfl

/-- No session is open and no bit is pending, so every field of `STATUS` is 0 (R41, R212). -/
theorem softReset_status (s : State) : s.softReset.status = 0 := by
  have hnext : s.softReset.hasNext = false := rfl
  rw [State.status, hnext]
  simp only [State.softReset]
  decide

theorem softReset_locked (s : State) : s.softReset.locked = false := rfl

/-- Every command but `SRST` only sets bits of `ERRLOG`: those its procedure notes and the one its end records (R40). -/
theorem exec_logsInto {i : Instr} {s t : State} (hi : i ≠ .srst) (h : exec i s = .next t) : s.res.LogsInto t.res := by
  obtain ⟨r, hr, rfl⟩ := exec_next h
  exact (procedure_oneSide hi hr).notedIo.logsInto.trans (State.finish_logsInto r _)

/-- Settles O33: opcode 0 has format N, and the command is `done` with nothing before it. -/
theorem nopOnlyWritesResult : Obligations.NopOnlyWritesResult := by
  refine ⟨decode_encode .nop, fun w => illegal_of_ne_commandWord (by decide), fun s => ?_⟩
  rw [exec_nop]; rfl

/-- Settles O34: opcode 1 has format N; the other commands only add to `ERRLOG`; the command is `softReset` and `done`,
which touches neither `STATUS` nor the lock. -/
theorem softResetEffect : Obligations.SoftResetEffect := by
  refine ⟨decode_encode .srst, fun w => illegal_of_ne_commandWord (by decide), fun i s t hi h => ?_, fun s => ?_⟩
  · exact (exec_logsInto hi h).sticky
  · exact ⟨_, exec_srst s, softReset_status s, softReset_locked s, rfl⟩

end Sys2Proof.Machine

/-! ## Proofs: the statements of `45_reference_functions.md` -/

namespace Sys2Proof.Machine

/-! ### The codes of the tree in memory (R230) -/

/-- Settles O58: no path goes on from the leaf at which the shorter code ends. -/
theorem treeCodesPrefixFree : Obligations.TreeCodesPrefixFree := by
  rintro s x y p _ - ⟨i, hp, hx⟩ ⟨j, hq, hy⟩ hne ⟨r, rfl⟩
  rw [State.walk_append, hp, Option.bind_some] at hq
  obtain ⟨-, rfl⟩ := State.walk_leaf hx hq
  exact hne (Option.some.inj (hx.symm.trans hy))

/-! ### The round trip (R231) -/

/-- R225: a symbol sequence is encoded by the codes that the tree gives its symbols. -/
theorem State.WfTable.encodeBits_codes {s : State} (h : s.WfTable) (hp : s.treePresent = true) {xs : List Symbol}
    {codes : List (List Bool)} (hcodes : List.Forall₂ s.TreeCode xs codes) :
    s.encodeBits xs = some codes.flatten := by
  induction hcodes with
  | nil => rfl
  | @cons x c xs codes hx _ ih =>
    obtain ⟨_, -, hentry, -⟩ := h x
    obtain ⟨hcode, -⟩ := hentry c hp hx
    simp only [State.encodeBits, hcode, ih, List.flatten_cons]

/-- The codes of the symbols depend on the words of the tree and its root alone (R223). -/
theorem State.TreeCode.congr {s t : State} {x : Symbol} {p : List Bool} (h : t.tree = s.tree)
    (hroot : t.treeRoot = s.treeRoot) (hx : s.TreeCode x p) : t.TreeCode x p := by
  simpa only [State.TreeCode, hroot, State.walk_congr h, State.leafAt_congr h] using hx

/-- R204: nothing is left of the codes of `xs` once `xs` is emitted. -/
theorem State.decodeBits_flatten {s : State} {xs : List Symbol} {codes : List (List Bool)}
    (hroot : s.leafAt s.treeRoot = none) (h : List.Forall₂ s.TreeCode xs codes) :
    s.decodeBits s.treeRoot codes.flatten = some (xs, s.treeRoot) := by
  have hdecode := State.decodeBits_codes hroot h []
  rw [List.append_nil] at hdecode
  exact hdecode.trans (congrArg (fun ys => some (ys, s.treeRoot)) (List.append_nil xs))

/-- Settles O59: `ENC.RUN` leaves the packed codes and their number of bits, and under that limit `DEC.RUN` reads exactly
the codes. -/
theorem encodeDecodeRoundTrip : Obligations.EncodeDecodeRoundTrip := by
  intro s codes hidle hwf htable hcodes hlen hf
  have hops : 6 + 2 * s.ssrc.data.length + (codes.flatten.length + 7) / 8 + codes.flatten.length / 8 =
      (2 + (s.ssrc.data.length + 1) + (codes.flatten.length + 7) / 8) +
        (3 + s.ssrc.data.length + codes.flatten.length / 8) := by omega
  rw [hops, Environment.noFail_add] at hf
  obtain ⟨hencode, hdecode⟩ := hf
  refine ⟨_, exec_encRun_ok hidle.writer (htable.encodeBits_codes hwf.present hcodes) hencode, rfl, fun u hu => ?_⟩
  have htree : u.tree = s.tree := by rw [hu]; rfl
  have hroot : u.treeRoot = s.treeRoot := by rw [hu]; rfl
  have hlimit : (1 : BitVec 1).getLsbD 0 = true := by decide
  have hread : u.MayRead codes.flatten (padBits codes.flatten) := by
    rw [hu]; exact .packed_limited rfl ⟨hlimit, rfl⟩ hlen
  have hbits : u.decodeBits u.treeRoot codes.flatten = some (s.ssrc.data, u.treeRoot) :=
    State.decodeBits_flatten (by rw [hroot, State.leafAt_congr htree]; exact hwf.rootInternal)
      (hcodes.imp fun _ _ hx => hx.congr htree hroot)
  have hdecoder : u.dec.active = false := by rw [hu]; exact hidle.decoder
  have hreader : u.br.isOpen = false := by rw [hu]; exact hidle.reader
  have hpresent : u.treePresent = true := by rw [hu]; exact hwf.present
  have hanswers : u.env.NoFail (3 + s.ssrc.data.length + codes.flatten.length / 8) := by rw [hu]; exact hdecode
  obtain ⟨hend, -⟩ := exec_decRun_decoded hread hdecoder hreader hpresent hbits rfl hanswers
  exact ⟨_, hend rfl, rfl, rfl⟩

/-! ### The codes of the host's tree (R228) -/

/-- The symbols at the leaves of a tree, from left to right. -/
def CodeTree.symbols : CodeTree → List Symbol
  | .leaf x _ => [x]
  | .both _ l r => l.symbols ++ r.symbols
  | .leftOnly _ l => l.symbols

/-- Each leaf is recorded once, whatever path the walk starts with. -/
theorem CodeTree.codesFrom_symbols (t : CodeTree) (p : List Bool) : (t.codesFrom p).map Prod.fst = t.symbols := by
  induction t generalizing p with
  | leaf x f => rfl
  | both f l r ihl ihr => rw [codesFrom, List.map_append, ihl, ihr, symbols]
  | leftOnly f l ih => rw [codesFrom, ih, symbols]

/-- Every code recorded begins with the path that the walk starts with. -/
theorem CodeTree.prefix_of_mem_codesFrom {t : CodeTree} {p : List Bool} {e : Symbol × List Bool}
    (h : e ∈ t.codesFrom p) : p <+: e.2 := by
  induction t generalizing p with
  | leaf x f => rw [codesFrom, List.mem_singleton] at h; rw [h]
  | both f l r ihl ihr =>
    rw [codesFrom, List.mem_append] at h
    obtain h | h := h
    · exact (List.prefix_append p _).trans (ihl h)
    · exact (List.prefix_append p _).trans (ihr h)
  | leftOnly f l ih => exact (List.prefix_append p _).trans (ih h)

/-- Paths that descend on different sides of a node have no common extension. -/
theorem eq_of_snoc_prefixes {p c : List Bool} {a b : Bool} (ha : p ++ [a] <+: c) (hb : p ++ [b] <+: c) : a = b := by
  have h := (List.prefix_of_prefix_length_le ha hb (by simp)).eq_of_length (by simp)
  exact List.singleton_inj.1 (List.append_cancel_left h)

/-- A code that begins another is the same entry: the walk parts the two at a node, on different sides of it. -/
theorem CodeTree.eq_of_mem_codesFrom_of_prefix {t : CodeTree} {p : List Bool} {e d : Symbol × List Bool}
    (he : e ∈ t.codesFrom p) (hd : d ∈ t.codesFrom p) (hpre : e.2 <+: d.2) : e = d := by
  induction t generalizing p with
  | leaf x f => rw [codesFrom, List.mem_singleton] at he hd; rw [he, hd]
  | both f l r ihl ihr =>
    have hsides {a b : Bool} (ha : p ++ [a] <+: e.2) (hb : p ++ [b] <+: d.2) : a = b :=
      eq_of_snoc_prefixes (ha.trans hpre) hb
    rw [codesFrom, List.mem_append] at he hd
    obtain he | he := he <;> obtain hd | hd := hd
    · exact ihl he hd
    · cases hsides (prefix_of_mem_codesFrom he) (prefix_of_mem_codesFrom hd)
    · cases hsides (prefix_of_mem_codesFrom he) (prefix_of_mem_codesFrom hd)
    · exact ihr he hd
  | leftOnly f l ih => exact ih he hd

theorem buildTable_symbols (t : CodeTree) : (buildTable (some t)).map Prod.fst = t.symbols := t.codesFrom_symbols []

theorem eq_of_mem_buildTable_of_prefix {o : Option CodeTree} {e d : Symbol × List Bool} (he : e ∈ buildTable o)
    (hd : d ∈ buildTable o) (hpre : e.2 <+: d.2) : e = d := by
  cases o with
  | none => cases he
  | some t => exact CodeTree.eq_of_mem_codesFrom_of_prefix he hd hpre

/-! ### TreeBuilder keeps the symbols (R226, R227) -/

section

variable (tieBreak : CodeTree → CodeTree → Bool)

/-- R227: the tie-break only chooses the place of the new tree. -/
theorem insertTree_perm (t : CodeTree) (ts : List CodeTree) : (insertTree tieBreak t ts).Perm (t :: ts) := by
  induction ts with
  | nil => exact .refl _
  | cons u us ih =>
    rw [insertTree]
    split
    · exact .refl _
    · exact (ih.cons u).trans (.swap t u us)

/-- The collection before the merge holds one leaf per entry of the frequency table. -/
theorem foldl_insertTree_perm (fs : List (Symbol × Nat)) (ts : List CodeTree) :
    (fs.foldl (fun ts e => insertTree tieBreak (.leaf e.1 e.2) ts) ts).Perm
      (fs.map (fun e => .leaf e.1 e.2) ++ ts) := by
  induction fs generalizing ts with
  | nil => exact .refl _
  | cons e fs ih =>
    exact (ih _).trans (((insertTree_perm tieBreak _ ts).append_left _).trans List.perm_middle)

/-- The merge keeps the leaves: each turn puts the leaves of two trees into one, and the turns suffice for one tree. -/
theorem mergeTrees_symbols (n : Nat) (ts : List CodeTree) (h : ts.length ≤ n + 1) :
    ((buildTable (mergeTrees tieBreak n ts)).map Prod.fst).Perm (ts.flatMap CodeTree.symbols) := by
  match n, ts with
  | n, [] => cases n <;> exact .refl _
  | n, [t] =>
    rw [List.flatMap_singleton, ← buildTable_symbols]
    cases n <;> exact .refl _
  | n + 1, t :: u :: ts =>
    have hinsert := insertTree_perm tieBreak (.both (t.freq + u.freq) t u) ts
    have hlength := hinsert.length_eq
    simp only [List.length_cons] at h hlength
    have hrest := mergeTrees_symbols n (insertTree tieBreak (.both (t.freq + u.freq) t u) ts) (by omega)
    refine hrest.trans ((hinsert.flatMap_right _).trans ?_)
    rw [List.flatMap_cons, List.flatMap_cons, List.flatMap_cons, CodeTree.symbols, List.append_assoc]

/-- R226, R228: the table has exactly the symbols of the frequency table. -/
theorem buildTable_buildTree_symbols (fs : List (Symbol × Nat)) :
    ((buildTable (buildTree tieBreak fs)).map Prod.fst).Perm (fs.map Prod.fst) := by
  match fs with
  | [] => exact .refl _
  | [(x, f)] => exact .refl _
  | e :: d :: fs =>
    have hleaves := foldl_insertTree_perm tieBreak (e :: d :: fs) []
    rw [List.append_nil] at hleaves
    refine (mergeTrees_symbols tieBreak _ _ (by rw [hleaves.length_eq, List.length_map]; exact Nat.le_succ _)).trans ?_
    refine (hleaves.flatMap_right _).trans (.of_eq ?_)
    rw [List.flatMap_map, List.map_eq_flatMap]; rfl

/-- R224, R230: the empty code would begin every other, so a table that has it has one symbol; but the tree of one symbol
gives the code "0". -/
theorem ne_nil_of_mem_buildTree {fs : List (Symbol × Nat)} (hfs : (fs.map Prod.fst).Nodup)
    {e : Symbol × List Bool} (he : e ∈ buildTable (buildTree tieBreak fs)) : e.2 ≠ [] := by
  intro hnil
  have hsymbols := buildTable_buildTree_symbols tieBreak fs
  have hall (x : Symbol) (hx : x ∈ fs.map Prod.fst) : x = e.1 := by
    obtain ⟨d, hd, rfl⟩ := List.mem_map.1 (hsymbols.mem_iff.2 hx)
    rw [eq_of_mem_buildTable_of_prefix he hd (hnil ▸ List.nil_prefix)]
  match fs with
  | [] => cases he
  | [(x, f)] => cases List.mem_singleton.1 he; cases hnil
  | (x, _) :: (y, _) :: fs =>
    have hxy : x = y := (hall x (by simp)).trans (hall y (by simp)).symm
    simp [hxy] at hfs

end

/-- Settles O60: the builder keeps the symbols, and in the table a code that begins another is the same entry. -/
theorem builtTableIsPrefixFree : Obligations.BuiltTableIsPrefixFree := by
  intro tieBreak fs hfs
  refine ⟨buildTable_buildTree_symbols tieBreak fs, fun e he => ne_nil_of_mem_buildTree tieBreak hfs he, ?_⟩
  intro e he d hd hne hpre
  exact hne (congrArg Prod.fst (eq_of_mem_buildTable_of_prefix he hd hpre))

end Sys2Proof.Machine

/-! ## Proofs: the statements of `60_exceptions.md` -/

namespace Sys2Proof.Machine

/-! ### Failures that use no field of `ERRINFO` (R255 to R257) -/

/-- `RESULT` of a command that fails: nothing but the opcode and the code (R38). -/
theorem resultWord_failure (opc : BitVec 8) (code : BitVec 4) :
    resultWord opc 0 false false code = opc ++ ((0 : BitVec 20) ++ code : BitVec 24) := by
  have hlower : (0 : Symbol) ++ ((0 : BitVec 6) ++ BitVec.ofBool false ++ BitVec.ofBool false ++ (0 : BitVec 4) ++ code :
      BitVec 16) = ((0 : BitVec 20) ++ code : BitVec 24) := by revert code; decide
  rw [resultWord_eq_append, BitVec.append_assoc, hlower, BitVec.cast_eq]

/-- What such a failure records (R10, R38 to R40). -/
theorem State.raise_of_info_zero {e : Failure} (he : e.info = 0) (s : State) (opc : BitVec 8) :
    s.raise opc e = { s with res := {
      result := opc ++ ((0 : BitVec 20) ++ e.code : BitVec 24)
      errinfo := 0
      errlog := s.res.errlog ||| logBit e.code } } := by
  rw [State.raise, resultWord_failure, he]

/-! ### Illegal command words (R255) -/

theorem command_rejected {w : Word} {e : Reject} (h : decode w = .error e) (s : State) :
    command w s = .next (s.raise (fieldOpc w) .illegalCommand) := by
  simp only [command, h, execIllegal]

/-- Settles O6: the step takes the word off the script, the decoder rejects it, and only the failure is recorded. -/
theorem illegalWordOnlyRecords : Obligations.IllegalWordOnlyRecords := by
  intro s w rest hs hw
  obtain ⟨e, he⟩ := legalWord_eq_false_iff.1 hw
  rw [step_cons hs, act_write_cmd, command_rejected he, State.raise_of_info_zero rfl]
  rfl

/-! ### `BadState` is raised by a command's guard alone (R256)

Of the procedures behind the guards, no branch raises it and none calls one that does. -/

theorem Res.andThen_ne_badState {α β : Type} {r : Res α} {f : α → State → Res β} {t : State}
    (hr : ∀ u, r ≠ .raised .badState u) (hf : ∀ a u, f a u ≠ .raised .badState t) :
    r.andThen f ≠ .raised .badState t := by
  cases r with
  | ok a u => exact hf a u
  | raised e u => rintro ⟨⟩; exact hr t rfl

/-- The same of a procedure whose value becomes the command's reply. -/
theorem Res.reply_ne_badState {α : Type} {r : Res α} {f : α → Reply} {t : State} (hr : ∀ u, r ≠ .raised .badState u) :
    (.ok (r.andThen fun a u => .ok (f a) u) : Except Fault (Res Reply)) ≠ .ok (.raised .badState t) :=
  mt Except.ok.inj (Res.andThen_ne_badState hr fun _ _ => nofun)

section

variable {s t : State}

theorem openWriter_ne_badState : openWriter s ≠ .raised .badState t := by
  fun_cases openWriter s <;> exact nofun

theorem writeBit_ne_badState {b : Bool} : writeBit b s ≠ .raised .badState t := by
  fun_cases writeBit b s <;> exact nofun

theorem encBits_ne_badState {x : Symbol} {i n : Nat} : encBits x i n s ≠ .ok (.raised .badState t) := by
  fun_induction encBits x i n s with
  | case3 i n s b hb e u hw => rintro ⟨⟩; exact writeBit_ne_badState hw
  | case4 i n s b hb a u hw ih => exact ih
  | _ => exact nofun

theorem encSym_ne_badState {x : Symbol} : encSym x s ≠ .ok (.raised .badState t) := by
  fun_cases encSym x s with
  | case2 => exact encBits_ne_badState
  | _ => exact nofun

theorem encLoop_ne_badState {n : Nat} : encLoop n s ≠ .ok (.raised .badState t) := by
  fun_induction encLoop n s with
  | case4 n s x u hget e v hx => rintro ⟨⟩; exact encSym_ne_badState hx
  | case6 s x u hget a v hx n ih => exact ih
  | _ => exact nofun

theorem encClose_ne_badState : encClose s ≠ .raised .badState t := by
  fun_cases encClose s <;> exact nofun

theorem encBody_ne_badState : encBody s ≠ .ok (.raised .badState t) := by
  fun_cases encBody s with
  | case1 => exact nofun
  | case2 r hr =>
    have hloop (u : State) : r ≠ .raised .badState u := by rintro rfl; exact encLoop_ne_badState hr
    exact mt Except.ok.inj (Res.andThen_ne_badState hloop fun _ _ => encClose_ne_badState)

theorem openReader_ne_badState : openReader s ≠ .raised .badState t := by
  fun_cases openReader s <;> exact nofun

theorem readBit_ne_badState : readBit s ≠ .raised .badState t := by
  fun_cases readBit s <;> exact nofun

theorem startDecode_ne_badState : startDecode s ≠ .raised .badState t := by
  fun_cases startDecode s <;> exact nofun

theorem emitLeaf_ne_badState {b : Bool} {w : Word} : emitLeaf b w s ≠ .raised .badState t := by
  fun_cases emitLeaf b w s <;> exact nofun

theorem followEdge_ne_badState {b : Bool} : followEdge b s ≠ .ok (.raised .badState t) := by
  fun_cases followEdge b s with
  | case3 => exact mt Except.ok.inj emitLeaf_ne_badState
  | _ => exact nofun

theorem decBit_ne_badState : decBit s ≠ .ok (.raised .badState t) := by
  fun_cases decBit s with
  | case1 e u hu => rintro ⟨⟩; exact readBit_ne_badState hu
  | case2 => exact followEdge_ne_badState

theorem decLoop_ne_badState {n : Nat} : decLoop n s ≠ .ok (.raised .badState t) := by
  fun_induction decLoop n s with
  | case3 n s hnext e u hbit => rintro ⟨⟩; exact decBit_ne_badState hbit
  | case4 n s hnext a u hbit ih => exact ih
  | _ => exact nofun

theorem endDecode_ne_badState : endDecode s ≠ .raised .badState t := by
  fun_cases endDecode s <;> exact nofun

theorem decClose_ne_badState : decClose s ≠ .raised .badState t :=
  Res.andThen_ne_badState (fun _ => endDecode_ne_badState) fun _ _ => nofun

theorem decBody_ne_badState : decBody s ≠ .ok (.raised .badState t) := by
  fun_cases decBody s with
  | case1 e u hu => rintro ⟨⟩; exact startDecode_ne_badState hu
  | case2 => exact nofun
  | case3 u w hw r hr =>
    have hloop (v : State) : r ≠ .raised .badState v := by rintro rfl; exact decLoop_ne_badState hr
    exact mt Except.ok.inj (Res.andThen_ne_badState hloop fun _ _ => decClose_ne_badState)

end

/-- R256 in one direction: where the table refuses a command, its procedure does nothing. -/
theorem procedure_badState {i : Instr} {s : State} (h : badStateWhen i s = true) :
    procedure i s = .ok (.raised .badState s) := by
  cases i <;> simp [badStateWhen] at h <;> simp [procedure, h]

/-- R256 in the other direction: past the guard only the procedures of the units are left. -/
theorem procedure_ne_badState {i : Instr} {s t : State} (h : badStateWhen i s = false) :
    procedure i s ≠ .ok (.raised .badState t) := by
  cases i <;> simp only [badStateWhen, Bool.not_eq_false', Bool.or_eq_false_iff] at h <;>
    simp only [procedure, h, Bool.not_true, Bool.or_self, Bool.false_eq_true, if_false, if_true]
  case nop | srst | brHasnext | brClose => exact nofun
  case bwOpen => exact Res.reply_ne_badState fun _ => openWriter_ne_badState
  case bwWritebit => exact Res.reply_ne_badState fun _ => writeBit_ne_badState
  case bwClose => split <;> exact nofun
  case brOpen => exact Res.reply_ne_badState fun _ => openReader_ne_badState
  case brReadbit =>
    split
    · exact Res.reply_ne_badState fun _ => readBit_ne_badState
    · exact nofun
  case encSym x =>
    split
    · exact nofun
    · rename_i r hr
      exact Res.reply_ne_badState (by rintro u rfl; exact encSym_ne_badState hr)
  case encRun =>
    split
    · exact nofun
    · split
      · rename_i hopen; rintro ⟨⟩; exact openWriter_ne_badState hopen
      · exact encBody_ne_badState
  case decStart => exact Res.reply_ne_badState fun _ => startDecode_ne_badState
  case decBit =>
    split
    · exact decBit_ne_badState
    · exact nofun
  case decEnd => exact Res.reply_ne_badState fun _ => endDecode_ne_badState
  case decRun =>
    split
    · split
      · rename_i hopen; rintro ⟨⟩; exact openReader_ne_badState hopen
      · exact decBody_ne_badState
    · exact nofun

theorem Failure.eq_badState_of_code {e : Failure} (h : e.code = 5) : e = .badState := by
  cases e with
  | badState => rfl
  | _ => cases h

/-- Settles O21: a refused command is its guard, and a recorded code 5 names a `BadState` that the procedure raised. -/
theorem badStateTable : Obligations.BadStateTable := by
  intro i s
  refine ⟨fun h => ?_, fun h t ht hcode => ?_⟩
  · rw [exec_of_raised (procedure_badState h), State.raise_of_info_zero rfl]; rfl
  · obtain ⟨e, u, hraise, rfl⟩ := exec_failed ht (by rw [hcode]; decide)
    obtain rfl : e = .badState := Failure.eq_badState_of_code ((resultWord_fields _ _ _ _ _).1.symm.trans hcode)
    exact procedure_ne_badState h hraise

/-! ### `EndOfStream` (R257) -/

/-- Settles O22: with no bit available both commands raise before they do anything. -/
theorem endOfStreamOnlyRecords : Obligations.EndOfStreamOnlyRecords := by
  intro s ho hno
  have hnext : s.hasNext = false := Bool.eq_false_iff.2 fun hn => hno ((hasNext_iff_of_open ho).1 hn)
  have hread : procedure .brReadbit s = .ok (.raised .endOfStream s) := by simp [procedure, ho, hnext]
  refine ⟨?_, fun ha => ?_⟩
  · rw [exec_of_raised hread, State.raise_of_info_zero rfl]; rfl
  · have hbit : procedure .decBit s = .ok (.raised .endOfStream s) := by simp [procedure, ha, ho, hnext]
    rw [exec_of_raised hbit, State.raise_of_info_zero rfl]; rfl

/-! ### Empty input (R254, R233) -/

/-- R203: with the tree absent `DEC.RUN` does nothing. -/
theorem procedure_decRun_absent {s : State} (ha : s.dec.active = false) (ho : s.br.isOpen = false)
    (hp : s.treePresent = false) : procedure .decRun s = .ok (.ok {} s) := by
  simp [procedure, ha, ho, hp]

/-- Settles O56: `DEC.RUN` ends at once; `ENC.RUN` is the encode of no symbol, whose code is empty. -/
theorem emptyInputIsNoFailure : Obligations.EmptyInputIsNoFailure := by
  intro s
  refine ⟨fun ha ho hp => ?_, fun ho hempty hf => ?_⟩
  · rw [exec_of_returned (procedure_decRun_absent ha ho hp)]; rfl
  · have hbits : s.encodeBits s.ssrc.data = some [] := by rw [hempty]; rfl
    have hend := exec_encRun_ok ho hbits (by rw [hempty]; exact hf)
    rw [hend, hempty]; rfl

end Sys2Proof.Machine

/-! ## Proofs: the statements of `70_reset_and_hazards.md` -/

namespace Sys2Proof.Machine

/-! ### Where the words it reads are written a command completes (R297, R299) -/

/-- R50: the procedure of a command stops at unwritten words alone. -/
theorem procedure_held {i : Instr} {s : State} (h : s.allHeld (readsOf i s)) : ∃ r, procedure i s = .ok r := by
  cases i with
  | encSym x =>
    by_cases hb : badStateWhen (.encSym x) s = true
    · exact ⟨_, procedure_badState hb⟩
    · have ho : s.bw.isOpen = true := by simpa [badStateWhen] using hb
      obtain ⟨r, hr⟩ := encSym_held (x := x) (by simpa [readsOf, ho] using h)
      simp only [procedure, ho, if_true, hr]
      exact ⟨_, rfl⟩
  | encRun => exact encRun_held h
  | decBit =>
    by_cases hb : badStateWhen .decBit s = true
    · exact ⟨_, procedure_badState hb⟩
    · obtain ⟨ha, ho⟩ : s.dec.active = true ∧ s.br.isOpen = true := by simpa [badStateWhen] using hb
      by_cases hn : s.hasNext = true
      · rw [procedure_decBit ha ho hn]
        exact decBit_held (by simpa [readsOf, ha, ho, hn] using h)
      · exact ⟨.raised .endOfStream s, by simp [procedure, ha, ho, hn]⟩
  | decRun => exact decRun_held h
  | _ => exact ⟨_, rfl⟩

theorem exec_written {i : Instr} {s : State} (h : s.writtenFor i = true) : ∃ t, exec i s = .next t := by
  obtain ⟨r, hr⟩ := procedure_held ((s.writtenFor_iff i).1 h)
  exact ⟨State.finish (opcodeOf i) r, by rw [exec_eq, hr]; rfl⟩

/-! ### A run of written words does not stop (R297, R299) -/

/-- Of the host's actions only a legal command word stops the model. -/
theorem act_fault {a : HostAction} {s : State} {f : Fault} (h : act a s = .fault f) :
    ∃ w i, a = .write 0x0000 w ∧ decode w = .ok i ∧ exec i s = .fault f := by
  cases a with
  | write a w =>
    by_cases ha : a = 0x0000
    · subst ha
      rw [act_write_cmd] at h
      cases hw : decode w with
      | ok i => exact ⟨w, i, rfl, hw, command_decoded hw s ▸ h⟩
      | error e => rw [command_rejected hw] at h; cases h
    · rw [act_write_register ha] at h; cases h
  | read a => cases h
  | load p items => simp only [act, loadSource] at h; split at h <;> cases h
  | hardReset => cases h

theorem step_fault {s : State} {f : Fault} (h : step s = .fault f) :
    ∃ w rest i, s.env.script = .write 0x0000 w :: rest ∧ decode w = .ok i ∧
      exec i (s.take (.write 0x0000 w) rest) = .fault f := by
  cases hs : s.env.script with
  | nil => rw [step, hs] at h; cases h
  | cons a rest =>
    rw [step_cons hs] at h
    obtain ⟨w, i, rfl, hw, hf⟩ := act_fault h
    exact ⟨w, rest, i, rfl, hw, hf⟩

theorem State.stepReads_command {s : State} {w : Word} {i : Instr} {rest : List HostAction}
    (hs : s.env.script = .write 0x0000 w :: rest) (hw : decode w = .ok i) :
    s.stepReads = readsOf i (s.take (.write 0x0000 w) rest) := by
  have hcmd : locate 0x0000 = .cmd := rfl
  simp only [State.stepReads, hs, hcmd, hw]

theorem step_written {s : State} (h : s.allHeld s.stepReads) (f : Fault) : step s ≠ .fault f := by
  intro hstep
  obtain ⟨w, rest, i, hs, hw, hf⟩ := step_fault hstep
  rw [State.stepReads_command hs hw] at h
  obtain ⟨t, ht⟩ := exec_written ((State.writtenFor_iff _ i).2 ((State.allHeld_congr rfl rfl _).1 h))
  rw [ht] at hf; cases hf

theorem State.writtenRun_succ {s : State} {n : Nat} (h : s.writtenRun (n + 1) = true) :
    s.allHeld s.stepReads ∧ ∀ t, step s = .next t → t.writtenRun n = true := by
  rw [State.writtenRun, Bool.and_eq_true] at h
  obtain ⟨hreads, hrun⟩ := h
  exact ⟨List.all_eq_true.1 hreads, fun t ht => by rwa [ht] at hrun⟩

theorem runSteps_written {n : Nat} {s : State} (h : s.writtenRun n = true) (f : Fault) : runSteps n s ≠ .fault f := by
  induction n generalizing s with
  | zero => exact nofun
  | succ n ih =>
    obtain ⟨hreads, hrun⟩ := State.writtenRun_succ h
    rw [runSteps]
    cases hs : step s with
    | next t => exact ih (hrun t hs)
    | fault g => exact absurd hs (step_written hreads g)
    | refused r => exact nofun

/-! ### What the host is asked to write is enough (R282, R283) -/

/-- The duties cover every word that a command reads. -/
theorem readsOf_held {i : Instr} {s : State} (htable : (i = .encRun ∨ ∃ x, i = .encSym x) → s.TableWritten)
    (htree : i = .decRun → s.TreeWritten) (hbit : i = .decBit → s.TreeWritten ∧ s.Reach s.dec.node) :
    s.allHeld (readsOf i s) := by
  have nil : s.allHeld [] := nofun
  cases i with
  | encSym x =>
    rw [readsOf]; split
    · exact (htable (.inr ⟨x, rfl⟩)).entryReads x
    · exact nil
  | encRun => exact (htable (.inl rfl)).encRunReads
  | decBit =>
    obtain ⟨hwritten, hreach⟩ := hbit rfl
    rw [readsOf]; split
    · exact hwritten.bitReads hreach
    · exact nil
  | decRun => exact (htree rfl).decRunReads
  | _ => exact nil

/-- Settles O30: a procedure stops only at a word it reads, so where these are written a command ends, and no step of a
run stops; the words that R282 and R283 name are among them. -/
theorem writtenCommandsComplete : Obligations.WrittenCommandsComplete := by
  refine ⟨fun i s => exec_written, fun n s h f => runSteps_written h f, fun i s htable htree hbit => ?_⟩
  have hwritten := (s.writtenFor_iff i).2 (readsOf_held htable htree hbit)
  exact ⟨hwritten, exec_written hwritten⟩

end Sys2Proof.Machine
